-- ==== Sys2Proof/Word.lean ====
section
/-!
DEFINITION. The word types of the BHQ block: every register and every host access is 64 bits wide
(spec/10_state.md R30, spec/20_memory.md R73); a byte is 8 bits; an offset in the register window of 0x2000 bytes
is 13 bits (spec/20_memory.md R70). Bit 0 is the least significant bit (spec/00_scope.md R6).
-/

namespace Sys2Proof

/-- A 64-bit register, RAM word or host datum. -/
abbrev Word := BitVec 64

/-- A 64-bit word read as the bit pattern of an IEEE binary64 value (spec/00_scope.md R8, spec/10_state.md R50). -/
abbrev F64 := BitVec 64

/-- One byte. -/
abbrev Byte := BitVec 8

/-- A byte offset inside the register window of 0x2000 bytes (spec/20_memory.md R70). -/
abbrev Offset := BitVec 13

end Sys2Proof
end

