-- ==== Sys2Proof/Syntax.lean ====
section
/-!
DEFINITION. The commands of the BHQ block: one constructor per row of spec/opcode_table.json
(spec/30_encoding.md R104), with the fields of its format (R101 to R103).
-/

namespace Sys2Proof

/-- A command. Data operands are not part of it: they come from OP0..OP3, CHR and COEF (spec/30_encoding.md R103). -/
inductive Instr where
  /-- NOP, format K0 (spec/44_control.md R260). -/
  | nop
  /-- B83ENC, format KL (spec/40_base83.md R133). -/
  | b83enc (len : BitVec 4)
  /-- B83DEC, format KL (spec/40_base83.md R136). -/
  | b83dec (len : BitVec 4)
  /-- S2L, format K0 (spec/41_color.md R164). -/
  | s2l
  /-- L2S, format K0 (spec/41_color.md R168). -/
  | l2s
  /-- SPOWH, format K0, exponent 0.5 (spec/41_color.md R173). -/
  | spowh
  /-- SPOWG, format K0, exponent fdiv(1.0, 2.2) (spec/41_color.md R174). -/
  | spowg
  /-- SPOWS, format K0, exponent 2.0 (spec/41_color.md R175). -/
  | spows
  /-- DCQ, format K0 (spec/42_quantizers.md R202). -/
  | dcq
  /-- AMAXQ, format K0 (spec/42_quantizers.md R205). -/
  | amaxq
  /-- ACQ, format K0 (spec/42_quantizers.md R208). -/
  | acq
  /-- GRIDQ, format KG (spec/43_grid.md R236). -/
  | gridq (cx cy : BitVec 4)
  deriving DecidableEq, Repr

end Sys2Proof
end

