-- ==== Sys2Proof/WellFormed.lean ====
section
/-!
DEFINITION. The field constraints of spec/30_encoding.md R104's match-and-mask table: LEN in 1..10 for the two
base-83 commands, none for the others. CX and CY are free: a count outside 1..9 is a legal encoding (R106).
-/

namespace Sys2Proof

/-- The field constraints of a command (spec/30_encoding.md R104, R105, R106). -/
def Instr.wellFormed : Instr → Bool
  | .nop => true
  | .b83enc len => decide (1 ≤ len.toNat ∧ len.toNat ≤ 10)
  | .b83dec len => decide (1 ≤ len.toNat ∧ len.toNat ≤ 10)
  | .s2l => true
  | .l2s => true
  | .spowh => true
  | .spowg => true
  | .spows => true
  | .dcq => true
  | .amaxq => true
  | .acq => true
  | .gridq _ _ => true

end Sys2Proof
end

