-- ==== Sys2Proof/Decode.lean ====
section
/-!
DEFINITION. Decoding and encoding of a command word (spec/30_encoding.md R100 to R107). The decoder selects a row of
R104 by its opcode and refuses a nonzero reserved bit; the field constraint LEN in 1..10 is `Instr.wellFormed`, so that
`legal` (R105) is: the word decodes, and to a well-formed command.
-/

namespace Sys2Proof

/-- Why a word selects no row of spec/30_encoding.md R104. -/
inductive Reject where
  /-- OPC is one of the 244 unassigned values (spec/30_encoding.md R107). -/
  | reservedOpcode (opc : BitVec 8)
  /-- A bit the row's format reserves is 1 (spec/30_encoding.md R101, R105). -/
  | reservedBits (opc : BitVec 8)
  deriving DecidableEq, Repr

/-- OPC, bits 7:0 (spec/30_encoding.md R101). -/
def opcField (w : Word) : BitVec 8 := w.extractLsb' 0 8

/-- F1, bits 11:8: LEN or CX (spec/30_encoding.md R101, R103). -/
def f1Field (w : Word) : BitVec 4 := w.extractLsb' 8 4

/-- F2, bits 15:12: CY (spec/30_encoding.md R101, R103). -/
def f2Field (w : Word) : BitVec 4 := w.extractLsb' 12 4

/-- The row's command if every bit at `low` and above is 0, else a rejection by name. -/
def reservedFrom (low : Nat) (w : Word) (i : Instr) : Except Reject Instr :=
  if w.toNat / 2 ^ low = 0 then .ok i else .error (.reservedBits (opcField w))

/-- Format K0: bits 63:8 are 0 (spec/30_encoding.md R102, R105). -/
def formatK0 (w : Word) (i : Instr) : Except Reject Instr := reservedFrom 8 w i

/-- Format KL: bits 63:12 are 0, LEN in 11:8 (spec/30_encoding.md R102, R105). -/
def formatKL (w : Word) (i : BitVec 4 → Instr) : Except Reject Instr := reservedFrom 12 w (i (f1Field w))

/-- Format KG: bits 63:16 are 0, CX in 11:8 and CY in 15:12 (spec/30_encoding.md R102, R105). -/
def formatKG (w : Word) (i : BitVec 4 → BitVec 4 → Instr) : Except Reject Instr :=
  reservedFrom 16 w (i (f1Field w) (f2Field w))

/-- The opcode map of spec/30_encoding.md R104. Total: every word decodes or is rejected by name. -/
def decode (w : Word) : Except Reject Instr :=
  match (opcField w).toNat with
  | 0x00 => formatK0 w .nop
  | 0x01 => formatKL w .b83enc
  | 0x02 => formatKL w .b83dec
  | 0x10 => formatK0 w .s2l
  | 0x11 => formatK0 w .l2s
  | 0x20 => formatK0 w .spowh
  | 0x21 => formatK0 w .spowg
  | 0x22 => formatK0 w .spows
  | 0x30 => formatK0 w .dcq
  | 0x31 => formatK0 w .amaxq
  | 0x32 => formatK0 w .acq
  | 0x40 => formatKG w .gridq
  | _ => .error (.reservedOpcode (opcField w))

/-- `legal(w)` in the words of spec/30_encoding.md R105. -/
def legal (w : Word) : Bool :=
  let opc := (opcField w).toNat
  if opc ∈ [0x00, 0x10, 0x11, 0x20, 0x21, 0x22, 0x30, 0x31, 0x32] then decide (w.toNat / 2 ^ 8 = 0)
  else if opc ∈ [0x01, 0x02] then
    decide (w.toNat / 2 ^ 12 = 0 ∧ 1 ≤ (f1Field w).toNat ∧ (f1Field w).toNat ≤ 10)
  else if opc = 0x40 then decide (w.toNat / 2 ^ 16 = 0)
  else false

/-- A command word from its three fields, every reserved bit 0 (spec/30_encoding.md R101). -/
def wordOf (opc : BitVec 8) (f1 f2 : BitVec 4) : Word :=
  opc.setWidth 64 ||| (f1.setWidth 64 <<< 8) ||| (f2.setWidth 64 <<< 12)

/-- The command word of a command: the match value of its row with its fields (spec/30_encoding.md R102, R104, R108). -/
def encode : Instr → Word
  | .nop => wordOf 0x00 0 0
  | .b83enc len => wordOf 0x01 len 0
  | .b83dec len => wordOf 0x02 len 0
  | .s2l => wordOf 0x10 0 0
  | .l2s => wordOf 0x11 0 0
  | .spowh => wordOf 0x20 0 0
  | .spowg => wordOf 0x21 0 0
  | .spows => wordOf 0x22 0 0
  | .dcq => wordOf 0x30 0 0
  | .amaxq => wordOf 0x31 0 0
  | .acq => wordOf 0x32 0 0
  | .gridq cx cy => wordOf 0x40 cx cy

/-- What the decoder reads from an instruction of `nbits` bits `w`, numbered as spec/opcode_table.json numbers them
(bit 0 the least significant). A command is one 64-bit word written whole (spec/30_encoding.md R100), so no layout in
bytes comes between. -/
def decodeTableWord (nbits w : Nat) : Option Instr := (decode (BitVec.ofNat 64 (w % 2 ^ nbits))).toOption

end Sys2Proof
end

