-- ==== Sys2Proof/Config.lean ====
section
/-!
DEFINITION. The open parameters of spec/00_scope.md R5. `BASE` is the opaque constant below; `LAT` is not a constant
at all: "any finite value", "possibly different for each command" (spec/44_control.md R268), so it is the plain data
`State.turns` (log entry 1). The parameters with a fixed value stand in Sys2Proof/Machine/Constants.lean.
-/

namespace Sys2Proof

/-- Which multiple of 0x2000 the platform puts the register window at: no value of it can be proved
(spec/00_scope.md R5, `BASE`, OPEN; spec/92_eei_decisions.md D3). -/
opaque Config.baseIndex : Nat

/-- `BASE`: the host byte address of the register window, a multiple of 0x2000 (spec/00_scope.md R5). -/
def Config.base : Nat := 0x2000 * Config.baseIndex

end Sys2Proof
end

