-- ==== Sys2Proof/Machine/Constants.lean ====
section
/-!
DEFINITION. The fixed parameters of spec/00_scope.md R5, the identity of spec/10_state.md R31, the offsets of
spec/20_memory.md R71, the binary64 constants of spec/41_color.md R160 and the alphabet of spec/40_base83.md R130.
-/

namespace Sys2Proof.Machine

/-- `WINDOW`, the size of the register window in bytes (spec/00_scope.md R5). -/
def windowBytes : Nat := 0x2000

/-- `N_COEF`, the words of the coefficient RAM (spec/00_scope.md R5, spec/43_grid.md R241). -/
def nCoef : Nat := 243

/-- `N_QG`, the words of the quantized-grid RAM (spec/00_scope.md R5, spec/43_grid.md R241). -/
def nQg : Nat := 81

/-- `MAX_LEN`, the largest base-83 field length a command accepts (spec/00_scope.md R5). -/
def maxLen : Nat := 10

/-- `CX_MAX` and `CY_MAX`, the largest component counts (spec/00_scope.md R5). -/
def countMax : Nat := 9

/-- The value ID always reads: "BHQA", the requester's revision 7, block revision 1 (spec/10_state.md R31). -/
def idValue : Word := 0x4248514100070001

/-- The window offset of COEF[n] (spec/20_memory.md R71). -/
def coefOffset (n : Nat) : Nat := 0x800 + 8 * n

/-- The window offset of QG[n] (spec/20_memory.md R71). -/
def qgOffset (n : Nat) : Nat := 0x1000 + 8 * n

/-! The binary64 constants (spec/41_color.md R160; the bits are normative). -/

/-- 255 -/
def k255 : F64 := 0x406FE00000000000
/-- 0.04045 -/
def kSrgbT : F64 := 0x3FA4B5DCC63F1412
/-- 12.92 -/
def k12_92 : F64 := 0x4029D70A3D70A3D7
/-- 0.055 -/
def k0_055 : F64 := 0x3FAC28F5C28F5C29
/-- 1.055 -/
def k1_055 : F64 := 0x3FF0E147AE147AE1
/-- 2.4 -/
def k2_4 : F64 := 0x4003333333333333
/-- 0.0031308 -/
def kLinT : F64 := 0x3F69A5C37387B719
/-- fdiv(1.0, 2.4) -/
def kInv2_4 : F64 := 0x3FDAAAAAAAAAAAAB
/-- 2.2 -/
def k2_2 : F64 := 0x400199999999999A
/-- fdiv(1.0, 2.2) -/
def kInv2_2 : F64 := 0x3FDD1745D1745D17
/-- 166 -/
def k166 : F64 := 0x4064C00000000000
/-- 0.5 -/
def kHalf : F64 := 0x3FE0000000000000
/-- 9 -/
def k9 : F64 := 0x4022000000000000
/-- 9.5 -/
def k9_5 : F64 := 0x4023000000000000
/-- 1.0 -/
def k1 : F64 := 0x3FF0000000000000
/-- 2.0 -/
def k2 : F64 := 0x4000000000000000
/-- 0.0 -/
def k0 : F64 := 0x0000000000000000

/-- The alphabet: `alphabet[d]` is the ASCII code of index `d`; `0-9`, `A-Z`, `a-z`, then the 21 punctuation
characters in the source's order (spec/40_base83.md R130). -/
def alphabet : List Byte :=
  [0x30, 0x31, 0x32, 0x33, 0x34, 0x35, 0x36, 0x37, 0x38, 0x39] ++
  [0x41, 0x42, 0x43, 0x44, 0x45, 0x46, 0x47, 0x48, 0x49, 0x4A, 0x4B, 0x4C, 0x4D] ++
  [0x4E, 0x4F, 0x50, 0x51, 0x52, 0x53, 0x54, 0x55, 0x56, 0x57, 0x58, 0x59, 0x5A] ++
  [0x61, 0x62, 0x63, 0x64, 0x65, 0x66, 0x67, 0x68, 0x69, 0x6A, 0x6B, 0x6C, 0x6D] ++
  [0x6E, 0x6F, 0x70, 0x71, 0x72, 0x73, 0x74, 0x75, 0x76, 0x77, 0x78, 0x79, 0x7A] ++
  [0x23, 0x24, 0x25, 0x2A, 0x2B, 0x2C, 0x2D, 0x2E, 0x3A, 0x3B, 0x3D, 0x3F, 0x40] ++
  [0x5B, 0x5D, 0x5E, 0x5F, 0x7B, 0x7C, 0x7D, 0x7E]

end Sys2Proof.Machine
end

