-- ==== Sys2Proof/Machine/State.lean ====
section
/-!
DEFINITION. The state of the BHQ block as plain data (spec/10_state.md R30), the reasons a step can stop, and the state
after reset (R49, spec/70_reset_and_hazards.md R300). `faults` is the spec's record of model faults (spec/60_exceptions.md
R270). Two fields are the model's own: the moves still to come and the values the host has read (log entries 1 and 2).
-/

namespace Sys2Proof.Machine

/-- The fields of STATUS that are not hardwired 0 (spec/10_state.md R33). -/
structure Status where
  /-- bit 0: a command is accepted and not complete (R34) -/
  busy : Bool
  /-- bit 1: the last accepted command is complete (R35) -/
  done : Bool
  /-- bit 2: the last completed command ended with an error (R36) -/
  err : Bool
  /-- bit 3, sticky: a write was refused because the block was busy (R37) -/
  ovr : Bool
  /-- bits 11:8: error code of the last completed command (R38) -/
  errcode : BitVec 4
  /-- bits 23:16: index of the item that caused the error (R38) -/
  erridx : BitVec 8
  /-- bits 31:24: bits 7:0 of the last accepted command word (R38) -/
  lastop : BitVec 8
  deriving DecidableEq, Repr

/-- What the host and the platform can do to the block (spec/44_control.md R269; spec/20_memory.md R73, R77). -/
inductive HostOp where
  /-- a host read of `size` bytes at window offset `off` -/
  | read (off : Offset) (size : Nat)
  /-- a host write of `size` bytes at window offset `off`; `v` is the datum of an 8-byte write -/
  | write (off : Offset) (size : Nat) (v : Word)
  /-- the platform asserts reset (spec/70_reset_and_hazards.md R300) -/
  | reset
  deriving DecidableEq, Repr

/-- Whose move it is: the spec fixes no order between the host's accesses and the block's completion steps
(spec/44_control.md R268, spec/70_reset_and_hazards.md R310 to R312). -/
inductive Turn where
  /-- the host or the platform moves -/
  | host (a : HostOp)
  /-- the block may take its completion step -/
  | block
  deriving DecidableEq, Repr

/-- Memory: one byte at an address, in strictly rising order of addresses. The addresses are window offsets of the two
RAMs; an unlisted byte holds no value (spec/10_state.md R40). -/
abbrev Mem := List Host.Cell

/-- The model faults of spec/60_exceptions.md R270 and R279. The two of a host access are recorded in `State.faults` and
the block goes on; the one of GRIDQ ends the run (log entry 3). -/
inductive Fault where
  /-- Raised by a host access of a size other than 8 bytes, a misaligned one, or one to an unmapped offset
  (spec/20_memory.md R73, R74, R76). Recorded: the access changes no block state and the block goes on (R77). Safe: what
  the host does with the error response is left open. -/
  | busError (off : Offset) (size : Nat)
  /-- Raised by a host read of a RAM word not written since reset (spec/10_state.md R40). Recorded: the read changes no
  block state (spec/20_memory.md R81) and answers no value. Safe: nothing is said of the unspecified value. -/
  | unwrittenRead (off : Offset)
  /-- Raised by GRIDQ where a COEF word it reads has not been written since reset; the run has no further meaning
  (spec/43_grid.md R233), so this one is an outcome and no record. Safe: the model stops. -/
  | unwrittenOperand
  deriving DecidableEq, Repr

/-- Refusals. No meaning answers with one. -/
inductive Refusal where
  /-- Raised by an arm of `exec` whose instruction has no meaning yet; no arm of this model does. Safe. -/
  | notModelled (mnemonic : String)
  deriving DecidableEq, Repr

/-- The state of the block (spec/10_state.md R30), the record of model faults, and the model's own `turns` and `replies`. ID is a constant and CMD
holds no value of its own (R31, R32), so neither is a field. -/
structure State where
  /-- STATUS (R33) -/
  status : Status
  /-- OP0..OP3, the operand registers (R41) -/
  op : Vector Word 4
  /-- RES0..RES3, the result registers (R42) -/
  res : Vector Word 4
  /-- CHR[0..15], the character buffer, held in CHR0 and CHR1 (R43) -/
  chr : Vector Byte 16
  /-- COEF[0..242] and QG[0..80], byte by byte at their window offsets (R45, R46, spec/20_memory.md R71, R72) -/
  mem : Mem
  /-- PEND: nothing, or the accepted command word (R47) -/
  pend : Option Word
  /-- the model faults recorded so far, the newest first; kept for the whole run (spec/60_exceptions.md R270) -/
  faults : List Fault
  /-- the model's own: the moves still to come, the next one first (log entry 1) -/
  turns : List Turn
  /-- the model's own: what the host's reads returned, the newest first (log entry 2) -/
  replies : List (Offset × Word)
  deriving DecidableEq, Repr

/-- STATUS after reset: every field 0 (spec/10_state.md R49). -/
def Status.reset : Status :=
  { busy := false, done := false, err := false, ovr := false, errcode := 0, erridx := 0, lastop := 0 }

/-- The state after reset (spec/10_state.md R49, spec/70_reset_and_hazards.md R300): STATUS, OP, RES and CHR are 0, PEND
is empty, every RAM word is unwritten, no model fault is recorded (R304). The model's own `turns` and `replies` are empty (log entries 1 and 2). -/
def State.reset : State :=
  { status := Status.reset
    op := Vector.replicate 4 0
    res := Vector.replicate 4 0
    chr := Vector.replicate 16 0
    mem := []
    pend := none
    faults := []
    turns := []
    replies := [] }

/-- What an instruction, an access or a step answers. -/
abbrev Result := Host.Outcome State Fault Refusal

end Sys2Proof.Machine
end

