-- ==== Sys2Proof/Machine/Flags.lean ====
section
/-!
DEFINITION. Every change of STATUS: acceptance, completion, an error report, an overrun, a write-1-to-clear, and the
word a read returns (spec/10_state.md R33 to R39, spec/44_control.md R261, R262, R264). There are no other flags:
no command sets a flag as a side effect of its arithmetic (spec/10_state.md R48).
-/

namespace Sys2Proof.Machine

/-- The named errors (spec/60_exceptions.md R271). Codes 3 and 4 are reserved: no command of this block raises them. -/
inductive CmdError where
  /-- code 1: a byte of CHR[0..len-1] is outside the alphabet -/
  | invalidCharacter
  /-- code 2: a count of GRIDQ is outside 1..9 -/
  | invalidComponents
  /-- code 3, reserved: never raised by this block -/
  | invalidLength
  /-- code 4, reserved: never raised by this block -/
  | invalidImage
  /-- code 5: the command word is not legal -/
  | illegalCommand
  /-- code 6: a NaN operand, or a NaN quotient inside ACQ -/
  | nanOperand
  deriving DecidableEq, Repr

/-- The number of an error, as ERRCODE holds it (spec/60_exceptions.md R271). -/
def CmdError.code : CmdError → BitVec 4
  | .invalidCharacter => 1
  | .invalidComponents => 2
  | .invalidLength => 3
  | .invalidImage => 4
  | .illegalCommand => 5
  | .nanOperand => 6

/-- The 64 bits a read of STATUS returns (spec/10_state.md R33, spec/20_memory.md R78): LASTOP in 31:24, ERRIDX in
23:16, ERRCODE in 11:8, OVR, ERR, DONE, BUSY in bits 3..0, every other bit 0. -/
def Status.word (t : Status) : Word :=
  (t.lastop ++ t.erridx ++ 0#4 ++ t.errcode ++ 0#4 ++ BitVec.ofBool t.ovr ++ BitVec.ofBool t.err ++
    BitVec.ofBool t.done ++ BitVec.ofBool t.busy).setWidth 64

/-- A host write of `w` to STATUS: bit 1 clears DONE, bit 2 clears ERR with ERRCODE and ERRIDX, bit 3 clears OVR; all
other bits are ignored (spec/10_state.md R39). -/
def Status.writeOneToClear (t : Status) (w : Word) : Status :=
  { t with
    done := t.done && !w.getLsbD 1
    err := t.err && !w.getLsbD 2
    ovr := t.ovr && !w.getLsbD 3
    errcode := if w.getLsbD 2 then 0 else t.errcode
    erridx := if w.getLsbD 2 then 0 else t.erridx }

/-- STATUS at the acceptance of `w`; OVR is unchanged (spec/44_control.md R261). -/
def Status.accepted (t : Status) (w : Word) : Status :=
  { t with busy := true, done := false, err := false, errcode := 0, erridx := 0, lastop := w.extractLsb' 0 8 }

/-- STATUS at the completion of a command that succeeded; OVR and LASTOP are unchanged (spec/44_control.md R262). -/
def Status.succeeded (t : Status) : Status := { t with busy := false, done := true }

/-- STATUS at the completion of a command that raised `Err(e, idx)` (spec/44_control.md R262,
spec/60_exceptions.md R272). -/
def Status.failed (t : Status) (e : CmdError) (idx : Nat) : Status :=
  { t with busy := false, done := true, err := true, errcode := e.code, erridx := BitVec.ofNat 8 idx }

/-- STATUS after a write that was refused because the block was busy (spec/44_control.md R264, R265). -/
def Status.overrun (t : Status) : Status := { t with ovr := true }

end Sys2Proof.Machine
end

