-- ==== Sys2Proof/Machine/Ops.lean ====
section
/-!
DEFINITION. The named operations on the state: the memory's bytes and words, the register files, acceptance,
completion, the error report, reset, the register map and the host's accesses (spec/10_state.md, spec/20_memory.md,
spec/44_control.md R261 to R267, spec/70_reset_and_hazards.md R300). `force` and `forceWord` are identities that have
a number computed before it is used.
-/

namespace Sys2Proof.Machine

/-- `f n`. Lean's kernel computes `n` to a numeral before it goes on with `f`, so that a step can be evaluated. -/
def force {α : Type} (n : Nat) (f : Nat → α) : α :=
  match n with
  | 0 => f 0
  | k + 1 => f (k + 1)

/-- `f w`, with `w` computed first (see `force`). -/
def forceWord {α : Type} {w : Nat} (v : BitVec w) (f : BitVec w → α) : α := force v.toNat fun n => f (BitVec.ofNat w n)

/-! ### Memory -/

/-- The byte at `a`, `none` if nothing has been written there since reset (spec/10_state.md R40). -/
def memGet : Mem → Nat → Option Byte
  | [], _ => none
  | c :: m, a => if c.1 = a then some c.2 else memGet m a

/-- Write byte `b` at `a`, keeping the addresses in rising order. -/
def memPut : Mem → Nat → Byte → Mem
  | [], a, b => [(a, b)]
  | c :: m, a, b =>
    if a < c.1 then (a, b) :: c :: m
    else if c.1 = a then (a, b) :: m
    else c :: memPut m a b

/-- The canonical form: addresses strictly rising. -/
abbrev memWf (m : Mem) : Prop := (m.map Prod.fst).Pairwise (· < ·)

/-- The cells from address `a` on: where a reader of rising addresses goes on. -/
def memFrom : Mem → Nat → Mem
  | [], _ => []
  | c :: m, a => if c.1 < a then memFrom m a else c :: m

/-- The little-endian number in the `k` bytes at `a`, `none` if one of them is unwritten (spec/20_memory.md R72). -/
def readBytes (m : Mem) (a : Nat) : Nat → Option Nat
  | 0 => some 0
  | k + 1 =>
    match memGet m a with
    | none => none
    | some b =>
      force (a + 1) fun a' =>
      match readBytes m a' k with
      | none => none
      | some n => some (b.toNat + 256 * n)

/-- Write the number `n` in the `k` bytes at `a`, little-endian (spec/20_memory.md R72). -/
def putBytes (m : Mem) (a n : Nat) : Nat → Mem
  | 0 => m
  | k + 1 =>
    force (n % 256) fun b => force (n / 256) fun n' => force (a + 1) fun a' =>
    memPut (putBytes m a' n' k) a (BitVec.ofNat 8 b)

/-- The 64-bit RAM word at window offset `a`, `none` if it is unwritten (spec/10_state.md R40). -/
def readWord (m : Mem) (a : Nat) : Option Word :=
  match readBytes (memFrom m a) a 8 with
  | none => none
  | some n => some (BitVec.ofNat 64 n)

/-- Write the 64-bit RAM word at window offset `a`. -/
def writeWord (m : Mem) (a : Nat) (v : Word) : Mem :=
  forceWord v fun v => putBytes m a v.toNat 8

/-- COEF[n], `none` if unwritten (spec/10_state.md R45). -/
def State.coef (s : State) (n : Nat) : Option Word := force (coefOffset n) fun a => readWord s.mem a

/-- QG[n], `none` if unwritten (spec/10_state.md R46). -/
def State.qg (s : State) (n : Nat) : Option Word := force (qgOffset n) fun a => readWord s.mem a

/-- Write COEF[n]: the word becomes written (spec/20_memory.md R79). -/
def State.setCoef (s : State) (n : Nat) (v : Word) : State :=
  { s with mem := force (coefOffset n) fun a => writeWord s.mem a v }

/-- `QG[n], QG[n+1], ... <- zext_64` of the listed numbers (spec/10_state.md R46). -/
def writeQg (m : Mem) (n : Nat) : List Nat → Mem
  | [] => m
  | v :: vs => force (qgOffset n) fun a => writeQg (writeWord m a (BitVec.ofNat 64 v)) (n + 1) vs

/-! ### Registers -/

/-- Write OP[k] (spec/10_state.md R41). -/
def State.setOp (s : State) (k : Fin 4) (v : Word) : State := { s with op := s.op.set k v }

/-- Write RES[k]; only a completion does (spec/10_state.md R42). -/
def State.setRes (s : State) (k : Fin 4) (v : Word) : State :=
  { s with res := forceWord v fun v => s.res.set k v }

/-- The eight bytes of CHR0 (`k = 0`) or CHR1 (`k = 1`) as one word, CHR[8k] in bits 7:0 (spec/10_state.md R43). -/
def State.chrWord (s : State) (k : Fin 2) : Word :=
  s.chr[8 * k.val + 7] ++ s.chr[8 * k.val + 6] ++ s.chr[8 * k.val + 5] ++ s.chr[8 * k.val + 4] ++
    s.chr[8 * k.val + 3] ++ s.chr[8 * k.val + 2] ++ s.chr[8 * k.val + 1] ++ s.chr[8 * k.val]

/-- Byte `b` of a word: bits [8b+7 : 8b] (spec/20_memory.md R72). -/
def byteOf (v : Word) (b : Nat) : Byte := v.extractLsb' (8 * b) 8

/-- Write all eight bytes of CHR0 or CHR1 (spec/10_state.md R43). -/
def State.setChrWord (s : State) (k : Fin 2) (v : Word) : State :=
  { s with chr := Vector.ofFn fun j => if j.val / 8 = k.val then byteOf v (j.val % 8) else s.chr[j] }

/-! ### The life of a command -/

/-- Acceptance of `w` (spec/44_control.md R261): PEND <- w, BUSY <- 1, DONE, ERR, ERRCODE, ERRIDX <- 0, LASTOP <- w[7:0]. -/
def State.accept (s : State) (w : Word) : State := { s with status := s.status.accepted w, pend := some w }

/-- A write refused because the block is busy: its only effect is OVR <- 1 (spec/44_control.md R264, R265). -/
def State.refuse (s : State) : State := { s with status := s.status.overrun }

/-- A host write of `w` to CMD: accepted if BUSY = 0, dropped with OVR <- 1 if BUSY = 1 (spec/10_state.md R32). -/
def State.offer (s : State) (w : Word) : State := if s.status.busy then s.refuse else s.accept w

/-- Completion of a command that succeeded, its results already committed: DONE <- 1, BUSY <- 0, PEND emptied
(spec/44_control.md R262). -/
def State.succeed (s : State) : State := { s with status := s.status.succeeded, pend := none }

/-- `raise Err(e, idx)`: completion with an error report and no result; the block's one way to end a command with an
error (spec/44_control.md R262, spec/60_exceptions.md R272). There is no trap and nothing to return from (R276). -/
def State.raiseErr (s : State) (e : CmdError) (idx : Nat) : State :=
  { s with status := s.status.failed e idx, pend := none }

/-- A model fault of a host access: it is recorded for the run, and no block state changes (spec/20_memory.md R77, R81,
spec/60_exceptions.md R270). -/
def State.record (s : State) (f : Fault) : State := { s with faults := f :: s.faults }

/-- The reset event (spec/70_reset_and_hazards.md R300): the block's whole state at its reset values, an accepted command
abandoned; a recorded model fault stays recorded. The host's side (`turns`, `replies`) is not the block's and stays. -/
def State.resetEvent (s : State) : State :=
  { State.reset with faults := s.faults, turns := s.turns, replies := s.replies }

/-! ### The register map -/

/-- What an offset of the window names (spec/20_memory.md R71). -/
inductive Reg where
  | id | cmd | status
  | op (k : Fin 4)
  | res (k : Fin 4)
  | chr (k : Fin 2)
  | coef (n : Fin 243)
  | qg (n : Fin 81)
  deriving DecidableEq, Repr

/-- The register at an aligned, mapped offset; `none` for a misaligned or unmapped one (spec/20_memory.md R71, R74, R76). -/
def regAt (off : Offset) : Option Reg :=
  let o := off.toNat
  if o % 8 ≠ 0 then none
  else if o = 0x000 then some .id
  else if o = 0x008 then some .cmd
  else if o = 0x010 then some .status
  else if 0x020 ≤ o ∧ o < 0x040 then some (.op (Fin.ofNat 4 ((o - 0x020) / 8)))
  else if 0x040 ≤ o ∧ o < 0x060 then some (.res (Fin.ofNat 4 ((o - 0x040) / 8)))
  else if 0x060 ≤ o ∧ o < 0x070 then some (.chr (Fin.ofNat 2 ((o - 0x060) / 8)))
  else if 0x800 ≤ o ∧ o < 0xF98 then some (.coef (Fin.ofNat 243 ((o - 0x800) / 8)))
  else if 0x1000 ≤ o ∧ o < 0x1288 then some (.qg (Fin.ofNat 81 ((o - 0x1000) / 8)))
  else none

/-- What a register reads as; `none` for an unwritten RAM word. Reads have no side effect (spec/20_memory.md R78, R81). -/
def State.readReg (s : State) : Reg → Option Word
  | .id => some idValue
  | .cmd => some 0
  | .status => some s.status.word
  | .op k => some s.op[k]
  | .res k => some s.res[k]
  | .chr k => some (s.chrWord k)
  | .coef n => s.coef n.val
  | .qg n => s.qg n.val

/-- A write of an operand register or word: refused with OVR while BUSY = 1 (spec/20_memory.md R79, spec/44_control.md R265). -/
def State.guarded (s t : State) : State := if s.status.busy then s.refuse else t

/-- A 64-bit host write to a register (spec/20_memory.md R79, R75). -/
def State.writeReg (s : State) (v : Word) : Reg → State
  | .id => s
  | .cmd => s.offer v
  | .status => { s with status := s.status.writeOneToClear v }
  | .op k => s.guarded (s.setOp k v)
  | .res _ => s
  | .chr k => s.guarded (s.setChrWord k v)
  | .coef n => s.guarded (s.setCoef n.val v)
  | .qg _ => s

/-- `MemRead(off, size)` (spec/20_memory.md R73 to R78). -/
def State.memRead (s : State) (off : Offset) (size : Nat) : Except Fault Word :=
  if size ≠ 8 then .error (.busError off size)
  else
    match regAt off with
    | none => .error (.busError off size)
    | some r =>
      match s.readReg r with
      | none => .error (.unwrittenRead off)
      | some v => .ok v

/-- `MemWrite(off, size, v)` (spec/20_memory.md R73 to R77, R79). -/
def State.memWrite (s : State) (off : Offset) (size : Nat) (v : Word) : Except Fault State :=
  if size ≠ 8 then .error (.busError off size)
  else
    match regAt off with
    | none => .error (.busError off size)
    | some r => .ok (s.writeReg v r)

/-- The byte the host finds at window offset `off`: byte `off mod 8` of the register that holds it (spec/20_memory.md R72).
No access of one byte exists (R73); this is the layout alone. -/
def State.windowByte (s : State) (off : Offset) : Option Byte :=
  match regAt (BitVec.ofNat 13 (off.toNat / 8 * 8)) with
  | none => none
  | some r =>
    match s.readReg r with
    | none => none
    | some v => some (byteOf v (off.toNat % 8))

/-- The host byte address of window offset `off` (spec/20_memory.md R70, R72). -/
def busAddress (off : Offset) : Nat := Config.base + off.toNat

/-- The window offset of a host byte address, `none` outside the window (spec/20_memory.md R70). -/
def windowOffset (a : Nat) : Option Offset :=
  if Config.base ≤ a ∧ a < Config.base + windowBytes then some (BitVec.ofNat 13 (a - Config.base)) else none

/-- One move of the host or the platform (spec/44_control.md R269). A read's value goes to `replies`; an access that is a
model fault is recorded and has no other effect (spec/20_memory.md R77). -/
def State.hostMove (s : State) : HostOp → Result
  | .read off size =>
    match s.memRead off size with
    | .ok v => .next { s with replies := (off, v) :: s.replies }
    | .error f => .next (s.record f)
  | .write off size v =>
    match s.memWrite off size v with
    | .ok t => .next t
    | .error f => .next (s.record f)
  | .reset => .next s.resetEvent

end Sys2Proof.Machine
end

