-- ==== Sys2Proof/Machine/Float.lean ====
section
/-!
DEFINITION. IEEE 754 binary64 arithmetic, round to nearest, ties to even, on bit patterns (spec/00_scope.md R8, R9,
R11; spec/92_eei_decisions.md D7). A finite value is a whole number of units of 2^-1074, the least subnormal; every
operation is computed exactly in units and rounded once.
-/

namespace Sys2Proof.Machine

/-- The sign bit. -/
def signOf (u : F64) : Bool := u.msb

/-- The pattern without its sign, bits 62:0: it grows with the magnitude of the value. -/
def magOf (u : F64) : Nat := u.toNat % 2 ^ 63

/-- The sign-free pattern of an infinity. -/
def infMag : Nat := 0x7FF0000000000000

/-- A NaN: exponent all ones, fraction nonzero, either sign, quiet or signalling (spec/41_color.md R168). -/
def isNaN (u : F64) : Bool := forceWord u fun u => decide (infMag < magOf u)

/-- An infinity. -/
def isInf (u : F64) : Bool := decide (magOf u = infMag)

/-- A zero of either sign. -/
def isZero (u : F64) : Bool := decide (magOf u = 0)

/-- The magnitude of a finite value in units of 2^-1074, from its sign-free pattern: exponent field `m / 2^52`, fraction
`m mod 2^52`, subnormal where the exponent field is 0. The infinities' pattern counts as 2^1024. -/
def magUnits (m : Nat) : Nat :=
  if m / 2 ^ 52 = 0 then m % 2 ^ 52 else (2 ^ 52 + m % 2 ^ 52) * 2 ^ (m / 2 ^ 52 - 1)

/-- The magnitude of a finite value in units of 2^-1074. -/
def units (u : F64) : Nat := magUnits (magOf u)

/-- A finite value in units of 2^-1074, with its sign. -/
def signedUnits (u : F64) : Int := if signOf u then -(units u : Int) else (units u : Int)

/-- The pattern with a given sign and sign-free pattern. -/
def withSign (neg : Bool) (mag : Nat) : F64 := BitVec.ofNat 64 (if neg then 2 ^ 63 + mag else mag)

/-- The NaN the operations answer with. Its payload is never observable (spec/93_implementation_defined.md U14). -/
def nanPattern : F64 := 0x7FF8000000000000

/-- `-x`: the sign bit flipped. -/
def fneg (u : F64) : F64 := u ^^^ 0x8000000000000000

/-- `|x|`: the sign bit cleared, exact (spec/43_grid.md R236). -/
def fabs (u : F64) : F64 := BitVec.ofNat 64 (magOf u)

/-- The place of a non-NaN value in the order of values: -0.0 and +0.0 have one place. -/
def orderKey (u : F64) : Int := if signOf u then -(magOf u : Int) else (magOf u : Int)

/-- IEEE `a < b`, false if either is a NaN. -/
def flt (a b : F64) : Bool :=
  forceWord a fun a => forceWord b fun b => !isNaN a && !isNaN b && decide (orderKey a < orderKey b)

/-- IEEE `a <= b`, false if either is a NaN (spec/00_scope.md R8). -/
def fle (a b : F64) : Bool :=
  forceWord a fun a => forceWord b fun b => !isNaN a && !isNaN b && decide (orderKey a ≤ orderKey b)

/-- `floor(log2 n)` for `n < 2 ^ 2 ^ k`, in `k` comparisons. -/
def log2Below : Nat → Nat → Nat
  | 0, _ => 0
  | k + 1, n =>
    if 2 ^ 2 ^ k ≤ n then force (n / 2 ^ 2 ^ k) fun n' => 2 ^ k + log2Below k n' else log2Below k n

/-- The sign-free pattern of the binary64 value nearest to `n / d` units of 2^-1074 (`d > 0`), ties to even: a
significand of 53 bits, or of as many as the subnormal range leaves, and infinity from 2^1024 on. A significand that
rounds up to 2^53 carries into the exponent, and a subnormal one that rounds up to 2^52 is the least normal, because the
patterns of neighbouring values are neighbouring numbers. -/
def roundMag (n d : Nat) : Nat :=
  force n fun n => force d fun d => force (n / d) fun q =>
  if 2 ^ 2098 ≤ q then infMag
  else
    force (log2Below 12 q - 52) fun sh =>
    force (d * 2 ^ sh) fun ulp =>
    force (n / ulp) fun m =>
    force (n % ulp) fun r =>
    min ((if 2 * r < ulp then m else if ulp < 2 * r then m + 1 else m + m % 2) + sh * 2 ^ 52) infMag

/-- The binary64 value of a whole number; exact for the numbers the rules convert (spec/41_color.md R161,
spec/42_quantizers.md R203). -/
def fofNat (n : Nat) : F64 := withSign false (roundMag (n * 2 ^ 1074) 1)

/-- IEEE addition (spec/00_scope.md R8). -/
def fadd (a b : F64) : F64 :=
  forceWord a fun a => forceWord b fun b =>
  if isNaN a || isNaN b then nanPattern
  else if isInf a then (if isInf b && signOf a != signOf b then nanPattern else a)
  else if isInf b then b
  else if signedUnits a + signedUnits b = 0 then
    withSign (signOf a && signOf b) 0
  else
    withSign (decide (signedUnits a + signedUnits b < 0)) (roundMag (signedUnits a + signedUnits b).natAbs 1)

/-- IEEE subtraction: `a + (-b)` (spec/00_scope.md R8). -/
def fsub (a b : F64) : F64 := fadd a (fneg b)

/-- IEEE multiplication (spec/00_scope.md R8). -/
def fmul (a b : F64) : F64 :=
  forceWord a fun a => forceWord b fun b =>
  if isNaN a || isNaN b then nanPattern
  else if isInf a || isInf b then
    (if isZero a || isZero b then nanPattern else withSign (signOf a != signOf b) infMag)
  else withSign (signOf a != signOf b) (roundMag (units a * units b) (2 ^ 1074))

/-- IEEE division (spec/00_scope.md R8). -/
def fdiv (a b : F64) : F64 :=
  forceWord a fun a => forceWord b fun b =>
  if isNaN a || isNaN b then nanPattern
  else if isInf a then (if isInf b then nanPattern else withSign (signOf a != signOf b) infMag)
  else if isInf b then withSign (signOf a != signOf b) 0
  else if isZero b then (if isZero a then nanPattern else withSign (signOf a != signOf b) infMag)
  else withSign (signOf a != signOf b) (roundMag (units a * 2 ^ 1074) (units b))

/-- The greatest integer not above the real value of a finite `t` (spec/00_scope.md R8). -/
def ffloor (t : F64) : Int := forceWord t fun t => signedUnits t / 2 ^ 1074

/-- `clampi(t, lo, hi)` for a non-NaN `t` (spec/00_scope.md R8). -/
def clampi (t : F64) (lo hi : Int) : Int :=
  forceWord t fun t =>
  if isInf t then (if signOf t then lo else hi) else max lo (min hi (ffloor t))

end Sys2Proof.Machine
end

