-- ==== Sys2Proof/Machine/Power.lean ====
section
/-!
DEFINITION. `powcr`, the correctly rounded power (spec/00_scope.md R8), and the integer square roots it stands on.

The exponent of a binary64 is a dyadic fraction p / 2^t in lowest terms. `powExact` is the clear definition: it compares
a^p with the 2^t-th powers of the halfway points between neighbouring binary64 values, all whole numbers. Those numbers
are out of reach of any evaluation, so `powcr` first brackets the power: `a^(p/2^t)` is reached from 1 by t steps
"multiply by a or by 1, take the square root", one for each binary digit of the fraction of the exponent, the least digit
first, times a whole power of `a`. Where both ends of the bracket round to the same binary64, that is the correctly
rounded power; where they do not, the steps are done again with twice the digits, and `powExact` stands behind the last
attempt. A bracket of exact squares stays exact, so a power that lies halfway between two binary64 values is rounded
exactly too, ties to even.
-/

namespace Sys2Proof.Machine

/-- Newton's steps from `x` down to the integer square root of `n`, at most `fuel` of them. -/
def newton (n : Nat) : Nat → Nat → Nat
  | 0, x => x
  | fuel + 1, x => force ((x + n / x) / 2) fun y => if y < x then newton n fuel y else x

/-- The greatest number whose square is at most `n`, found from the guess `g`. -/
def isqrtFrom (g n : Nat) : Nat :=
  force (g + 1) fun g => force ((g + n / g) / 2 + 1) fun x => newton n x x

/-- The least number whose square is at least `n`, found from the guess `g`. -/
def csqrtFrom (g n : Nat) : Nat :=
  force (isqrtFrom g n) fun r => if r * r = n then r else r + 1

/-- What the steps are done with: `w` digits, and `a = sig * 2^(ea - bias)`. -/
structure PowCtx where
  w : Nat
  bias : Nat
  sig : Nat
  ea : Nat
  deriving DecidableEq, Repr

/-- A bracket: the value lies between `lo * 2^(z - bias)` and `hi * 2^(z - bias)`. -/
structure Bracket where
  lo : Nat
  hi : Nat
  z : Nat
  deriving DecidableEq, Repr

/-- `t` steps over the lowest `t` binary digits of `f`, the least digit first: a bracket of `y` becomes one of
`sqrt(y * a)` where the digit is 1 and of `sqrt(y)` where it is 0. -/
def powSteps (c : PowCtx) : Nat → Nat → Bracket → Bracket
  | 0, _, b => b
  | t + 1, f, b =>
    force (b.z + (if f % 2 = 1 then c.ea else c.bias - 52) - (c.w - 52)) fun e =>
    force ((if f % 2 = 1 then c.sig else 2 ^ 52) * 2 ^ (c.w - 52 + e % 2)) fun k =>
    force (b.lo * k) fun nl => force (b.hi * k) fun nh =>
    force (isqrtFrom (2 ^ (c.w + 1)) nl) fun lo => force (csqrtFrom lo nh) fun hi =>
    force (f / 2) fun f => force (e / 2) fun z => powSteps c t f { lo, hi, z }

/-- The steps' context for a magnitude of `u` units and `w` digits: the significand is brought to 53 bits. -/
def powCtx (u w : Nat) : PowCtx :=
  force (log2Below 12 u) fun l => force (u * 2 ^ 52 / 2 ^ l) fun sig => force (2048 + 2 * w + l - 1126) fun ea =>
  force (2048 + 2 * w) fun bias => { w, bias, sig, ea }

/-- The bracket of `a^(frac(p / 2^t))` at `w` digits, from the exact bracket of 1. -/
def powBracket (u p t w : Nat) : Bracket :=
  powSteps (powCtx u w) t p { lo := 2 ^ w, hi := 2 ^ w, z := 2048 + w }

/-- One end `y * 2^(z - bias)` of the bracket times `a^floor(p / 2^t)`, rounded. -/
def powRound (u p t w : Nat) (y z : Nat) : Nat :=
  force (p / 2 ^ t) fun i =>
  roundMag (u ^ i * y * 2 ^ (z + 1074)) (2 ^ (2048 + 2 * w + 1074 * i))

/-- The halfway point between the sign-free patterns `m - 1` and `m`, in units of 2^-1075. -/
def halfBelow (m : Nat) : Nat := magUnits (m - 1) + magUnits m

/-- Whether `a^(p/2^t)`, `a` of `u` units, rounds to pattern `m` or above: it lies above the halfway point below `m`, or on
it with `m` even. Both sides are raised to the power 2^t. -/
def powReaches (u p t m : Nat) : Bool :=
  decide (halfBelow m ^ 2 ^ t * 2 ^ (1074 * p) < u ^ p * 2 ^ (1075 * 2 ^ t)) ||
    (decide (halfBelow m ^ 2 ^ t * 2 ^ (1074 * p) = u ^ p * 2 ^ (1075 * 2 ^ t)) && decide (m % 2 = 0))

/-- The greatest pattern from `m` up to `m + 2^k - 1` that the power reaches, `m` being reached. -/
def powDescend (u p t : Nat) : Nat → Nat → Nat
  | 0, m => m
  | k + 1, m =>
    if m + 2 ^ k ≤ infMag ∧ powReaches u p t (m + 2 ^ k) then powDescend u p t k (m + 2 ^ k)
    else powDescend u p t k m

/-- The sign-free pattern nearest to `a^(p/2^t)`, ties to even, by exact comparison (spec/00_scope.md R8). -/
def powExact (u p t : Nat) : Nat := powDescend u p t 63 0

/-- The rounded power, at `w` digits if both ends of the bracket round alike, else at twice the digits, and by exact
comparison after the last attempt. -/
def powSearch (u p t : Nat) : Nat → Nat → Nat
  | 0, _ => powExact u p t
  | attempts + 1, w =>
    match powBracket u p t w with
    | { lo, hi, z } =>
      force (powRound u p t w lo z) fun rl =>
      force (powRound u p t w hi z) fun rh =>
      if rl = rh then rl else force (2 * w) fun w => powSearch u p t attempts w

/-- How many brackets are tried, from 128 digits on. -/
def powAttempts : Nat := 8

/-- `powcr(a, e)` for finite `a > 0` and finite `e > 0`: the binary64 value nearest to the real `a^e`, ties to even
(spec/00_scope.md R8). `e` is `p / 2^t` in lowest terms. -/
def powcr (a e : F64) : F64 :=
  forceWord a fun a => forceWord e fun e =>
  force (units a) fun u => force (units e) fun ue =>
  force (Nat.gcd ue (2 ^ 1074)) fun g =>
  force (ue / g) fun p => force (log2Below 12 (2 ^ 1074 / g)) fun t =>
  BitVec.ofNat 64 (powSearch u p t powAttempts 128)

end Sys2Proof.Machine
end

