-- ==== Sys2Proof/Machine/Operands.lean ====
section
/-!
DEFINITION. The operand forms of the commands (spec/10_state.md R51): OP0 as an unsigned number, OP0[7:0] as a byte,
OP0..OP3 as binary64 values with the NaN check in index order, the first LEN bytes of CHR, the first words of COEF.
-/

namespace Sys2Proof.Machine

/-- OP0 as an unsigned 64-bit integer (spec/40_base83.md R133). -/
def State.opNat (s : State) : Nat := s.op[0].toNat

/-- OP0[7:0] as an unsigned byte; OP0[63:8] are ignored (spec/41_color.md R164). -/
def State.opByte (s : State) : Nat := (s.op[0].extractLsb' 0 8).toNat

/-- OP[k] as the pattern of a binary64 value (spec/10_state.md R50). -/
def State.opFloat (s : State) (k : Fin 4) : F64 := s.op[k]

/-- CHR[0..len-1], the most significant digit first (spec/40_base83.md R132, R135). -/
def State.chrField (s : State) (len : Nat) : List Byte := s.chr.toList.take len

/-- The index of the first NaN in a list whose first entry has index `k` (spec/60_exceptions.md R273, R274). -/
def firstNaN : List F64 → Nat → Option Nat
  | [], _ => none
  | u :: us, k => if isNaN u then some k else firstNaN us (k + 1)

/-- COEF[n], COEF[n+1], ..., `count` words of them, or `none` if one is unwritten (spec/43_grid.md R231, R233). -/
def coefWords (m : Mem) (n : Nat) : Nat → Option (List Word)
  | 0 => some []
  | count + 1 =>
    force (coefOffset n) fun a =>
    match readWord m a with
    | none => none
    | some v =>
      forceWord v fun v =>
      match coefWords (memFrom m a) (n + 1) count with
      | none => none
      | some vs => some (v :: vs)

/-- A command that may raise NaNOperand: the first NaN among its operands raises `Err(6, index)`, otherwise it goes on
(spec/60_exceptions.md R273, R274). -/
def State.unlessNaN (s : State) (operands : List F64) (go : Result) : Result :=
  match firstNaN operands 0 with
  | some k => .next (s.raiseErr .nanOperand k)
  | none => go

end Sys2Proof.Machine
end

