-- ==== Sys2Proof/Machine/Base83.lean ====
section
/-!
DEFINITION. The base-83 units: B83ENC and B83DEC (spec/40_base83.md R130 to R137).
-/

namespace Sys2Proof.Machine

/-- `ALPHA[d]`, the ASCII code of a digit 0..82 (spec/40_base83.md R130). -/
def alpha (d : Nat) : Byte := alphabet.getD d 0

/-- `idx83(b)`: the digit whose ASCII code is exactly `b`, if any (spec/40_base83.md R131). -/
def idx83 (b : Byte) : Option Nat := alphabet.findIdx? (fun c => c == b)

/-- Digit `k` of `v` in a field of `len` digits, the most significant one first (spec/40_base83.md R133). -/
def digit83 (v len k : Nat) : Nat := v / 83 ^ (len - 1 - k) % 83

/-- CHR[k] <- the character of digit `k` of `v` for `k < len`; CHR[len..15] unchanged (spec/40_base83.md R133). -/
def State.setField (s : State) (len v : Nat) : State :=
  { s with chr := Vector.ofFn fun k => if k.val < len then alpha (digit83 v len k.val) else s.chr[k] }

/-- The number a field of characters stands for, after `value` from the characters before it; the error is the position
of the first byte that is no digit (spec/40_base83.md R136). -/
def value83 : List Byte → Nat → Nat → Except Nat Nat
  | [], _, value => .ok value
  | b :: bs, k, value =>
    match idx83 b with
    | none => .error k
    | some d => force (value * 83 + d) fun value => value83 bs (k + 1) value

/-- LEN is legal: 1..10 (spec/30_encoding.md R105). -/
def lenLegal (len : Nat) : Bool := decide (1 ≤ len ∧ len ≤ maxLen)

/-- B83ENC (spec/40_base83.md R133): the digits of OP0 mod 83^len into CHR[0..len-1]; an illegal LEN is IllegalCommand
(spec/30_encoding.md R105). -/
def execB83enc (len : BitVec 4) (s : State) : Result :=
  if lenLegal len.toNat then
    force (s.opNat % 83 ^ len.toNat) fun v => .next (s.setField len.toNat v).succeed
  else .next (s.raiseErr .illegalCommand 0)

/-- B83DEC (spec/40_base83.md R136): RES0 <- the value of CHR[0..len-1]; the first byte outside the alphabet raises
InvalidCharacter with its position; an illegal LEN is IllegalCommand (spec/30_encoding.md R105). -/
def execB83dec (len : BitVec 4) (s : State) : Result :=
  if lenLegal len.toNat then
    match value83 (s.chrField len.toNat) 0 0 with
    | .error k => .next (s.raiseErr .invalidCharacter k)
    | .ok v => .next (s.setRes 0 (BitVec.ofNat 64 v)).succeed
  else .next (s.raiseErr .illegalCommand 0)

end Sys2Proof.Machine
end

