-- ==== Sys2Proof/Machine/Control.lean ====
section
/-!
DEFINITION. NOP (spec/44_control.md R260).
-/

namespace Sys2Proof.Machine

/-- NOP: no register, CHR, RES or QG word changes; DONE <- 1, BUSY <- 0 (spec/44_control.md R260). -/
def execNop (s : State) : Result := .next s.succeed

end Sys2Proof.Machine
end

