-- ==== Sys2Proof/Machine/Color.lean ====
section
/-!
DEFINITION. The colour units: S2L, L2S and the signed powers SPOWH, SPOWG, SPOWS (spec/41_color.md R160 to R175). The
tables of R163 and R167 are derived from R161 and R165, which govern; the model computes the rules.
-/

namespace Sys2Proof.Machine

/-- `S2LF(b)` for `b` in 0..255 (spec/41_color.md R161). -/
def s2lf (b : Nat) : F64 :=
  forceWord (fdiv (fofNat b) k255) fun c =>
  if fle c kSrgbT then fdiv c k12_92
  else powcr (fdiv (fadd c k0_055) k1_055) k2_4

/-- The clamp to [0, 1] before conversion; -0.0 stays -0.0 (spec/41_color.md R165). -/
def clampUnit (v : F64) : F64 := if flt v k0 then k0 else if flt k1 v then k1 else v

/-- The scaled value `s` that L2SF rounds, for `u` in [0, 1] (spec/41_color.md R165). -/
def srgbScaled (u : F64) : F64 :=
  if fle u kLinT then fmul (fmul u k12_92) k255
  else fmul (fsub (fmul k1_055 (powcr u kInv2_4)) k0_055) k255

/-- `L2SF(v)` for a non-NaN `v`, an integer in 0..255 (spec/41_color.md R165). -/
def l2sf (v : F64) : Nat :=
  forceWord (clampUnit v) fun u => (ffloor (fadd (srgbScaled u) kHalf)).toNat

/-- `SP(v, e)` for a non-NaN `v`: zeros and infinities as they are, otherwise the power of the magnitude with the sign of
`v` (spec/41_color.md R169). -/
def signedPow (v e : F64) : F64 :=
  forceWord v fun v =>
  if isZero v || isInf v then v
  else if signOf v then fneg (powcr (fneg v) e)
  else powcr v e

/-- S2L: RES0 <- S2LF(OP0[7:0]) (spec/41_color.md R164). -/
def execS2l (s : State) : Result := .next (s.setRes 0 (s2lf s.opByte)).succeed

/-- L2S: RES0 <- L2SF(OP0); a NaN raises Err(6, 0) (spec/41_color.md R168). -/
def execL2s (s : State) : Result :=
  s.unlessNaN [s.opFloat 0] (.next (s.setRes 0 (BitVec.ofNat 64 (l2sf (s.opFloat 0)))).succeed)

/-- The shared shape of the three signed powers: RES0 <- SP(OP0, e); a NaN raises Err(6, 0) (spec/41_color.md R171). -/
def State.commitPow (s : State) (e : F64) : Result :=
  s.unlessNaN [s.opFloat 0] (.next (s.setRes 0 (signedPow (s.opFloat 0) e)).succeed)

/-- SPOWH: exponent 0.5 (spec/41_color.md R173). -/
def execSpowh (s : State) : Result := s.commitPow kHalf

/-- SPOWG: exponent fdiv(1.0, 2.2) (spec/41_color.md R174). -/
def execSpowg (s : State) : Result := s.commitPow kInv2_2

/-- SPOWS: exponent 2.0 (spec/41_color.md R175). -/
def execSpows (s : State) : Result := s.commitPow k2

end Sys2Proof.Machine
end

