-- ==== Sys2Proof/Machine/Quantizers.lean ====
section
/-!
DEFINITION. The quantizers: DCQ, AMAXQ and ACQ (spec/42_quantizers.md R200 to R208).
-/

namespace Sys2Proof.Machine

/-- `DCF(r, g, b)` for three non-NaN values: R in bits 23:16, G in 15:8, B in 7:0 (spec/42_quantizers.md R200, R201). -/
def dcf (r g b : F64) : Nat := l2sf r * 65536 + l2sf g * 256 + l2sf b

/-- The `q` of `AMAXF(m)` for a non-NaN `m`: 0 for a zero, else clamp(floor(SP(m / 1.0, 0.5) * 166 - 0.5), 0, 82)
(spec/42_quantizers.md R203). -/
def amaxQuant (m : F64) : Nat :=
  forceWord m fun m =>
  if isZero m then 0
  else (clampi (fsub (fmul (signedPow (fdiv m k1) kHalf) k166) kHalf) 0 82).toNat

/-- The `mv` of `AMAXF(m)` for its `q`: fdiv(q + 1, 166) (spec/42_quantizers.md R203). -/
def maxValueOf (q : Nat) : F64 := fdiv (fofNat (q + 1)) k166

/-- The bin of a non-NaN quotient `t1`: clamp(floor(SP(t1, 1/2.2) * 9 + 9.5), 0, 18) (spec/42_quantizers.md R206). -/
def acBin (t1 : F64) : Nat := (clampi (fadd (fmul (signedPow t1 kInv2_2) k9) k9_5) 0 18).toNat

/-- `ACF1(c, mv)`, `none` where the quotient is a NaN (spec/42_quantizers.md R206). -/
def acf1 (c mv : F64) : Option Nat :=
  forceWord (fdiv c mv) fun t1 => if isNaN t1 then none else some (acBin t1)

/-- The packed AC value of three bins (spec/42_quantizers.md R206). -/
def packAc (qr qg qb : Nat) : Nat := qr * 361 + qg * 19 + qb

/-- DCQ: RES0 <- DCF(OP0, OP1, OP2); the first NaN raises Err(6, k) (spec/42_quantizers.md R202). -/
def execDcq (s : State) : Result :=
  s.unlessNaN [s.opFloat 0, s.opFloat 1, s.opFloat 2]
    (.next (s.setRes 0 (BitVec.ofNat 64 (dcf (s.opFloat 0) (s.opFloat 1) (s.opFloat 2)))).succeed)

/-- AMAXQ: RES0 <- q, RES1 <- mv of OP0; a NaN raises Err(6, 0) (spec/42_quantizers.md R205). -/
def execAmaxq (s : State) : Result :=
  s.unlessNaN [s.opFloat 0]
    (force (amaxQuant (s.opFloat 0)) fun q =>
      .next ((s.setRes 0 (BitVec.ofNat 64 q)).setRes 1 (maxValueOf q)).succeed)

/-- ACQ: RES0 <- the packed bins of OP0..OP2 against OP3; the first NaN operand raises Err(6, 0..3), else the first NaN
quotient raises Err(6, 4 + channel) (spec/42_quantizers.md R208). -/
def execAcq (s : State) : Result :=
  s.unlessNaN [s.opFloat 0, s.opFloat 1, s.opFloat 2, s.opFloat 3]
    (match acf1 (s.opFloat 0) (s.opFloat 3) with
    | none => .next (s.raiseErr .nanOperand 4)
    | some qr =>
      match acf1 (s.opFloat 1) (s.opFloat 3) with
      | none => .next (s.raiseErr .nanOperand 5)
      | some qg =>
        match acf1 (s.opFloat 2) (s.opFloat 3) with
        | none => .next (s.raiseErr .nanOperand 6)
        | some qb => .next (s.setRes 0 (BitVec.ofNat 64 (packAc qr qg qb))).succeed)

end Sys2Proof.Machine
end

