-- ==== Sys2Proof/Machine/Grid.lean ====
section
/-!
DEFINITION. The coefficient grid quantizer: GRIDQ (spec/43_grid.md R230 to R240).
-/

namespace Sys2Proof.Machine

/-- A component count is valid: 1..9 (spec/43_grid.md R232). -/
def countLegal (c : Nat) : Bool := decide (1 ≤ c ∧ c ≤ countMax)

/-- `SF(cx, cy)`, the size flag (spec/43_grid.md R235). -/
def sizeFlag (cx cy : Nat) : Nat := (cx - 1) + (cy - 1) * 9

/-- The scan of R236: the largest magnitude of the listed words, or `m` if none is larger (spec/43_grid.md R236, R237). -/
def maxMagnitude : List F64 → F64 → F64
  | [], m => m
  | u :: us, m =>
    forceWord (if flt m (fabs u) then fabs u else m) fun m => maxMagnitude us m

/-- The packed AC values of the channel words, three to a coefficient (spec/43_grid.md R231, R236). Every quotient here
is a number: `mv` is in [1/166, 0.5] and no channel is a NaN (R236), so the bin needs no NaN check. -/
def acValues (mv : F64) : List F64 → List Nat
  | r :: g :: b :: us =>
    force (packAc (acBin (fdiv r mv)) (acBin (fdiv g mv)) (acBin (fdiv b mv))) fun v => v :: acValues mv us
  | _ => []

/-- The packed DC value of the first coefficient (spec/43_grid.md R236). -/
def dcValue : List F64 → Nat
  | r :: g :: b :: _ => dcf r g b
  | _ => 0

/-- GRIDQ's results on the channel words `ws` of a NaN-free grid (spec/43_grid.md R236). -/
def State.commitGrid (s : State) (cx cy : Nat) (ws : List F64) : State :=
  forceWord (maxMagnitude (ws.drop 3) k0) fun m =>
  force (amaxQuant m) fun q =>
  forceWord (maxValueOf q) fun mv =>
  { s with
    mem := writeQg s.mem 0 (force (dcValue ws) fun dc => dc :: acValues mv (ws.drop 3))
    res := ((((s.setRes 0 (BitVec.ofNat 64 (sizeFlag cx cy))).setRes 1 (BitVec.ofNat 64 q)).setRes 2 mv).setRes 3 m).res }

/-- GRIDQ (spec/43_grid.md R236): the count check (R232), the unwritten-operand check (R233), the NaN check (R234), then
all results at once. -/
def execGridq (cx cy : BitVec 4) (s : State) : Result :=
  if !countLegal cx.toNat then .next (s.raiseErr .invalidComponents 0)
  else if !countLegal cy.toNat then .next (s.raiseErr .invalidComponents 1)
  else
    match coefWords s.mem 0 (3 * (cx.toNat * cy.toNat)) with
    | none => .fault .unwrittenOperand
    | some ws => s.unlessNaN ws (.next (s.commitGrid cx.toNat cy.toNat ws).succeed)

end Sys2Proof.Machine
end

