-- ==== Sys2Proof/Machine/Dispatch.lean ====
section
/-!
DEFINITION. exec: one arm per command of spec/30_encoding.md R104. What a command does at its completion, its operands
read from the state (spec/44_control.md R262).
-/

namespace Sys2Proof.Machine

def exec (i : Instr) (s : State) : Host.Outcome State Fault Refusal :=
  match i with
  | .nop => Sys2Proof.Machine.execNop s
  | .b83enc len => Sys2Proof.Machine.execB83enc len s
  | .b83dec len => Sys2Proof.Machine.execB83dec len s
  | .s2l => Sys2Proof.Machine.execS2l s
  | .l2s => Sys2Proof.Machine.execL2s s
  | .spowh => Sys2Proof.Machine.execSpowh s
  | .spowg => Sys2Proof.Machine.execSpowg s
  | .spows => Sys2Proof.Machine.execSpows s
  | .dcq => Sys2Proof.Machine.execDcq s
  | .amaxq => Sys2Proof.Machine.execAmaxq s
  | .acq => Sys2Proof.Machine.execAcq s
  | .gridq cx cy => Sys2Proof.Machine.execGridq cx cy s

end Sys2Proof.Machine
end

