-- ==== Sys2Proof/Machine/Block.lean ====
section
/-!
DEFINITION. The block's own step, completion (spec/44_control.md R262, R268).
-/

namespace Sys2Proof.Machine

/-- What completes the command word `w`: a word that decodes runs its command, any other raises IllegalCommand
(spec/44_control.md R262, spec/30_encoding.md R105). -/
def State.complete (s : State) (w : Word) : Result :=
  match decode w with
  | .ok i => exec i s
  | .error _ => .next (s.raiseErr .illegalCommand 0)

/-- The block's move: completion while PEND holds a word, nothing otherwise (spec/44_control.md R268). -/
def State.blockMove (s : State) : Result :=
  match s.pend with
  | none => .next s
  | some w => s.complete w

end Sys2Proof.Machine
end

