-- ==== Sys2Proof/Machine/Step.lean ====
section
/-!
DEFINITION. One step of the machine: the next move of `turns`. Where no move is left, the host has nothing more to send
and the block, which completes every accepted command after finitely many moves (spec/44_control.md R268), takes its
completion step if it has one.
-/

namespace Sys2Proof.Machine

/-- One step: the host's access or the block's completion, whichever `turns` puts next (spec/20_memory.md R80, R82;
spec/44_control.md R268). -/
def step (s : State) : Host.Outcome State Fault Refusal :=
  match s.turns with
  | [] => s.blockMove
  | .block :: ts => State.blockMove { s with turns := ts }
  | .host a :: ts => State.hostMove { s with turns := ts } a

/-- `s` with the command word `w` accepted (spec/44_control.md R261: the only way a word comes to PEND) and the block's
completion of it as the next move. -/
def State.withFetchWord (s : State) (nbits w : Nat) : State :=
  { s.accept (BitVec.ofNat 64 (w % 2 ^ nbits)) with turns := .block :: s.turns }

end Sys2Proof.Machine
end

