-- ==== Sys2Proof/Safety.lean ====
section
/-!
DEFINITION. The terms the statements use: the real value of a binary64 pattern and "the nearest binary64"
(spec/00_scope.md R8), what every completion leaves as it was, a successful completion and one with an error
(spec/44_control.md R262, R263, spec/60_exceptions.md R272), and the invariants of the block's state.
-/

namespace Sys2Proof.Machine

/-! ### Values -/

/-- A pattern of a finite binary64: no infinity, no NaN. -/
abbrev IsFinite (u : F64) : Prop := magOf u < infMag

/-- The value of a finite pattern (spec/00_scope.md R8, `f64`). -/
def valueOf (u : F64) : ℚ := (signedUnits u : ℚ) / 2 ^ 1074

/-- The pattern `u` is the binary64 nearest to the real `y`, ties to even (spec/00_scope.md R8): an infinity of the sign
of `y` from the halfway point above the largest finite value on; else a finite value such that no other is nearer, with
an even significand if another is as near. The sign of a zero is not part of this. -/
def NearestTo (y : ℝ) (u : F64) : Prop :=
  (isInf u = true ∧ 2 ^ 1024 - 2 ^ 970 ≤ |y| ∧ (signOf u = true ↔ y < 0)) ∨
    (IsFinite u ∧ |y| < 2 ^ 1024 - 2 ^ 970 ∧
      ∀ v, IsFinite v → |y - (valueOf u : ℝ)| < |y - (valueOf v : ℝ)| ∨
        (|y - (valueOf u : ℝ)| = |y - (valueOf v : ℝ)| ∧ (valueOf v = valueOf u ∨ magOf u % 2 = 0)))

/-! ### Completions -/

/-- What every completion, with or without an error, does and leaves: BUSY 0, DONE 1, PEND empty; the operand registers,
OVR, LASTOP, every byte outside the QG words and the recorded model faults as before (spec/44_control.md R262;
spec/10_state.md R37, R38, R41, R45; spec/60_exceptions.md R270). -/
structure Settled (s t : State) : Prop where
  busy : t.status.busy = false
  done : t.status.done = true
  pend : t.pend = none
  ovr : t.status.ovr = s.status.ovr
  lastop : t.status.lastop = s.status.lastop
  op : t.op = s.op
  bytes : ∀ a, a < qgOffset 0 ∨ qgOffset nQg ≤ a → memGet t.mem a = memGet s.mem a
  faults : t.faults = s.faults

/-- Every byte of the RAMs reads as before. -/
def SameBytes (s t : State) : Prop := ∀ a, memGet t.mem a = memGet s.mem a

/-- Every RES register but the listed ones holds its old value. -/
def KeepsRes (s t : State) (written : List (Fin 4)) : Prop := ∀ k : Fin 4, k ∉ written → t.res[k] = s.res[k]

/-- A completion without an error: ERR, ERRCODE and ERRIDX stay (spec/44_control.md R262). -/
structure Succeeds (s t : State) : Prop where
  settled : Settled s t
  err : t.status.err = s.status.err
  errcode : t.status.errcode = s.status.errcode
  erridx : t.status.erridx = s.status.erridx

/-- A completion with `Err(code, idx)`: the report, and no result (spec/60_exceptions.md R272). -/
structure Fails (s t : State) (code idx : Nat) : Prop where
  settled : Settled s t
  err : t.status.err = true
  errcode : t.status.errcode.toNat = code
  erridx : t.status.erridx.toNat = idx
  res : t.res = s.res
  chr : t.chr = s.chr
  mem : SameBytes s t

/-! ### What a command reads and writes -/

/-- The RES registers a command writes on success (spec/10_state.md R51). -/
def writtenRes : Instr → List (Fin 4)
  | .nop => []
  | .b83enc _ => []
  | .b83dec _ => [0]
  | .s2l => [0]
  | .l2s => [0]
  | .spowh => [0]
  | .spowg => [0]
  | .spows => [0]
  | .dcq => [0]
  | .amaxq => [0, 1]
  | .acq => [0]
  | .gridq _ _ => [0, 1, 2, 3]

/-- How many CHR bytes a command writes on success, from CHR[0] on (spec/10_state.md R51). -/
def writtenChr : Instr → Nat
  | .b83enc len => len.toNat
  | .nop | .b83dec _ | .s2l | .l2s | .spowh | .spowg | .spows | .dcq | .amaxq | .acq | .gridq _ _ => 0

/-- How many QG words a command writes on success, from QG[0] on (spec/10_state.md R51). -/
def writtenQg : Instr → Nat
  | .gridq cx cy => cx.toNat * cy.toNat
  | .nop | .b83enc _ | .b83dec _ | .s2l | .l2s | .spowh | .spowg | .spows | .dcq | .amaxq | .acq => 0

/-- The two states agree on what a command reads (spec/10_state.md R51). -/
def sameOperands (s s' : State) : Instr → Prop
  | .nop => True
  | .b83enc _ => s.op[0] = s'.op[0]
  | .b83dec len => ∀ k, ∀ _ : k < 16, k < len.toNat → s.chr[k] = s'.chr[k]
  | .s2l => s.op[0].toNat % 256 = s'.op[0].toNat % 256
  | .l2s => s.op[0] = s'.op[0]
  | .spowh => s.op[0] = s'.op[0]
  | .spowg => s.op[0] = s'.op[0]
  | .spows => s.op[0] = s'.op[0]
  | .dcq => s.op[0] = s'.op[0] ∧ s.op[1] = s'.op[1] ∧ s.op[2] = s'.op[2]
  | .amaxq => s.op[0] = s'.op[0]
  | .acq => s.op = s'.op
  | .gridq cx cy => ∀ k < 3 * (cx.toNat * cy.toNat), s.coef k = s'.coef k

/-! ### Invariants -/

/-- The address of a RAM byte: one of COEF or of QG (spec/20_memory.md R71). -/
abbrev IsRam (a : Nat) : Prop := (0x800 ≤ a ∧ a < 0xF98) ∨ (0x1000 ≤ a ∧ a < 0x1288)

/-- What holds of every state the block can be in. -/
structure Inv (s : State) : Prop where
  /-- the memory has its canonical form -/
  ordered : memWf s.mem
  /-- only RAM bytes are listed (spec/10_state.md R30) -/
  ram : ∀ c ∈ s.mem, IsRam c.1
  /-- a word is written whole (spec/20_memory.md R73, R80) -/
  whole : ∀ c ∈ s.mem, ∀ b < 8, (memGet s.mem (c.1 / 8 * 8 + b)).isSome = true
  /-- BUSY = 1 exactly while PEND holds a command (spec/10_state.md R34) -/
  busyPend : s.status.busy = s.pend.isSome
  /-- DONE and ERR are 0 from acceptance to completion (spec/10_state.md R35, R36) -/
  quiet : s.status.busy = true → s.status.done = false ∧ s.status.err = false
  /-- no error, no code and no index (spec/10_state.md R36, R38) -/
  noErr : s.status.err = false → s.status.errcode = 0 ∧ s.status.erridx = 0
  /-- an error has one of the codes 1, 2, 5, 6 (spec/10_state.md R33, spec/60_exceptions.md R271) -/
  code : s.status.err = true → s.status.errcode.toNat ∈ [1, 2, 5, 6]
  /-- ERRIDX is in 0..242 (spec/10_state.md R33) -/
  index : s.status.erridx.toNat ≤ 242
  /-- LASTOP holds the low byte of the pending word (spec/10_state.md R38) -/
  lastop : ∀ w, s.pend = some w → s.status.lastop = w.extractLsb' 0 8

/-- The ranges of the quantized grid: QG[0] has 24 bits, QG[n] for n >= 1 is in 0..6858 (spec/10_state.md R46). -/
def QgRange (s : State) : Prop :=
  ∀ n v, n < nQg → s.qg n = some v → (n = 0 → v.toNat < 2 ^ 24) ∧ (n ≠ 0 → v.toNat ≤ 6858)

/-- The next state, where there is one. -/
def nextState : Result → Option State
  | .next t => some t
  | .fault _ => none
  | .refused _ => none

end Sys2Proof.Machine
end

