-- ==== Sys2Proof/Certificates/Slice0/Obligations.lean ====
section
/-!
DEFINITION. The statements for the provers, in the order: reset and the step, encoding, the host's accesses, acceptance
and completion, each command, binary64. A docstring cites the rules a statement formalises.
-/

open Sys2Proof Sys2Proof.Machine

/-! ### Reset and the step -/

/-- R49: what the registers read after reset; R304: no model fault is recorded. -/
def Obligations.ResetValues : Prop :=
  State.reset.memRead 0x000 8 = .ok 0x4248514100070001 ∧
    State.reset.status = { busy := false, done := false, err := false, ovr := false, errcode := 0, erridx := 0, lastop := 0 } ∧
    State.reset.memRead 0x010 8 = .ok 0 ∧
    (∀ k : Fin 4, State.reset.op[k] = 0 ∧ State.reset.res[k] = 0) ∧
    (∀ k : Fin 16, State.reset.chr[k] = 0) ∧
    State.reset.pend = none ∧ State.reset.faults = [] ∧
    (∀ n < 243, State.reset.coef n = none) ∧ ∀ n < 81, State.reset.qg n = none

/-- R300: the reset event, from every state; a recorded model fault stays recorded. That the model's own `turns` and `replies` stay is the model's choice (log
entries 1 and 2). -/
def Obligations.ResetEvent : Prop :=
  ∀ s : State, ∃ t, s.hostMove .reset = .next t ∧ t.pend = none ∧
    t.status = { busy := false, done := false, err := false, ovr := false, errcode := 0, erridx := 0, lastop := 0 } ∧
    (∀ k : Fin 4, t.op[k] = 0 ∧ t.res[k] = 0) ∧ (∀ k : Fin 16, t.chr[k] = 0) ∧ (∀ a, memGet t.mem a = none) ∧
    t.faults = s.faults ∧ t.turns = s.turns ∧ t.replies = s.replies

/-- A step runs the decoded command; with a host move next it is that move, and without a pending command the block's move
changes nothing but the moves still to come (R262, R268; `turns` is the model's own, log entry 1). -/
def Obligations.StepRunsDecodedCommand : Prop :=
  (∀ (s : State) (w : Word) (i : Instr) (ts : List Turn), s.pend = some w → decode w = .ok i → s.turns = .block :: ts →
      step s = exec i { s with turns := ts }) ∧
    (∀ (s : State) (w : Word) (i : Instr), s.pend = some w → decode w = .ok i → s.turns = [] → step s = exec i s) ∧
    (∀ (s : State) (a : HostOp) (ts : List Turn), s.turns = .host a :: ts →
      step s = State.hostMove { s with turns := ts } a) ∧
    ∀ (s : State) (ts : List Turn), s.pend = none → s.turns = .block :: ts → step s = .next { s with turns := ts }

/-- The invariant of the block's state, `Inv`, is kept by every step from every state that has it (R30, R33 to R38, R73,
R80, R271, R273), and every step keeps the recorded model faults, at most with one new (R270). -/
def Obligations.StepKeepsInv : Prop :=
  (∀ s t : State, Inv s → step s = .next t → Inv t) ∧
    ∀ s t : State, step s = .next t → t.faults = s.faults ∨ ∃ f, t.faults = f :: s.faults

/-- The ranges of the quantized grid are kept by every step (R46, R201, R206). -/
def Obligations.StepKeepsQgRange : Prop := ∀ s t : State, QgRange s → step s = .next t → QgRange t

/-- Both invariants hold at reset. -/
def Obligations.ResetMeetsInvariants : Prop := Inv State.reset ∧ QgRange State.reset

/-! ### Encoding -/

/-- Decoding and encoding are inverse to each other on every command and every word that decodes (R101 to R104). -/
def Obligations.DecodeIffEncode : Prop := ∀ (w : Word) (i : Instr), decode w = .ok i ↔ encode i = w

/-- R105, with `w[7:0]`, `w[11:8]`, `w[63:8]`, `w[63:12]` and `w[63:16]` written as quotients and remainders. -/
def Obligations.IllegalWordReported : Prop :=
  ∀ (s : State) (w : Word),
    ¬((w.toNat % 256 ∈ [0x00, 0x10, 0x11, 0x20, 0x21, 0x22, 0x30, 0x31, 0x32] ∧ w.toNat / 2 ^ 8 = 0) ∨
        (w.toNat % 256 ∈ [0x01, 0x02] ∧ w.toNat / 2 ^ 12 = 0 ∧ 1 ≤ w.toNat / 2 ^ 8 % 16 ∧ w.toNat / 2 ^ 8 % 16 ≤ 10) ∨
        (w.toNat % 256 = 0x40 ∧ w.toNat / 2 ^ 16 = 0)) →
      ∃ t, s.complete w = .next t ∧ Fails s t 5 0

/-- The words that pass the check of R105 are those that decode to a command with LEN in 1..10 (R104, R105). -/
def Obligations.LegalIffDecodesWellFormed : Prop :=
  ∀ w : Word, legal w = true ↔ ∃ i, decode w = .ok i ∧ i.wellFormed = true

/-- R104's match and mask table: `w & mask = match` selects the row, and the fields are `w[11:8]` and `w[15:12]`; an opcode
outside the table is refused by name (R104, R107). -/
def Obligations.MatchMaskSelectsRow : Prop :=
  (∀ (w : Word) (i : Instr) (m : Word),
    (i, m) ∈ [(Instr.nop, 0x00), (.s2l, 0x10), (.l2s, 0x11), (.spowh, 0x20), (.spowg, 0x21), (.spows, 0x22), (.dcq, 0x30),
      (.amaxq, 0x31), (.acq, 0x32)] → (w &&& 0xFFFFFFFFFFFFFFFF = m ↔ decode w = .ok i)) ∧
    (∀ w : Word, (w &&& 0xFFFFFFFFFFFFF0FF = 0x01 ↔ decode w = .ok (.b83enc (w.extractLsb' 8 4))) ∧
      (w &&& 0xFFFFFFFFFFFFF0FF = 0x02 ↔ decode w = .ok (.b83dec (w.extractLsb' 8 4)))) ∧
    (∀ w : Word, w &&& 0xFFFFFFFFFFFF00FF = 0x40 ↔ decode w = .ok (.gridq (w.extractLsb' 8 4) (w.extractLsb' 12 4))) ∧
    ∀ w : Word, w.extractLsb' 0 8 ∉ ([0x00, 0x01, 0x02, 0x10, 0x11, 0x20, 0x21, 0x22, 0x30, 0x31, 0x32, 0x40] :
      List (BitVec 8)) → decode w = .error (.reservedOpcode (w.extractLsb' 0 8))

/-- One word of every row, written out from R102 and R104, decodes to its command. -/
def Obligations.DecodesSampleWords : Prop :=
  decode 0x0000000000000000 = .ok .nop ∧ decode 0x0000000000000501 = .ok (.b83enc 5) ∧
    decode 0x0000000000000A02 = .ok (.b83dec 10) ∧ decode 0x0000000000000010 = .ok .s2l ∧
    decode 0x0000000000000011 = .ok .l2s ∧ decode 0x0000000000000020 = .ok .spowh ∧
    decode 0x0000000000000021 = .ok .spowg ∧ decode 0x0000000000000022 = .ok .spows ∧
    decode 0x0000000000000030 = .ok .dcq ∧ decode 0x0000000000000031 = .ok .amaxq ∧
    decode 0x0000000000000032 = .ok .acq ∧ decode 0x0000000000003440 = .ok (.gridq 4 3)

/-! ### The host's accesses -/

/-- R71: the register at every offset, and the offsets that name none. -/
def Obligations.RegisterMap : Prop :=
  regAt 0x000 = some .id ∧ regAt 0x008 = some .cmd ∧ regAt 0x010 = some .status ∧
    (∀ k : Fin 4, regAt (BitVec.ofNat 13 (0x020 + 8 * k.val)) = some (.op k) ∧
      regAt (BitVec.ofNat 13 (0x040 + 8 * k.val)) = some (.res k)) ∧
    (∀ k : Fin 2, regAt (BitVec.ofNat 13 (0x060 + 8 * k.val)) = some (.chr k)) ∧
    (∀ n : Fin 243, regAt (BitVec.ofNat 13 (0x800 + 8 * n.val)) = some (.coef n)) ∧
    (∀ n : Fin 81, regAt (BitVec.ofNat 13 (0x1000 + 8 * n.val)) = some (.qg n)) ∧
    ∀ off : Offset, off.toNat % 8 = 0 →
      (regAt off = none ↔ off.toNat = 0x018 ∨ (0x070 ≤ off.toNat ∧ off.toNat ≤ 0x7FF) ∨
        (0xF98 ≤ off.toNat ∧ off.toNat ≤ 0xFFF) ∨ 0x1288 ≤ off.toNat)

/-- R73, R74, R76, R77: an access of another size, a misaligned one or one to an unmapped offset is a BusError, read or
write: the fault is recorded and no block state changes. -/
def Obligations.BusErrorAccesses : Prop :=
  ∀ (s : State) (off : Offset) (size : Nat) (v : Word),
    size ≠ 8 ∨ off.toNat % 8 ≠ 0 ∨ off.toNat = 0x018 ∨ (0x070 ≤ off.toNat ∧ off.toNat ≤ 0x7FF) ∨
        (0xF98 ≤ off.toNat ∧ off.toNat ≤ 0xFFF) ∨ 0x1288 ≤ off.toNat →
      s.hostMove (.read off size) = .next { s with faults := .busError off size :: s.faults } ∧
        s.hostMove (.write off size v) = .next { s with faults := .busError off size :: s.faults }

/-- R78: what a read of each register returns. -/
def Obligations.ReadValues : Prop :=
  ∀ s : State, s.memRead 0x000 8 = .ok 0x4248514100070001 ∧ s.memRead 0x008 8 = .ok 0 ∧
    s.memRead 0x010 8 = .ok ((s.status.lastop ++ s.status.erridx ++ 0#4 ++ s.status.errcode ++ 0#4 ++
      BitVec.ofBool s.status.ovr ++ BitVec.ofBool s.status.err ++ BitVec.ofBool s.status.done ++
      BitVec.ofBool s.status.busy).setWidth 64) ∧
    (∀ k : Fin 4, s.memRead (BitVec.ofNat 13 (0x020 + 8 * k.val)) 8 = .ok s.op[k] ∧
      s.memRead (BitVec.ofNat 13 (0x040 + 8 * k.val)) 8 = .ok s.res[k]) ∧
    s.memRead 0x060 8 = .ok (s.chr[7] ++ s.chr[6] ++ s.chr[5] ++ s.chr[4] ++ s.chr[3] ++ s.chr[2] ++ s.chr[1] ++ s.chr[0]) ∧
    s.memRead 0x068 8 = .ok (s.chr[15] ++ s.chr[14] ++ s.chr[13] ++ s.chr[12] ++ s.chr[11] ++ s.chr[10] ++ s.chr[9] ++
      s.chr[8]) ∧
    (∀ n < 243, s.memRead (BitVec.ofNat 13 (0x800 + 8 * n)) 8 =
      match s.coef n with
      | some v => .ok v
      | none => .error (.unwrittenRead (BitVec.ofNat 13 (0x800 + 8 * n)))) ∧
    ∀ n < 81, s.memRead (BitVec.ofNat 13 (0x1000 + 8 * n)) 8 =
      match s.qg n with
      | some v => .ok v
      | none => .error (.unwrittenRead (BitVec.ofNat 13 (0x1000 + 8 * n)))

/-- R33: the places of the fields in the word a read of STATUS returns; every other bit reads 0. -/
def Obligations.StatusFields : Prop :=
  ∀ s : State, ∃ v, s.memRead 0x010 8 = .ok v ∧ v.getLsbD 0 = s.status.busy ∧ v.getLsbD 1 = s.status.done ∧
    v.getLsbD 2 = s.status.err ∧ v.getLsbD 3 = s.status.ovr ∧ v.extractLsb' 4 4 = 0 ∧
    v.extractLsb' 8 4 = s.status.errcode ∧ v.extractLsb' 12 4 = 0 ∧ v.extractLsb' 16 8 = s.status.erridx ∧
    v.extractLsb' 24 8 = s.status.lastop ∧ v.extractLsb' 32 32 = 0

/-- R39: a host write to STATUS, also while BUSY = 1, changes these fields and nothing else; a read changes nothing of the
block's state. -/
def Obligations.StatusWrite : Prop :=
  (∀ s : State, ∃ t, s.hostMove (.read 0x010 8) = .next t ∧ t = { s with replies := t.replies }) ∧
  ∀ (s : State) (w : Word), s.hostMove (.write 0x010 8 w) = .next { s with status :=
    { s.status with
      done := if w.getLsbD 1 then false else s.status.done
      err := if w.getLsbD 2 then false else s.status.err
      errcode := if w.getLsbD 2 then 0 else s.status.errcode
      erridx := if w.getLsbD 2 then 0 else s.status.erridx
      ovr := if w.getLsbD 3 then false else s.status.ovr } }

/-- R75: writes to read-only registers change nothing and are no BusError, and a read of CMD returns 0. (A write to STATUS:
`StatusWrite`.) -/
def Obligations.ReadOnlyRegisters : Prop :=
  ∀ (s : State) (v : Word), s.hostMove (.write 0x000 8 v) = .next s ∧
    (∀ k : Fin 4, s.hostMove (.write (BitVec.ofNat 13 (0x040 + 8 * k.val)) 8 v) = .next s) ∧
    (∀ n : Fin 81, s.hostMove (.write (BitVec.ofNat 13 (0x1000 + 8 * n.val)) 8 v) = .next s) ∧
    s.memRead 0x008 8 = .ok 0

/-- R81, R266, R40: a read changes no register, word, status bit or PEND, and returns the same when repeated; where it is a
model fault (an unwritten word among them) it returns no value and the fault is recorded. That its value goes to
`replies`, and that the run goes on after the read of an unwritten word, is the model's choice (log entries 2 and 3). -/
def Obligations.ReadsChangeNothing : Prop :=
  ∀ (s : State) (off : Offset), ∃ t, s.hostMove (.read off 8) = .next t ∧ t.memRead off 8 = s.memRead off 8 ∧
    ((∃ v, s.memRead off 8 = .ok v ∧ t = { s with replies := (off, v) :: s.replies }) ∨
      (s.memRead off 8 = .error (.busError off 8) ∧ t = { s with faults := .busError off 8 :: s.faults }) ∨
      (s.memRead off 8 = .error (.unwrittenRead off) ∧ t = { s with faults := .unwrittenRead off :: s.faults }))

/-- R265: a write of an operand while BUSY = 1 has the one effect OVR <- 1. -/
def Obligations.OperandWriteWhileBusy : Prop :=
  ∀ (s : State) (v : Word) (off : Offset), s.status.busy = true →
    (∃ k : Fin 4, off = BitVec.ofNat 13 (0x020 + 8 * k.val)) ∨ off = 0x060 ∨ off = 0x068 ∨
        (∃ n : Fin 243, off = BitVec.ofNat 13 (0x800 + 8 * n.val)) →
      s.hostMove (.write off 8 v) = .next { s with status := { s.status with ovr := true } }

/-- R79, R41, R43, R45: a write of an operand while BUSY = 0 replaces that register or word, which reads back as written,
and nothing else. -/
def Obligations.OperandWriteWhileIdle : Prop :=
  ∀ (s : State) (v : Word), s.status.busy = false →
    (∀ k : Fin 4, s.hostMove (.write (BitVec.ofNat 13 (0x020 + 8 * k.val)) 8 v) = .next { s with op := s.op.set k v }) ∧
    (∀ k : Fin 2, ∃ t, s.hostMove (.write (BitVec.ofNat 13 (0x060 + 8 * k.val)) 8 v) = .next t ∧
      t.memRead (BitVec.ofNat 13 (0x060 + 8 * k.val)) 8 = .ok v ∧ t = { s with chr := t.chr } ∧
      ∀ j, ∀ _ : j < 16, t.chr[j] = if j / 8 = k.val then v.extractLsb' (8 * (j % 8)) 8 else s.chr[j]) ∧
    ∀ n : Fin 243, ∃ t, s.hostMove (.write (BitVec.ofNat 13 (0x800 + 8 * n.val)) 8 v) = .next t ∧
      t = { s with mem := t.mem } ∧ t.coef n.val = some v ∧ (∀ j, j ≠ n.val → t.coef j = s.coef j) ∧
      ∀ a, a < 0x800 + 8 * n.val ∨ 0x800 + 8 * n.val + 8 ≤ a → memGet t.mem a = memGet s.mem a

/-- R72: byte `b` of a register lies at window offset `off + b` and host address `BASE + off + b`; CHR[k] is the byte at
0x060 + k; the RAM's bytes are the memory's. -/
def Obligations.ByteLayout : Prop :=
  (∀ (s : State) (off : Offset) (r : Reg) (v : Word) (b : Nat), regAt off = some r → s.readReg r = some v → b < 8 →
      s.windowByte (off + BitVec.ofNat 13 b) = some (v.extractLsb' (8 * b) 8) ∧
        windowOffset (Config.base + off.toNat + b) = some (off + BitVec.ofNat 13 b)) ∧
    (∀ (s : State) (k : Nat) (h : k < 16), s.windowByte (BitVec.ofNat 13 (0x060 + k)) = some s.chr[k]) ∧
    ∀ (s : State) (n b : Nat) (v : Word), b < 8 →
      (s.coef n = some v → memGet s.mem (0x800 + 8 * n + b) = some (v.extractLsb' (8 * b) 8)) ∧
        (s.qg n = some v → memGet s.mem (0x1000 + 8 * n + b) = some (v.extractLsb' (8 * b) 8))

/-! ### Acceptance and completion -/

/-- R261, R264: a write to CMD is accepted while BUSY = 0, and otherwise dropped with OVR <- 1. -/
def Obligations.CommandWrite : Prop :=
  ∀ (s : State) (w : Word),
    (s.status.busy = false → s.hostMove (.write 0x008 8 w) = .next { s with
      pend := some w
      status := { busy := true, done := false, err := false, ovr := s.status.ovr, errcode := 0, erridx := 0,
                  lastop := w.extractLsb' 0 8 } }) ∧
    (s.status.busy = true → s.hostMove (.write 0x008 8 w) = .next { s with status := { s.status with ovr := true } })

/-- R268, R262: the block's move on a pending command ends it, with DONE 1, BUSY 0 and PEND empty, unless the command is
a GRIDQ over an unwritten word; without one it changes nothing. -/
def Obligations.PendingCommandCompletes : Prop :=
  (∀ (s : State) (w : Word), s.pend = some w →
      (∃ t, s.blockMove = .next t ∧ Settled s t) ∨
        ((∃ cx cy k, decode w = .ok (.gridq cx cy) ∧ k < 3 * (cx.toNat * cy.toNat) ∧ s.coef k = none) ∧
          s.blockMove = .fault .unwrittenOperand)) ∧
    ∀ s : State, s.pend = none → s.blockMove = .next s

/-- The frame of every command (R51, R262, R41, R45, R37): whatever it ends with, it changes no state but STATUS, PEND and
what R51 lists for it. That the model's own `turns` and `replies` stay is the model's choice (log entries 1 and 2). -/
def Obligations.CommandsWriteOnly : Prop :=
  ∀ (i : Instr) (s t : State), exec i s = .next t →
    Settled s t ∧ KeepsRes s t (writtenRes i) ∧
      (∀ k, ∀ _ : k < 16, writtenChr i ≤ k → t.chr[k] = s.chr[k]) ∧
      (∀ a, a < qgOffset 0 ∨ qgOffset (writtenQg i) ≤ a → memGet t.mem a = memGet s.mem a) ∧
      t.turns = s.turns ∧ t.replies = s.replies

/-- R272, R263: a command that ends with an error writes no result, and its code is one of the block's. -/
def Obligations.ErrorsWriteNothing : Prop :=
  ∀ (i : Instr) (s t : State), s.status.err = false → exec i s = .next t → t.status.err = true →
    ∃ code idx, code ∈ [1, 2, 5, 6] ∧ idx ≤ 242 ∧ Fails s t code idx

/-- R51, R240, R320: a command's outcome and results are a function of the operands R51 lists for it; nothing else of the
state has an influence. -/
def Obligations.CommandsReadOnly : Prop :=
  ∀ (i : Instr) (s s' : State), sameOperands s s' i →
    (exec i s = .fault .unwrittenOperand ∧ exec i s' = .fault .unwrittenOperand) ∨
      ∃ t t', exec i s = .next t ∧ exec i s' = .next t' ∧
        ((∃ code idx, Fails s t code idx ∧ Fails s' t' code idx) ∨
          (Succeeds s t ∧ Succeeds s' t' ∧ (∀ k ∈ writtenRes i, t.res[k] = t'.res[k]) ∧
            (∀ k, ∀ _ : k < 16, k < writtenChr i → t.chr[k] = t'.chr[k]) ∧
            ∀ n < writtenQg i, t.qg n = t'.qg n))

/-- R310: a read that races a completion returns the value before it or the value after it, and the model admits both: one
order of moves gives each (`turns` and `replies` are the model's own, log entries 1 and 2). -/
def Obligations.RaceAdmitsBothValues : Prop :=
  ∀ (s t : State) (w : Word) (i : Instr) (off : Offset) (before after : Word),
    s.pend = some w → decode w = .ok i → exec i s = .next t → s.memRead off 8 = .ok before → t.memRead off 8 = .ok after →
      (∃ a, step { s with turns := [.host (.read off 8), .block] } = .next a ∧
        a.replies = (off, before) :: s.replies ∧ a.pend = some w) ∧
      ∃ b c, step { s with turns := [.block, .host (.read off 8)] } = .next b ∧ b.pend = none ∧ step b = .next c ∧
        c.replies = (off, after) :: s.replies

/-! ### NOP and base 83 -/

/-- R260. -/
def Obligations.NopResult : Prop :=
  decode 0x0000000000000000 = .ok .nop ∧
    ∀ s : State, ∃ t, exec .nop s = .next t ∧ Succeeds s t ∧ t.res = s.res ∧ t.chr = s.chr ∧ SameBytes s t

/-- R133. -/
def Obligations.B83encResult : Prop :=
  ∀ (s : State) (len : BitVec 4), 1 ≤ len.toNat → len.toNat ≤ 10 →
    decode (BitVec.ofNat 64 (1 + len.toNat * 256)) = .ok (.b83enc len) ∧
      ∃ t, exec (.b83enc len) s = .next t ∧ Succeeds s t ∧ t.res = s.res ∧ SameBytes s t ∧
        ∀ k, ∀ _ : k < 16, t.chr[k] =
          if k < len.toNat then alpha (s.op[0].toNat % 83 ^ len.toNat / 83 ^ (len.toNat - 1 - k) % 83) else s.chr[k]

/-- R136: a field of digits gives the number they stand for, CHR[0] the most significant digit, with no overflow; a field
with a byte that is no digit gives InvalidCharacter at the first one, whatever follows it. -/
def Obligations.B83decResult : Prop :=
  ∀ (s : State) (len : BitVec 4), 1 ≤ len.toNat → len.toNat ≤ 10 →
    decode (BitVec.ofNat 64 (2 + len.toNat * 256)) = .ok (.b83dec len) ∧
      (∀ d : Nat → Nat, (∀ k, ∀ _ : k < 16, k < len.toNat → idx83 s.chr[k] = some (d k)) →
        ∃ t, exec (.b83dec len) s = .next t ∧ Succeeds s t ∧ KeepsRes s t [0] ∧ t.chr = s.chr ∧ SameBytes s t ∧
          t.res[0].toNat = ∑ k ∈ Finset.range len.toNat, d k * 83 ^ (len.toNat - 1 - k)) ∧
      ∀ k, ∀ _ : k < 16, k < len.toNat → idx83 s.chr[k] = none →
        (∀ j, ∀ _ : j < 16, j < k → (idx83 s.chr[j]).isSome = true) →
          ∃ t, exec (.b83dec len) s = .next t ∧ Fails s t 1 k

/-- R137. -/
def Obligations.Base83RoundTrip : Prop :=
  ∀ (s : State) (len : BitVec 4), 1 ≤ len.toNat → len.toNat ≤ 10 → s.op[0].toNat < 83 ^ len.toNat →
    ∃ t u, exec (.b83enc len) s = .next t ∧ exec (.b83dec len) t = .next u ∧ u.res[0] = s.op[0]

/-- R130, R131: the codes of the 83 indices; `idx83` finds exactly these, each once; and the 173 bytes that give none. -/
def Obligations.AlphabetIndex : Prop :=
  (∀ d < 10, alpha d = BitVec.ofNat 8 (0x30 + d)) ∧ (∀ d < 26, alpha (10 + d) = BitVec.ofNat 8 (0x41 + d)) ∧
    (∀ d < 26, alpha (36 + d) = BitVec.ofNat 8 (0x61 + d)) ∧
    (List.range 21).map (fun d => (alpha (62 + d)).toNat) = [0x23, 0x24, 0x25, 0x2A, 0x2B, 0x2C, 0x2D, 0x2E, 0x3A, 0x3B,
      0x3D, 0x3F, 0x40, 0x5B, 0x5D, 0x5E, 0x5F, 0x7B, 0x7C, 0x7D, 0x7E] ∧
    (∀ (b : Byte) (d : Nat), idx83 b = some d ↔ d < 83 ∧ alpha d = b) ∧
    (∀ b : Byte, idx83 b = none ↔ b.toNat < 0x20 ∨ 0x7F ≤ b.toNat ∨
      b.toNat ∈ [0x20, 0x21, 0x22, 0x26, 0x27, 0x28, 0x29, 0x2F, 0x3C, 0x3E, 0x5C, 0x60]) ∧
    ((List.range 256).filter fun n => (idx83 (BitVec.ofNat 8 n)).isNone).length = 173

/-! ### Colour -/

/-- R161: the formula of S2LF, the byte being exact in binary64. -/
def Obligations.S2lfFormula : Prop :=
  ∀ b < 256, valueOf (fofNat b) = b ∧
    s2lf b = if fle (fdiv (fofNat b) k255) kSrgbT then fdiv (fdiv (fofNat b) k255) k12_92
      else powcr (fdiv (fadd (fdiv (fofNat b) k255) k0_055) k1_055) k2_4

/-- R162, R164: every value of S2LF is finite, in [0, 1] and never -0.0. -/
def Obligations.S2lfRange : Prop :=
  ∀ b < 256, IsFinite (s2lf b) ∧ signOf (s2lf b) = false ∧ valueOf (s2lf b) ≤ 1

/-- R164. -/
def Obligations.S2lResult : Prop :=
  decode 0x0000000000000010 = .ok .s2l ∧
    ∀ s : State, ∃ t, exec .s2l s = .next t ∧ Succeeds s t ∧ t.res[0] = s2lf (s.op[0].toNat % 256) ∧ KeepsRes s t [0] ∧
      t.chr = s.chr ∧ SameBytes s t

/-- R165: L2SF is the integer its formula gives, in 0..255. -/
def Obligations.L2sfFormula : Prop :=
  ∀ v : F64, isNaN v = false → l2sf v ≤ 255 ∧
    ∃ u, u = (if flt v k0 then k0 else if flt k1 v then k1 else v) ∧
      (l2sf v : Int) = ffloor (fadd (if fle u kLinT then fmul (fmul u k12_92) k255
        else fmul (fsub (fmul k1_055 (powcr u kInv2_4)) k0_055) k255) kHalf)

/-- R166: L2SF is monotone. -/
def Obligations.L2sfMonotone : Prop := ∀ v v' : F64, fle v v' = true → l2sf v ≤ l2sf v'

/-- R168, with the patterns it calls NaN. -/
def Obligations.L2sResult : Prop :=
  decode 0x0000000000000011 = .ok .l2s ∧
    (∀ u : F64, isNaN u = true ↔ u.toNat / 2 ^ 52 % 2 ^ 11 = 2047 ∧ u.toNat % 2 ^ 52 ≠ 0) ∧
    ∀ s : State,
      (isNaN s.op[0] = false → ∃ t, exec .l2s s = .next t ∧ Succeeds s t ∧ t.res[0] = BitVec.ofNat 64 (l2sf s.op[0]) ∧
        KeepsRes s t [0] ∧ t.chr = s.chr ∧ SameBytes s t) ∧
      (isNaN s.op[0] = true → ∃ t, exec .l2s s = .next t ∧ Fails s t 6 0)

/-- R169, for every non-NaN `v` and each of the three exponents. -/
def Obligations.SignedPowFormula : Prop :=
  ∀ v e : F64, e ∈ [kHalf, kInv2_2, k2] → isNaN v = false →
    (isZero v = true → signedPow v e = v) ∧ (isInf v = true → signedPow v e = v) ∧
      (IsFinite v → flt k0 v = true → signedPow v e = powcr v e) ∧
      (IsFinite v → flt v k0 = true → signedPow v e = fneg (powcr (fneg v) e))

/-- R170: SP is odd, keeps the sign bit, and with the exponents 0.5 and 1/2.2 a finite nonzero operand gives a result
between the operand and 1 in magnitude. -/
def Obligations.SignedPowOdd : Prop :=
  (∀ v e : F64, isNaN v = false → signedPow (fneg v) e = fneg (signedPow v e) ∧ signOf (signedPow v e) = signOf v) ∧
    ∀ v e : F64, e ∈ [kHalf, kInv2_2] → IsFinite v → magOf v ≠ 0 →
      min (magOf v) (magOf k1) ≤ magOf (signedPow v e) ∧ magOf (signedPow v e) ≤ max (magOf v) (magOf k1)

/-- R172: exponent 2.0 is a product, exponent 0.5 the correctly rounded square root, with the operand's sign. -/
def Obligations.SignedPowAsRootAndSquare : Prop :=
  (∀ v : F64, isNaN v = false →
      signedPow v k2 = if signOf v then fneg (fmul (fabs v) (fabs v)) else fmul (fabs v) (fabs v)) ∧
    (∀ v : F64, IsFinite v → NearestTo (Real.sqrt |(valueOf v : ℝ)|) (fabs (signedPow v kHalf)) ∧
      signOf (signedPow v kHalf) = signOf v) ∧
    ∀ v : F64, isInf v = true → signedPow v kHalf = v

/-- R173, R174, R175: the three signed powers. -/
def Obligations.SignedPowersResult : Prop :=
  ∀ (i : Instr) (w : Word) (e : F64), (i, w, e) ∈ [(Instr.spowh, 0x20, kHalf), (.spowg, 0x21, kInv2_2), (.spows, 0x22, k2)] →
    decode w = .ok i ∧ ∀ s : State,
      (isNaN s.op[0] = false → ∃ t, exec i s = .next t ∧ Succeeds s t ∧ t.res[0] = signedPow s.op[0] e ∧
        KeepsRes s t [0] ∧ t.chr = s.chr ∧ SameBytes s t) ∧
      (isNaN s.op[0] = true → ∃ t, exec i s = .next t ∧ Fails s t 6 0)

/-! ### Quantizers -/

/-- R200, R201, R202: DCQ. -/
def Obligations.DcqResult : Prop :=
  decode 0x0000000000000030 = .ok .dcq ∧ ∀ s : State,
    (isNaN s.op[0] = false → isNaN s.op[1] = false → isNaN s.op[2] = false →
      ∃ t, exec .dcq s = .next t ∧ Succeeds s t ∧
        t.res[0].toNat = l2sf s.op[0] * 65536 + l2sf s.op[1] * 256 + l2sf s.op[2] ∧ t.res[0].toNat ≤ 16777215 ∧
        KeepsRes s t [0] ∧ t.chr = s.chr ∧ SameBytes s t) ∧
    ∀ k : Fin 4, k.val < 3 → isNaN s.op[k] = true → (∀ j : Fin 4, j < k → isNaN s.op[j] = false) →
      ∃ t, exec .dcq s = .next t ∧ Fails s t 6 k.val

/-- R203, R205: AMAXQ, with the division by 1.0 exact. -/
def Obligations.AmaxqResult : Prop :=
  decode 0x0000000000000031 = .ok .amaxq ∧
    (∀ m : F64, isNaN m = false → fdiv m k1 = m ∧
      ((amaxQuant m : Nat) : Int) =
        if isZero m then 0 else clampi (fsub (fmul (signedPow m kHalf) k166) kHalf) 0 82) ∧
    ∀ s : State,
      (isNaN s.op[0] = false → ∃ t, exec .amaxq s = .next t ∧ Succeeds s t ∧ t.res[0] = BitVec.ofNat 64 (amaxQuant s.op[0]) ∧
        t.res[1] = fdiv (fofNat (amaxQuant s.op[0] + 1)) k166 ∧ KeepsRes s t [0, 1] ∧ t.chr = s.chr ∧ SameBytes s t) ∧
      (isNaN s.op[0] = true → ∃ t, exec .amaxq s = .next t ∧ Fails s t 6 0)

/-- R204: `q` is in 0..82 and monotone, and `mv` is the binary64 nearest to (q + 1) / 166, from 1/166 to 0.5. -/
def Obligations.AmaxQuantRange : Prop :=
  (∀ m : F64, isNaN m = false → amaxQuant m ≤ 82) ∧
    (∀ m m' : F64, fle m m' = true → amaxQuant m ≤ amaxQuant m') ∧
    (∀ q : Nat, q ≤ 82 → NearestTo (((q : ℝ) + 1) / 166) (maxValueOf q) ∧ fle (maxValueOf 0) (maxValueOf q) = true ∧
      fle (maxValueOf q) kHalf = true) ∧
    maxValueOf 82 = kHalf

/-- R206: where the quotient is a NaN, and the range of a bin. -/
def Obligations.AcQuotientNaN : Prop :=
  ∀ c mv : F64,
    (acf1 c mv = none ↔ isNaN c = true ∨ isNaN mv = true ∨ (isZero c = true ∧ isZero mv = true) ∨
      (isInf c = true ∧ isInf mv = true)) ∧
    ∀ q, acf1 c mv = some q →
      q ≤ 18 ∧ (q : Int) = clampi (fadd (fmul (signedPow (fdiv c mv) kInv2_2) k9) k9_5) 0 18

/-- R207: for a finite `mv > 0` the bin is monotone in the channel, 9 at a zero, 18 from `mv` on and 0 from `-mv` down. -/
def Obligations.AcBinMonotone : Prop :=
  ∀ mv : F64, IsFinite mv → flt k0 mv = true →
    (∀ c c' : F64, fle c c' = true → ∃ q q', acf1 c mv = some q ∧ acf1 c' mv = some q' ∧ q ≤ q') ∧
      (∀ c : F64, isZero c = true → acf1 c mv = some 9) ∧
      (∀ c : F64, fle mv c = true → acf1 c mv = some 18) ∧
      ∀ c : F64, fle c (fneg mv) = true → acf1 c mv = some 0

/-- R208: the packed bins where every operand and every quotient is a number; else the first NaN operand is reported, or,
without one, the first NaN quotient, R before G before B. -/
def Obligations.AcqResult : Prop :=
  decode 0x0000000000000032 = .ok .acq ∧ ∀ s : State,
    (∀ qr qg qb : Nat, (∀ k : Fin 4, isNaN s.op[k] = false) → acf1 s.op[0] s.op[3] = some qr →
      acf1 s.op[1] s.op[3] = some qg → acf1 s.op[2] s.op[3] = some qb →
        ∃ t, exec .acq s = .next t ∧ Succeeds s t ∧ t.res[0].toNat = qr * 361 + qg * 19 + qb ∧ t.res[0].toNat ≤ 6858 ∧
          KeepsRes s t [0] ∧ t.chr = s.chr ∧ SameBytes s t) ∧
    (∀ k : Fin 4, isNaN s.op[k] = true → (∀ j : Fin 4, j < k → isNaN s.op[j] = false) →
      ∃ t, exec .acq s = .next t ∧ Fails s t 6 k.val) ∧
    ((∀ k : Fin 4, isNaN s.op[k] = false) → ∀ ch : Fin 4, ch.val < 3 → acf1 s.op[ch] s.op[3] = none →
      (∀ j : Fin 4, j < ch → (acf1 s.op[j] s.op[3]).isSome = true) →
        ∃ t, exec .acq s = .next t ∧ Fails s t 6 (4 + ch.val))

/-! ### The grid -/

/-- R236, R237, R231: GRIDQ on written words without a NaN. `m` is +0.0 or one of the magnitudes, and none is larger. -/
def Obligations.GridqResult : Prop :=
  ∀ (s : State) (cx cy : BitVec 4) (c : Nat → Word), 1 ≤ cx.toNat → cx.toNat ≤ 9 → 1 ≤ cy.toNat → cy.toNat ≤ 9 →
    (∀ k < 3 * (cx.toNat * cy.toNat), s.coef k = some (c k) ∧ isNaN (c k) = false) →
      ∃ t m, exec (.gridq cx cy) s = .next t ∧ Succeeds s t ∧ t.chr = s.chr ∧
        (m = k0 ∨ ∃ k, 3 ≤ k ∧ k < 3 * (cx.toNat * cy.toNat) ∧ m = fabs (c k)) ∧
        (∀ k, 3 ≤ k → k < 3 * (cx.toNat * cy.toNat) → fle (fabs (c k)) m = true) ∧
        t.res[0] = BitVec.ofNat 64 (cx.toNat - 1 + (cy.toNat - 1) * 9) ∧ t.res[1] = BitVec.ofNat 64 (amaxQuant m) ∧
        t.res[2] = fdiv (fofNat (amaxQuant m + 1)) k166 ∧ t.res[3] = m ∧
        t.qg 0 = some (BitVec.ofNat 64 (l2sf (c 0) * 65536 + l2sf (c 1) * 256 + l2sf (c 2))) ∧
        (∀ n, 1 ≤ n → n < cx.toNat * cy.toNat → ∃ qr qg qb, acf1 (c (3 * n)) t.res[2] = some qr ∧
          acf1 (c (3 * n + 1)) t.res[2] = some qg ∧ acf1 (c (3 * n + 2)) t.res[2] = some qb ∧
          t.qg n = some (BitVec.ofNat 64 (qr * 361 + qg * 19 + qb))) ∧
        ∀ a, a < qgOffset 0 ∨ qgOffset (cx.toNat * cy.toNat) ≤ a → memGet t.mem a = memGet s.mem a

/-- R232, R106: a count outside 1..9, CX before CY, whatever the memory holds. -/
def Obligations.GridqInvalidComponents : Prop :=
  ∀ (s : State) (cx cy : BitVec 4),
    (¬(1 ≤ cx.toNat ∧ cx.toNat ≤ 9) → ∃ t, exec (.gridq cx cy) s = .next t ∧ Fails s t 2 0) ∧
      (1 ≤ cx.toNat → cx.toNat ≤ 9 → ¬(1 ≤ cy.toNat ∧ cy.toNat ≤ 9) →
        ∃ t, exec (.gridq cx cy) s = .next t ∧ Fails s t 2 1)

/-- R233: an unwritten word among the operands is the model fault, whatever the other words are. -/
def Obligations.GridqUnwrittenOperand : Prop :=
  ∀ (s : State) (cx cy : BitVec 4) (k : Nat), 1 ≤ cx.toNat → cx.toNat ≤ 9 → 1 ≤ cy.toNat → cy.toNat ≤ 9 →
    k < 3 * (cx.toNat * cy.toNat) → s.coef k = none → exec (.gridq cx cy) s = .fault .unwrittenOperand

/-- R234: the first NaN in increasing word index is reported. -/
def Obligations.GridqNaN : Prop :=
  ∀ (s : State) (cx cy : BitVec 4) (c : Nat → Word) (k : Nat), 1 ≤ cx.toNat → cx.toNat ≤ 9 → 1 ≤ cy.toNat →
    cy.toNat ≤ 9 → (∀ j < 3 * (cx.toNat * cy.toNat), s.coef j = some (c j)) → k < 3 * (cx.toNat * cy.toNat) →
    isNaN (c k) = true → (∀ j < k, isNaN (c j) = false) →
      k ≤ 242 ∧ ∃ t, exec (.gridq cx cy) s = .next t ∧ Fails s t 6 k

/-- R235: the size flag is a bijection of the valid counts onto 0..80, inverted by the source's formulas. -/
def Obligations.SizeFlagBijection : Prop :=
  (∀ cx cy : Nat, 1 ≤ cx → cx ≤ 9 → 1 ≤ cy → cy ≤ 9 →
      sizeFlag cx cy = cx - 1 + (cy - 1) * 9 ∧ sizeFlag cx cy ≤ 80 ∧ sizeFlag cx cy % 9 + 1 = cx ∧
        sizeFlag cx cy / 9 + 1 = cy) ∧
    ∀ f ≤ 80, sizeFlag (f % 9 + 1) (f / 9 + 1) = f

/-- R238: GRIDQ gives the integers that DCQ, AMAXQ and ACQ give one by one. -/
def Obligations.GridqEqualsSingleSteps : Prop :=
  ∀ (s t : State) (cx cy : BitVec 4) (c : Nat → Word), 1 ≤ cx.toNat → cx.toNat ≤ 9 → 1 ≤ cy.toNat → cy.toNat ≤ 9 →
    (∀ k < 3 * (cx.toNat * cy.toNat), s.coef k = some (c k) ∧ isNaN (c k) = false) → exec (.gridq cx cy) s = .next t →
      (∀ a : State, a.op[0] = c 0 → a.op[1] = c 1 → a.op[2] = c 2 →
        ∃ b, exec .dcq a = .next b ∧ t.qg 0 = some b.res[0]) ∧
      (∀ a : State, a.op[0] = t.res[3] → ∃ b, exec .amaxq a = .next b ∧ b.res[0] = t.res[1] ∧ b.res[1] = t.res[2]) ∧
      ∀ (a : State) (n : Nat), 1 ≤ n → n < cx.toNat * cy.toNat → a.op[0] = c (3 * n) → a.op[1] = c (3 * n + 1) →
        a.op[2] = c (3 * n + 2) → a.op[3] = t.res[2] → ∃ b, exec .acq a = .next b ∧ t.qg n = some b.res[0]

/-! ### Binary64 -/

/-- R8: addition and subtraction of finite values are rounded to nearest, ties to even. -/
def Obligations.AddSubNearest : Prop :=
  ∀ a b : F64, IsFinite a → IsFinite b →
    NearestTo ((valueOf a : ℝ) + valueOf b) (fadd a b) ∧ NearestTo ((valueOf a : ℝ) - valueOf b) (fsub a b)

/-- R8: multiplication and division of finite values are rounded to nearest, ties to even, and the sign of the result,
a zero's included, is that of the product or quotient. -/
def Obligations.MulDivNearest : Prop :=
  ∀ a b : F64, IsFinite a → IsFinite b →
    (NearestTo ((valueOf a : ℝ) * valueOf b) (fmul a b) ∧ signOf (fmul a b) = (signOf a != signOf b)) ∧
      (isZero b = false →
        NearestTo ((valueOf a : ℝ) / valueOf b) (fdiv a b) ∧ signOf (fdiv a b) = (signOf a != signOf b))

/-- R8: `powcr` is the binary64 nearest to the real power, for a finite positive base and exponent. -/
def Obligations.PowcrNearest : Prop :=
  ∀ a e : F64, IsFinite a → flt k0 a = true → IsFinite e → flt k0 e = true →
    NearestTo ((valueOf a : ℝ) ^ (valueOf e : ℝ)) (powcr a e) ∧ signOf (powcr a e) = false

/-- R8: the IEEE special values of the four operations: NaN operands, two infinities, one infinity on either side, a zero
divisor, and the sign of an exact zero sum or difference. -/
def Obligations.SpecialValues : Prop :=
  (∀ a b : F64, isNaN a = true ∨ isNaN b = true →
      isNaN (fadd a b) = true ∧ isNaN (fsub a b) = true ∧ isNaN (fmul a b) = true ∧ isNaN (fdiv a b) = true ∧
        fle a b = false ∧ flt a b = false) ∧
    (∀ a b : F64, isInf a = true → isInf b = true →
      (signOf a = signOf b → fadd a b = a ∧ isNaN (fsub a b) = true) ∧
      (signOf a ≠ signOf b → isNaN (fadd a b) = true ∧ fsub a b = a) ∧
      fmul a b = withSign (signOf a != signOf b) infMag ∧ isNaN (fdiv a b) = true) ∧
    (∀ a b : F64, isInf a = true → IsFinite b → fadd a b = a ∧ fadd b a = a ∧ fsub a b = a ∧ fsub b a = fneg a ∧
      fdiv b a = withSign (signOf a != signOf b) 0 ∧ fdiv a b = withSign (signOf a != signOf b) infMag ∧
      (isZero b = true → isNaN (fmul a b) = true ∧ isNaN (fmul b a) = true) ∧
      (isZero b = false → fmul a b = withSign (signOf a != signOf b) infMag ∧
        fmul b a = withSign (signOf a != signOf b) infMag)) ∧
    (∀ a b : F64, IsFinite a → isZero b = true →
      (isZero a = true → isNaN (fdiv a b) = true) ∧
        (isZero a = false → fdiv a b = withSign (signOf a != signOf b) infMag)) ∧
    ∀ a b : F64, IsFinite a → IsFinite b →
      (valueOf a + valueOf b = 0 → fadd a b = withSign (signOf a && signOf b) 0) ∧
        (valueOf a - valueOf b = 0 → fsub a b = withSign (signOf a && !signOf b) 0)

/-- R8: comparisons are those of the real values, with -inf below and +inf above every other value (a NaN operand:
`SpecialValues`), `floor` is the greatest integer not above, and `clampi` its clamp. -/
def Obligations.ComparisonAndFloor : Prop :=
  (∀ a b : F64, IsFinite a → IsFinite b →
      (fle a b = true ↔ valueOf a ≤ valueOf b) ∧ (flt a b = true ↔ valueOf a < valueOf b)) ∧
    (∀ a b : F64, isInf a = true → signOf a = true → isNaN b = false →
      fle a b = true ∧ flt b a = false ∧ (fle b a = true ↔ isInf b = true ∧ signOf b = true) ∧
        (flt a b = true ↔ ¬(isInf b = true ∧ signOf b = true))) ∧
    (∀ a b : F64, isInf a = true → signOf a = false → isNaN b = false →
      fle b a = true ∧ flt a b = false ∧ (fle a b = true ↔ isInf b = true ∧ signOf b = false) ∧
        (flt b a = true ↔ ¬(isInf b = true ∧ signOf b = false))) ∧
    (∀ t : F64, IsFinite t → ffloor t = ⌊valueOf t⌋) ∧
    ∀ (t : F64) (lo hi : Int), lo ≤ hi →
      (IsFinite t → clampi t lo hi = max lo (min hi ⌊valueOf t⌋)) ∧
        (isInf t = true → signOf t = true → clampi t lo hi = lo) ∧
        (isInf t = true → signOf t = false → clampi t lo hi = hi)

/-- R9, with the bit patterns of R160: each decimal constant is the binary64 nearest to the decimal, the small ones exactly,
and the two quotients are `fdiv(1.0, 2.4)` and `fdiv(1.0, 2.2)`. -/
def Obligations.ConstantsNearest : Prop :=
  [k255, kSrgbT, k12_92, k0_055, k1_055, k2_4, kLinT, kInv2_4, k2_2, kInv2_2, k166, kHalf, k9, k9_5, k1, k2, k0] =
    [0x406FE00000000000, 0x3FA4B5DCC63F1412, 0x4029D70A3D70A3D7, 0x3FAC28F5C28F5C29, 0x3FF0E147AE147AE1,
      0x4003333333333333, 0x3F69A5C37387B719, 0x3FDAAAAAAAAAAAAB, 0x400199999999999A, 0x3FDD1745D1745D17,
      0x4064C00000000000, 0x3FE0000000000000, 0x4022000000000000, 0x4023000000000000, 0x3FF0000000000000,
      0x4000000000000000, 0x0000000000000000] ∧
    NearestTo 0.04045 kSrgbT ∧ NearestTo 12.92 k12_92 ∧ NearestTo 0.055 k0_055 ∧ NearestTo 1.055 k1_055 ∧
    NearestTo 2.4 k2_4 ∧ NearestTo 0.0031308 kLinT ∧ NearestTo 2.2 k2_2 ∧ fdiv k1 k2_4 = kInv2_4 ∧ fdiv k1 k2_2 = kInv2_2 ∧
    valueOf k255 = 255 ∧ valueOf k166 = 166 ∧ valueOf kHalf = 1 / 2 ∧ valueOf k9 = 9 ∧ valueOf k9_5 = 19 / 2 ∧
    valueOf k1 = 1 ∧ valueOf k2 = 2 ∧ valueOf k0 = 0
end

