-- ==== Sys2Proof/Laws/Force.lean ====
section
/-!
SUPPORT. `force` and `forceWord` are identities: a proof removes them with these two lemmas and never looks inside.
-/

namespace Sys2Proof.Machine

@[simp] theorem force_eq {α : Type} (n : Nat) (f : Nat → α) : force n f = f n := by
  cases n <;> rfl

@[simp] theorem forceWord_eq {α : Type} {w : Nat} (v : BitVec w) (f : BitVec w → α) : forceWord v f = f v := by
  simp [forceWord]

end Sys2Proof.Machine
end

