-- ==== Sys2Proof/Laws/State.lean ====
section
/-!
SUPPORT. What each update of the state does to each field, and what each change of STATUS does to each of its fields.
Later proofs rewrite with these and unfold no record update.
-/

namespace Sys2Proof.Machine

section Fields
variable (s : State)

/-! `setOp` -/

@[simp] theorem State.setOp_status (k : Fin 4) (v : Word) : (s.setOp k v).status = s.status := rfl
@[simp] theorem State.setOp_op (k : Fin 4) (v : Word) : (s.setOp k v).op = s.op.set k v := rfl
@[simp] theorem State.setOp_res (k : Fin 4) (v : Word) : (s.setOp k v).res = s.res := rfl
@[simp] theorem State.setOp_chr (k : Fin 4) (v : Word) : (s.setOp k v).chr = s.chr := rfl
@[simp] theorem State.setOp_mem (k : Fin 4) (v : Word) : (s.setOp k v).mem = s.mem := rfl
@[simp] theorem State.setOp_pend (k : Fin 4) (v : Word) : (s.setOp k v).pend = s.pend := rfl
@[simp] theorem State.setOp_turns (k : Fin 4) (v : Word) : (s.setOp k v).turns = s.turns := rfl
@[simp] theorem State.setOp_replies (k : Fin 4) (v : Word) : (s.setOp k v).replies = s.replies := rfl
@[simp] theorem State.setOp_faults (k : Fin 4) (v : Word) : (s.setOp k v).faults = s.faults := rfl

/-! `setRes` -/

@[simp] theorem State.setRes_status (k : Fin 4) (v : Word) : (s.setRes k v).status = s.status := rfl
@[simp] theorem State.setRes_op (k : Fin 4) (v : Word) : (s.setRes k v).op = s.op := rfl
@[simp] theorem State.setRes_res (k : Fin 4) (v : Word) : (s.setRes k v).res = s.res.set k v := by
  simp [State.setRes]
@[simp] theorem State.setRes_chr (k : Fin 4) (v : Word) : (s.setRes k v).chr = s.chr := rfl
@[simp] theorem State.setRes_mem (k : Fin 4) (v : Word) : (s.setRes k v).mem = s.mem := rfl
@[simp] theorem State.setRes_pend (k : Fin 4) (v : Word) : (s.setRes k v).pend = s.pend := rfl
@[simp] theorem State.setRes_turns (k : Fin 4) (v : Word) : (s.setRes k v).turns = s.turns := rfl
@[simp] theorem State.setRes_replies (k : Fin 4) (v : Word) : (s.setRes k v).replies = s.replies := rfl
@[simp] theorem State.setRes_faults (k : Fin 4) (v : Word) : (s.setRes k v).faults = s.faults := rfl

/-! `setCoef` -/

@[simp] theorem State.setCoef_status (n : Nat) (v : Word) : (s.setCoef n v).status = s.status := rfl
@[simp] theorem State.setCoef_op (n : Nat) (v : Word) : (s.setCoef n v).op = s.op := rfl
@[simp] theorem State.setCoef_res (n : Nat) (v : Word) : (s.setCoef n v).res = s.res := rfl
@[simp] theorem State.setCoef_chr (n : Nat) (v : Word) : (s.setCoef n v).chr = s.chr := rfl
@[simp] theorem State.setCoef_mem (n : Nat) (v : Word) : (s.setCoef n v).mem = writeWord s.mem (coefOffset n) v := by
  simp [State.setCoef]
@[simp] theorem State.setCoef_pend (n : Nat) (v : Word) : (s.setCoef n v).pend = s.pend := rfl
@[simp] theorem State.setCoef_turns (n : Nat) (v : Word) : (s.setCoef n v).turns = s.turns := rfl
@[simp] theorem State.setCoef_replies (n : Nat) (v : Word) : (s.setCoef n v).replies = s.replies := rfl
@[simp] theorem State.setCoef_faults (n : Nat) (v : Word) : (s.setCoef n v).faults = s.faults := rfl

/-! `setChrWord` -/

@[simp] theorem State.setChrWord_status (k : Fin 2) (v : Word) : (s.setChrWord k v).status = s.status := rfl
@[simp] theorem State.setChrWord_op (k : Fin 2) (v : Word) : (s.setChrWord k v).op = s.op := rfl
@[simp] theorem State.setChrWord_res (k : Fin 2) (v : Word) : (s.setChrWord k v).res = s.res := rfl
@[simp] theorem State.setChrWord_mem (k : Fin 2) (v : Word) : (s.setChrWord k v).mem = s.mem := rfl
@[simp] theorem State.setChrWord_pend (k : Fin 2) (v : Word) : (s.setChrWord k v).pend = s.pend := rfl
@[simp] theorem State.setChrWord_turns (k : Fin 2) (v : Word) : (s.setChrWord k v).turns = s.turns := rfl
@[simp] theorem State.setChrWord_replies (k : Fin 2) (v : Word) : (s.setChrWord k v).replies = s.replies := rfl
@[simp] theorem State.setChrWord_faults (k : Fin 2) (v : Word) : (s.setChrWord k v).faults = s.faults := rfl

/-! `setField` -/

@[simp] theorem State.setField_status (len v : Nat) : (s.setField len v).status = s.status := rfl
@[simp] theorem State.setField_op (len v : Nat) : (s.setField len v).op = s.op := rfl
@[simp] theorem State.setField_res (len v : Nat) : (s.setField len v).res = s.res := rfl
@[simp] theorem State.setField_mem (len v : Nat) : (s.setField len v).mem = s.mem := rfl
@[simp] theorem State.setField_pend (len v : Nat) : (s.setField len v).pend = s.pend := rfl
@[simp] theorem State.setField_turns (len v : Nat) : (s.setField len v).turns = s.turns := rfl
@[simp] theorem State.setField_replies (len v : Nat) : (s.setField len v).replies = s.replies := rfl
@[simp] theorem State.setField_faults (len v : Nat) : (s.setField len v).faults = s.faults := rfl

/-! `accept` -/

@[simp] theorem State.accept_status (w : Word) : (s.accept w).status = s.status.accepted w := rfl
@[simp] theorem State.accept_op (w : Word) : (s.accept w).op = s.op := rfl
@[simp] theorem State.accept_res (w : Word) : (s.accept w).res = s.res := rfl
@[simp] theorem State.accept_chr (w : Word) : (s.accept w).chr = s.chr := rfl
@[simp] theorem State.accept_mem (w : Word) : (s.accept w).mem = s.mem := rfl
@[simp] theorem State.accept_pend (w : Word) : (s.accept w).pend = some w := rfl
@[simp] theorem State.accept_turns (w : Word) : (s.accept w).turns = s.turns := rfl
@[simp] theorem State.accept_replies (w : Word) : (s.accept w).replies = s.replies := rfl
@[simp] theorem State.accept_faults (w : Word) : (s.accept w).faults = s.faults := rfl

/-! `refuse` -/

@[simp] theorem State.refuse_status : (s.refuse).status = s.status.overrun := rfl
@[simp] theorem State.refuse_op : (s.refuse).op = s.op := rfl
@[simp] theorem State.refuse_res : (s.refuse).res = s.res := rfl
@[simp] theorem State.refuse_chr : (s.refuse).chr = s.chr := rfl
@[simp] theorem State.refuse_mem : (s.refuse).mem = s.mem := rfl
@[simp] theorem State.refuse_pend : (s.refuse).pend = s.pend := rfl
@[simp] theorem State.refuse_turns : (s.refuse).turns = s.turns := rfl
@[simp] theorem State.refuse_replies : (s.refuse).replies = s.replies := rfl
@[simp] theorem State.refuse_faults : (s.refuse).faults = s.faults := rfl

/-! `succeed` -/

@[simp] theorem State.succeed_status : (s.succeed).status = s.status.succeeded := rfl
@[simp] theorem State.succeed_op : (s.succeed).op = s.op := rfl
@[simp] theorem State.succeed_res : (s.succeed).res = s.res := rfl
@[simp] theorem State.succeed_chr : (s.succeed).chr = s.chr := rfl
@[simp] theorem State.succeed_mem : (s.succeed).mem = s.mem := rfl
@[simp] theorem State.succeed_pend : (s.succeed).pend = none := rfl
@[simp] theorem State.succeed_turns : (s.succeed).turns = s.turns := rfl
@[simp] theorem State.succeed_replies : (s.succeed).replies = s.replies := rfl
@[simp] theorem State.succeed_faults : (s.succeed).faults = s.faults := rfl

/-! `raiseErr` -/

@[simp] theorem State.raiseErr_status (e : CmdError) (idx : Nat) : (s.raiseErr e idx).status = s.status.failed e idx := rfl
@[simp] theorem State.raiseErr_op (e : CmdError) (idx : Nat) : (s.raiseErr e idx).op = s.op := rfl
@[simp] theorem State.raiseErr_res (e : CmdError) (idx : Nat) : (s.raiseErr e idx).res = s.res := rfl
@[simp] theorem State.raiseErr_chr (e : CmdError) (idx : Nat) : (s.raiseErr e idx).chr = s.chr := rfl
@[simp] theorem State.raiseErr_mem (e : CmdError) (idx : Nat) : (s.raiseErr e idx).mem = s.mem := rfl
@[simp] theorem State.raiseErr_pend (e : CmdError) (idx : Nat) : (s.raiseErr e idx).pend = none := rfl
@[simp] theorem State.raiseErr_turns (e : CmdError) (idx : Nat) : (s.raiseErr e idx).turns = s.turns := rfl
@[simp] theorem State.raiseErr_replies (e : CmdError) (idx : Nat) : (s.raiseErr e idx).replies = s.replies := rfl
@[simp] theorem State.raiseErr_faults (e : CmdError) (idx : Nat) : (s.raiseErr e idx).faults = s.faults := rfl

/-! `record` -/

@[simp] theorem State.record_status (f : Fault) : (s.record f).status = s.status := rfl
@[simp] theorem State.record_op (f : Fault) : (s.record f).op = s.op := rfl
@[simp] theorem State.record_res (f : Fault) : (s.record f).res = s.res := rfl
@[simp] theorem State.record_chr (f : Fault) : (s.record f).chr = s.chr := rfl
@[simp] theorem State.record_mem (f : Fault) : (s.record f).mem = s.mem := rfl
@[simp] theorem State.record_pend (f : Fault) : (s.record f).pend = s.pend := rfl
@[simp] theorem State.record_turns (f : Fault) : (s.record f).turns = s.turns := rfl
@[simp] theorem State.record_replies (f : Fault) : (s.record f).replies = s.replies := rfl
@[simp] theorem State.record_faults (f : Fault) : (s.record f).faults = f :: s.faults := rfl

/-! `resetEvent` -/

@[simp] theorem State.resetEvent_status : (s.resetEvent).status = Status.reset := rfl
@[simp] theorem State.resetEvent_op : (s.resetEvent).op = Vector.replicate 4 0 := rfl
@[simp] theorem State.resetEvent_res : (s.resetEvent).res = Vector.replicate 4 0 := rfl
@[simp] theorem State.resetEvent_chr : (s.resetEvent).chr = Vector.replicate 16 0 := rfl
@[simp] theorem State.resetEvent_mem : (s.resetEvent).mem = [] := rfl
@[simp] theorem State.resetEvent_pend : (s.resetEvent).pend = none := rfl
@[simp] theorem State.resetEvent_turns : (s.resetEvent).turns = s.turns := rfl
@[simp] theorem State.resetEvent_replies : (s.resetEvent).replies = s.replies := rfl
@[simp] theorem State.resetEvent_faults : (s.resetEvent).faults = s.faults := rfl

@[simp] theorem State.setChrWord_chr (k : Fin 2) (v : Word) (j : Nat) (h : j < 16) :
    (s.setChrWord k v).chr[j] = if j / 8 = k.val then byteOf v (j % 8) else s.chr[j] := by
  simp [State.setChrWord]

@[simp] theorem State.setField_chr (len v : Nat) (j : Nat) (h : j < 16) :
    (s.setField len v).chr[j] = if j < len then alpha (digit83 v len j) else s.chr[j] := by
  simp [State.setField]

end Fields

section StatusFields
variable (t : Status)

/-! `accepted` -/

@[simp] theorem Status.accepted_busy (w : Word) : (t.accepted w).busy = true := rfl
@[simp] theorem Status.accepted_done (w : Word) : (t.accepted w).done = false := rfl
@[simp] theorem Status.accepted_err (w : Word) : (t.accepted w).err = false := rfl
@[simp] theorem Status.accepted_ovr (w : Word) : (t.accepted w).ovr = t.ovr := rfl
@[simp] theorem Status.accepted_errcode (w : Word) : (t.accepted w).errcode = 0 := rfl
@[simp] theorem Status.accepted_erridx (w : Word) : (t.accepted w).erridx = 0 := rfl
@[simp] theorem Status.accepted_lastop (w : Word) : (t.accepted w).lastop = w.extractLsb' 0 8 := rfl

/-! `succeeded` -/

@[simp] theorem Status.succeeded_busy : (t.succeeded).busy = false := rfl
@[simp] theorem Status.succeeded_done : (t.succeeded).done = true := rfl
@[simp] theorem Status.succeeded_err : (t.succeeded).err = t.err := rfl
@[simp] theorem Status.succeeded_ovr : (t.succeeded).ovr = t.ovr := rfl
@[simp] theorem Status.succeeded_errcode : (t.succeeded).errcode = t.errcode := rfl
@[simp] theorem Status.succeeded_erridx : (t.succeeded).erridx = t.erridx := rfl
@[simp] theorem Status.succeeded_lastop : (t.succeeded).lastop = t.lastop := rfl

/-! `failed` -/

@[simp] theorem Status.failed_busy (e : CmdError) (idx : Nat) : (t.failed e idx).busy = false := rfl
@[simp] theorem Status.failed_done (e : CmdError) (idx : Nat) : (t.failed e idx).done = true := rfl
@[simp] theorem Status.failed_err (e : CmdError) (idx : Nat) : (t.failed e idx).err = true := rfl
@[simp] theorem Status.failed_ovr (e : CmdError) (idx : Nat) : (t.failed e idx).ovr = t.ovr := rfl
@[simp] theorem Status.failed_errcode (e : CmdError) (idx : Nat) : (t.failed e idx).errcode = e.code := rfl
@[simp] theorem Status.failed_erridx (e : CmdError) (idx : Nat) : (t.failed e idx).erridx = BitVec.ofNat 8 idx := rfl
@[simp] theorem Status.failed_lastop (e : CmdError) (idx : Nat) : (t.failed e idx).lastop = t.lastop := rfl

/-! `overrun` -/

@[simp] theorem Status.overrun_busy : (t.overrun).busy = t.busy := rfl
@[simp] theorem Status.overrun_done : (t.overrun).done = t.done := rfl
@[simp] theorem Status.overrun_err : (t.overrun).err = t.err := rfl
@[simp] theorem Status.overrun_ovr : (t.overrun).ovr = true := rfl
@[simp] theorem Status.overrun_errcode : (t.overrun).errcode = t.errcode := rfl
@[simp] theorem Status.overrun_erridx : (t.overrun).erridx = t.erridx := rfl
@[simp] theorem Status.overrun_lastop : (t.overrun).lastop = t.lastop := rfl

/-! `writeOneToClear` -/

@[simp] theorem Status.writeOneToClear_busy (w : Word) : (t.writeOneToClear w).busy = t.busy := rfl
@[simp] theorem Status.writeOneToClear_done (w : Word) : (t.writeOneToClear w).done = (t.done && !w.getLsbD 1) := rfl
@[simp] theorem Status.writeOneToClear_err (w : Word) : (t.writeOneToClear w).err = (t.err && !w.getLsbD 2) := rfl
@[simp] theorem Status.writeOneToClear_ovr (w : Word) : (t.writeOneToClear w).ovr = (t.ovr && !w.getLsbD 3) := rfl
@[simp] theorem Status.writeOneToClear_errcode (w : Word) : (t.writeOneToClear w).errcode = if w.getLsbD 2 then 0 else t.errcode := rfl
@[simp] theorem Status.writeOneToClear_erridx (w : Word) : (t.writeOneToClear w).erridx = if w.getLsbD 2 then 0 else t.erridx := rfl
@[simp] theorem Status.writeOneToClear_lastop (w : Word) : (t.writeOneToClear w).lastop = t.lastop := rfl

end StatusFields

section HostMoves
variable (s : State)

/-! The moves of the host -/

@[simp] theorem State.writeReg_faults (v : Word) (r : Reg) : (s.writeReg v r).faults = s.faults := by
  cases r <;> simp only [State.writeReg, State.offer, State.guarded] <;> (try split_ifs) <;> rfl

/-- A host write of `v` that reaches a register writes it; any other is a BusError. -/
theorem State.memWrite_cases (off : Offset) (size : Nat) (v : Word) :
    (∃ r, size = 8 ∧ regAt off = some r ∧ s.memWrite off size v = .ok (s.writeReg v r)) ∨
      s.memWrite off size v = .error (.busError off size) := by
  unfold State.memWrite
  split_ifs with h
  · exact .inr rfl
  · cases hr : regAt off with
    | none => exact .inr rfl
    | some r => exact .inl ⟨r, by simpa using h, rfl, rfl⟩

/-- A host read that reaches a register with a value returns it; any other is a BusError or the read of an unwritten word. -/
theorem State.memRead_cases (off : Offset) (size : Nat) :
    (∃ r v, size = 8 ∧ regAt off = some r ∧ s.readReg r = some v ∧ s.memRead off size = .ok v) ∨
      s.memRead off size = .error (.busError off size) ∨ s.memRead off size = .error (.unwrittenRead off) := by
  unfold State.memRead
  split_ifs with h
  · exact .inr (.inl rfl)
  · cases hr : regAt off with
    | none => exact .inr (.inl rfl)
    | some r =>
      cases hv : s.readReg r with
      | none => exact .inr (.inr (by simp only [hv]))
      | some v => exact .inl ⟨r, v, by simpa using h, rfl, hv, by simp only [hv]⟩

/-- Everything a move of the host or the platform can do: reset, a read that only adds a reply, a write of a register, or
the record of a model fault. It always answers a next state. -/
theorem State.hostMove_cases (a : HostOp) :
    (a = .reset ∧ s.hostMove a = .next s.resetEvent) ∨
      (∃ off v, s.memRead off 8 = .ok v ∧ s.hostMove a = .next { s with replies := (off, v) :: s.replies }) ∨
      (∃ r v, s.hostMove a = .next (s.writeReg v r)) ∨ ∃ f, s.hostMove a = .next (s.record f) := by
  cases a with
  | reset => exact .inl ⟨rfl, rfl⟩
  | read off size =>
    rcases s.memRead_cases off size with ⟨r, v, rfl, _, _, h⟩ | h | h
    · exact .inr (.inl ⟨off, v, h, by simp only [State.hostMove, h]⟩)
    · exact .inr (.inr (.inr ⟨_, by simp only [State.hostMove, h]; rfl⟩))
    · exact .inr (.inr (.inr ⟨_, by simp only [State.hostMove, h]; rfl⟩))
  | write off size v =>
    rcases s.memWrite_cases off size v with ⟨r, _, _, h⟩ | h
    · exact .inr (.inr (.inl ⟨r, v, by simp only [State.hostMove, h]⟩))
    · exact .inr (.inr (.inr ⟨_, by simp only [State.hostMove, h]; rfl⟩))

end HostMoves

end Sys2Proof.Machine
end

