-- ==== Sys2Proof/Laws/Memory.lean ====
section
/-!
SUPPORT. Memory: a read after a write, that every memory operation keeps the canonical form, and what the RAM words COEF
and QG read as after the writes of the machine.
-/

namespace Sys2Proof.Machine

/-! ### Bytes -/

theorem memGet_memPut (m : Mem) (a b : Nat) (v : Byte) :
    memGet (memPut m a v) b = if b = a then some v else memGet m b := by
  induction m with
  | nil => simp [memPut, memGet, eq_comm]
  | cons c m ih =>
    unfold memPut
    split_ifs with h1 h2 <;> simp only [memGet] <;> grind

theorem mem_memPut {m : Mem} {a : Nat} {v : Byte} {c : Host.Cell} (h : c ∈ memPut m a v) : c = (a, v) ∨ c ∈ m := by
  induction m with
  | nil => simpa [memPut] using h
  | cons d m ih =>
    unfold memPut at h
    split_ifs at h with h1 h2 <;> simp only [List.mem_cons] at h ⊢ <;> tauto

/-- A write of one byte keeps the canonical form. -/
theorem memWf_memPut {m : Mem} (h : memWf m) (a : Nat) (v : Byte) : memWf (memPut m a v) := by
  induction m with
  | nil => simp [memPut, memWf]
  | cons c m ih =>
    simp only [memWf, List.map_cons, List.pairwise_cons] at h ih ⊢
    obtain ⟨hc, hm⟩ := h
    unfold memPut
    split_ifs with h1 h2
    · simp only [List.map_cons, List.pairwise_cons, List.mem_cons]
      refine ⟨?_, hc, hm⟩
      rintro x (rfl | hx)
      · exact h1
      · exact h1.trans (hc x hx)
    · subst h2
      simp only [List.map_cons, List.pairwise_cons]
      exact ⟨hc, hm⟩
    · simp only [List.map_cons, List.pairwise_cons, List.mem_map]
      refine ⟨?_, ih hm⟩
      rintro x ⟨d, hd, rfl⟩
      rcases mem_memPut hd with rfl | hd
      · simp only
        omega
      · exact hc _ (List.mem_map_of_mem hd)

theorem memGet_memFrom (m : Mem) {a b : Nat} (h : a ≤ b) : memGet (memFrom m a) b = memGet m b := by
  induction m with
  | nil => rfl
  | cons c m ih =>
    unfold memFrom
    split_ifs with h1
    · rw [ih, memGet, if_neg (by omega)]
    · rfl

/-! ### Words -/

theorem memGet_putBytes (m : Mem) (a n k b : Nat) :
    memGet (putBytes m a n k) b =
      if a ≤ b ∧ b < a + k then some (BitVec.ofNat 8 (n / 256 ^ (b - a))) else memGet m b := by
  induction k generalizing a n with
  | zero => simp [putBytes, show ¬(a ≤ b ∧ b < a) by omega]
  | succ k ih =>
    simp only [putBytes, force_eq, memGet_memPut, ih]
    rcases Nat.lt_trichotomy b a with h | h | h
    · rw [if_neg (by omega), if_neg (by omega), if_neg (by omega)]
    · subst h
      have : BitVec.ofNat 8 (n % 256) = BitVec.ofNat 8 n := by
        apply BitVec.eq_of_toNat_eq
        simp
      simp [this]
    · rw [if_neg (by omega)]
      by_cases hb : b < a + (k + 1)
      · rw [if_pos (by omega), if_pos (by omega), Nat.div_div_eq_div_mul, ← Nat.pow_succ',
          show (b - (a + 1)).succ = b - a by omega]
      · rw [if_neg (by omega), if_neg (by omega)]

theorem memWf_putBytes {m : Mem} (h : memWf m) (a n k : Nat) : memWf (putBytes m a n k) := by
  induction k generalizing a n with
  | zero => exact h
  | succ k ih =>
    simp only [putBytes, force_eq]
    exact memWf_memPut (ih _ _) _ _

theorem memWf_writeWord {m : Mem} (h : memWf m) (a : Nat) (v : Word) : memWf (writeWord m a v) := by
  simpa [writeWord] using memWf_putBytes h a v.toNat 8

/-- Every byte after the write of a word: the word's bytes in its eight places, the old byte elsewhere. -/
theorem memGet_writeWord (m : Mem) (a : Nat) (v : Word) (b : Nat) :
    memGet (writeWord m a v) b =
      if a ≤ b ∧ b < a + 8 then some (BitVec.ofNat 8 (v.toNat / 256 ^ (b - a))) else memGet m b := by
  simp [writeWord, memGet_putBytes]

/-- The bytes outside the word written read as before. -/
theorem memGet_writeWord_ne (m : Mem) (a : Nat) (v : Word) {b : Nat} (h : b < a ∨ a + 8 ≤ b) :
    memGet (writeWord m a v) b = memGet m b := by
  rw [memGet_writeWord, if_neg (by omega)]

/-- A read of `k` bytes depends on those bytes alone. -/
theorem readBytes_congr {m m' : Mem} {a k : Nat} (h : ∀ b, a ≤ b → b < a + k → memGet m b = memGet m' b) :
    readBytes m a k = readBytes m' a k := by
  induction k generalizing a with
  | zero => rfl
  | succ k ih =>
    simp only [readBytes, force_eq]
    rw [h a le_rfl (by omega), ih (a := a + 1) fun b hb hb' => h b (by omega) (by omega)]

theorem readBytes_of_bytes {m : Mem} {a n k : Nat}
    (h : ∀ j < k, memGet m (a + j) = some (BitVec.ofNat 8 (n / 256 ^ j))) : readBytes m a k = some (n % 256 ^ k) := by
  induction k generalizing a n with
  | zero => simp [readBytes, Nat.mod_one]
  | succ k ih =>
    have h0 := h 0 (by omega)
    simp only [Nat.add_zero, Nat.pow_zero, Nat.div_one] at h0
    have hk := ih (a := a + 1) (n := n / 256) fun j hj => by
      rw [show a + 1 + j = a + (j + 1) by omega, h (j + 1) (by omega), Nat.div_div_eq_div_mul, ← Nat.pow_succ']
    simp only [readBytes, force_eq, h0, hk]
    rw [BitVec.toNat_ofNat, Nat.pow_succ' (n := k), Nat.mod_mul]

/-- A read of a word depends on its eight bytes alone. -/
theorem readWord_congr {m m' : Mem} {a : Nat} (h : ∀ b, a ≤ b → b < a + 8 → memGet m b = memGet m' b) :
    readWord m a = readWord m' a := by
  have : readBytes (memFrom m a) a 8 = readBytes (memFrom m' a) a 8 := by
    apply readBytes_congr
    intro b hb hb'
    rw [memGet_memFrom m hb, memGet_memFrom m' hb, h b hb hb']
  simp only [readWord, this]

/-- Reading a suffix of the memory that starts at or before the word gives the word. -/
theorem readWord_memFrom (m : Mem) {a b : Nat} (h : a ≤ b) : readWord (memFrom m a) b = readWord m b :=
  readWord_congr fun _ hc _ => memGet_memFrom m (by omega)

/-- A word reads back as written. -/
theorem readWord_writeWord (m : Mem) (a : Nat) (v : Word) : readWord (writeWord m a v) a = some v := by
  have : readBytes (memFrom (writeWord m a v) a) a 8 = some (v.toNat % 256 ^ 8) := by
    apply readBytes_of_bytes
    intro j hj
    rw [memGet_memFrom _ (by omega), memGet_writeWord, if_pos (by omega), show a + j - a = j by omega]
  simp only [readWord, this]
  congr 1
  apply BitVec.eq_of_toNat_eq
  have := v.isLt
  rw [BitVec.toNat_ofNat]
  omega

/-- A word apart from the one written reads as before. -/
theorem readWord_writeWord_ne (m : Mem) {a b : Nat} (v : Word) (h : b + 8 ≤ a ∨ a + 8 ≤ b) :
    readWord (writeWord m a v) b = readWord m b :=
  readWord_congr fun c _ _ => memGet_writeWord_ne m a v (by omega)

/-! ### The canonical form -/

/-- The memory after reset has the canonical form. -/
theorem memWf_reset : memWf State.reset.mem := List.Pairwise.nil

/-- A host write of a COEF word keeps it. -/
theorem State.memWf_setCoef {s : State} (h : memWf s.mem) (n : Nat) (v : Word) : memWf (s.setCoef n v).mem := by
  rw [State.setCoef_mem]
  exact memWf_writeWord h _ _

/-! ### QG -/

theorem memWf_writeQg {m : Mem} (h : memWf m) (n : Nat) (vs : List Nat) : memWf (writeQg m n vs) := by
  induction vs generalizing m n with
  | nil => exact h
  | cons v vs ih =>
    simp only [writeQg, force_eq]
    exact ih (memWf_writeWord h _ _) _

/-- The bytes outside QG[n..n+length-1] read as before. -/
theorem memGet_writeQg_ne (m : Mem) (n : Nat) (vs : List Nat) {b : Nat}
    (h : b < qgOffset n ∨ qgOffset (n + vs.length) ≤ b) : memGet (writeQg m n vs) b = memGet m b := by
  induction vs generalizing m n with
  | nil => rfl
  | cons v vs ih =>
    simp only [writeQg, force_eq]
    simp only [qgOffset, List.length_cons] at h ih ⊢
    rw [ih, memGet_writeWord_ne]
    · omega
    · omega

/-- What QG reads as after `writeQg`: entry `j` of the list in QG[n + j]. -/
theorem readWord_writeQg (m : Mem) (n : Nat) (vs : List Nat) (j : Nat) (h : j < vs.length) :
    readWord (writeQg m n vs) (qgOffset (n + j)) = some (BitVec.ofNat 64 vs[j]) := by
  induction vs generalizing m n j with
  | nil => simp at h
  | cons v vs ih =>
    simp only [writeQg, force_eq]
    cases j with
    | zero =>
      rw [show n + 0 = n from rfl, readWord_congr (m' := writeWord m (qgOffset n) (BitVec.ofNat 64 v)), readWord_writeWord]
      · rfl
      · intro b hb hb'
        apply memGet_writeQg_ne
        simp only [qgOffset] at *
        omega
    | succ j =>
      rw [show n + (j + 1) = n + 1 + j by omega, ih]
      · rfl

/-- Words outside QG[n..n+length-1] read as before. -/
theorem readWord_writeQg_ne (m : Mem) (n : Nat) (vs : List Nat) {a : Nat}
    (h : a + 8 ≤ qgOffset n ∨ qgOffset (n + vs.length) ≤ a) : readWord (writeQg m n vs) a = readWord m a :=
  readWord_congr fun b _ _ => memGet_writeQg_ne m n vs (by omega)

/-! ### COEF -/

theorem State.coef_eq (s : State) (n : Nat) : s.coef n = readWord s.mem (coefOffset n) := by simp [State.coef]

theorem State.qg_eq (s : State) (n : Nat) : s.qg n = readWord s.mem (qgOffset n) := by simp [State.qg]

/-- COEF reads back what a host write left, and only the word written changes. -/
theorem State.coef_setCoef (s : State) (n k : Nat) (v : Word) :
    (s.setCoef n v).coef k = if k = n then some v else s.coef k := by
  simp only [State.coef_eq, State.setCoef_mem]
  split_ifs with h
  · rw [h, readWord_writeWord]
  · apply readWord_writeWord_ne
    simp only [coefOffset]
    omega

/-- A write of COEF[n], n < 243, leaves QG alone. -/
theorem State.qg_setCoef (s : State) (n k : Nat) (v : Word) (h : n < 243) : (s.setCoef n v).qg k = s.qg k := by
  simp only [State.qg_eq, State.setCoef_mem]
  apply readWord_writeWord_ne
  simp only [coefOffset, qgOffset]
  omega

theorem mapM_congr_option {α β : Type} {f g : α → Option β} {l : List α} (h : ∀ k ∈ l, f k = g k) :
    l.mapM f = l.mapM g := by
  induction l with
  | nil => rfl
  | cons a l ih =>
    simp only [List.mapM_cons]
    rw [h a List.mem_cons_self, ih fun k hk => h k (List.mem_cons_of_mem _ hk)]

/-- The operands of GRIDQ are the COEF words, or `none` where one of them is unwritten. -/
theorem coefWords_eq (m : Mem) (n count : Nat) :
    coefWords m n count = (List.range' n count).mapM fun k => readWord m (coefOffset k) := by
  induction count generalizing m n with
  | zero => rfl
  | succ count ih =>
    simp only [coefWords, force_eq, forceWord_eq, List.range'_succ, List.mapM_cons]
    have : ∀ k ∈ List.range' (n + 1) count, readWord (memFrom m (coefOffset n)) (coefOffset k) = readWord m (coefOffset k) := by
      intro k hk
      apply readWord_memFrom
      simp only [List.mem_range'_1, coefOffset] at hk ⊢
      omega
    cases readWord m (coefOffset n) with
    | none => rfl
    | some v =>
      rw [ih, mapM_congr_option this]
      cases (List.range' (n + 1) count).mapM fun k => readWord m (coefOffset k) <;> rfl

/-- The bytes of a number that is read. -/
theorem memGet_of_readBytes {m : Mem} {k : Nat} : ∀ {a n : Nat}, readBytes m a k = some n →
    n < 256 ^ k ∧ ∀ j < k, memGet m (a + j) = some (BitVec.ofNat 8 (n / 256 ^ j)) := by
  induction k with
  | zero =>
    intro a n h
    simp only [readBytes, Option.some.injEq] at h
    simp [← h]
  | succ k ih =>
    intro a n h
    simp only [readBytes, force_eq] at h
    cases hb : memGet m a with
    | none => simp [hb] at h
    | some b =>
      simp only [hb] at h
      cases hr : readBytes m (a + 1) k with
      | none => simp [hr] at h
      | some n' =>
        simp only [hr, Option.some.injEq] at h
        obtain ⟨h1, h2⟩ := ih hr
        have hb' := b.isLt
        subst h
        refine ⟨by rw [Nat.pow_succ]; omega, fun j hj => ?_⟩
        cases j with
        | zero =>
          simp only [hb, Nat.add_zero, Nat.pow_zero, Nat.div_one, Option.some.injEq]
          apply BitVec.eq_of_toNat_eq
          simp only [BitVec.toNat_ofNat]
          omega
        | succ j =>
          rw [show a + (j + 1) = a + 1 + j by omega, h2 j (by omega), Nat.pow_succ', ← Nat.div_div_eq_div_mul]
          congr 3
          omega

/-- Byte `b` of a word that is read (spec/20_memory.md R72). -/
theorem memGet_of_readWord {m : Mem} {a b : Nat} {v : Word} (h : readWord m a = some v) (hb : b < 8) :
    memGet m (a + b) = some (v.extractLsb' (8 * b) 8) := by
  simp only [readWord] at h
  split at h
  · cases h
  · rename_i n hn
    cases h
    obtain ⟨h1, h2⟩ := memGet_of_readBytes hn
    rw [← memGet_memFrom m (a := a) (by omega), h2 b hb]
    congr 1
    apply BitVec.eq_of_toNat_eq
    simp only [BitVec.toNat_ofNat, BitVec.extractLsb'_toNat, Nat.shiftRight_eq_div_pow]
    rw [Nat.mod_eq_of_lt (a := n) (by omega), show 256 ^ b = 2 ^ (8 * b) by rw [Nat.pow_mul]]

end Sys2Proof.Machine
end

