-- ==== Sys2Proof/Laws/Commands.lean ====
section
/-!
SUPPORT. What the shared operations of the commands answer, and `exec_cases`: everything a command can do to the state.
-/

namespace Sys2Proof.Machine

/-! ### The NaN check -/

theorem firstNaN_eq_none {us : List F64} {k : Nat} : firstNaN us k = none ↔ ∀ u ∈ us, isNaN u = false := by
  induction us generalizing k with
  | nil => simp [firstNaN]
  | cons u us ih =>
    unfold firstNaN
    split_ifs with h
    · simp [h]
    · simp [ih, h]

/-- The index found is that of a NaN with no NaN before it. -/
theorem firstNaN_eq_some {us : List F64} {k j : Nat} :
    firstNaN us k = some j ↔
      ∃ i, ∃ h : i < us.length, j = k + i ∧ isNaN us[i] = true ∧ ∀ i', ∀ h' : i' < i, isNaN us[i'] = false := by
  induction us generalizing k with
  | nil => simp [firstNaN]
  | cons u us ih =>
    unfold firstNaN
    split_ifs with h
    · constructor
      · rintro ⟨⟩
        exact ⟨0, by simp, by simp, by simpa using h, by simp⟩
      · rintro ⟨i, hi, rfl, hn, hf⟩
        cases i with
        | zero => rfl
        | succ i => simpa [h] using hf 0 (by omega)
    · rw [ih]
      constructor
      · rintro ⟨i, hi, rfl, hn, hf⟩
        refine ⟨i + 1, by simpa using hi, by omega, by simpa using hn, fun i' h' => ?_⟩
        cases i' with
        | zero => simpa using h
        | succ i' => simpa using hf i' (by omega)
      · rintro ⟨i, hi, rfl, hn, hf⟩
        cases i with
        | zero => simp [h] at hn
        | succ i =>
          exact ⟨i, by simpa using hi, by omega, by simpa using hn, fun i' h' => by simpa using hf (i' + 1) (by omega)⟩

theorem firstNaN_lt {us : List F64} {k j : Nat} (h : firstNaN us k = some j) : j < k + us.length := by
  obtain ⟨i, hi, rfl, _⟩ := firstNaN_eq_some.1 h
  omega

/-- The NaN check either reports the first NaN or goes on. -/
theorem State.unlessNaN_cases (s : State) (us : List F64) (go : Result) :
    (∃ k, k < us.length ∧ firstNaN us 0 = some k ∧ s.unlessNaN us go = .next (s.raiseErr .nanOperand k)) ∨
      ((∀ u ∈ us, isNaN u = false) ∧ s.unlessNaN us go = go) := by
  unfold State.unlessNaN
  cases h : firstNaN us 0 with
  | none => exact .inr ⟨firstNaN_eq_none.1 h, rfl⟩
  | some k => exact .inl ⟨k, by simpa using firstNaN_lt h, rfl, rfl⟩

theorem State.unlessNaN_of_forall {s : State} {us : List F64} {go : Result} (h : ∀ u ∈ us, isNaN u = false) :
    s.unlessNaN us go = go := by
  simp [State.unlessNaN, firstNaN_eq_none.2 h]

theorem State.unlessNaN_of_first {s : State} {us : List F64} {go : Result} {k : Nat} (h : firstNaN us 0 = some k) :
    s.unlessNaN us go = .next (s.raiseErr .nanOperand k) := by
  simp [State.unlessNaN, h]

/-! ### Base 83 -/

/-- The position reported is one of the field's. -/
theorem value83_error {bs : List Byte} {k v j : Nat} (h : value83 bs k v = .error j) : k ≤ j ∧ j < k + bs.length := by
  induction bs generalizing k v with
  | nil => simp [value83] at h
  | cons b bs ih =>
    unfold value83 at h
    cases hb : idx83 b with
    | none =>
      simp only [hb, Except.error.injEq] at h
      simp [← h]
    | some d =>
      simp only [hb, force_eq] at h
      have := ih h
      simp only [List.length_cons]
      omega

theorem State.chrField_length (s : State) (len : Nat) (h : len ≤ 16) : (s.chrField len).length = len := by
  simp [State.chrField, h]

theorem State.chrField_getElem (s : State) (len k : Nat) (h : k < (s.chrField len).length) (h' : k < 16) :
    (s.chrField len)[k] = s.chr[k] := by
  simp [State.chrField]

theorem lenLegal_iff {len : Nat} : lenLegal len = true ↔ 1 ≤ len ∧ len ≤ 10 := by
  rw [lenLegal, decide_eq_true_iff, maxLen]

/-! ### The grid -/

theorem countLegal_iff {c : Nat} : countLegal c = true ↔ 1 ≤ c ∧ c ≤ 9 := by
  rw [countLegal, decide_eq_true_iff, countMax]

theorem coefWords_eq_some {m : Mem} {n count : Nat} {ws : List Word} :
    coefWords m n count = some ws ↔
      ws.length = count ∧ ∀ k, ∀ h : k < ws.length, readWord m (coefOffset (n + k)) = some ws[k] := by
  rw [coefWords_eq]
  induction count generalizing n ws with
  | zero =>
    constructor
    · rintro ⟨⟩
      simp
    · rintro ⟨h, _⟩
      rw [List.length_eq_zero_iff] at h
      subst h
      rfl
  | succ count ih =>
    rw [List.range'_succ, List.mapM_cons]
    constructor
    · intro h
      cases hr : readWord m (coefOffset n) with
      | none => simp [hr] at h
      | some v =>
        cases hs : (List.range' (n + 1) count).mapM fun k => readWord m (coefOffset k) with
        | none => simp [hr, hs] at h
        | some vs =>
          simp only [hr, hs, Option.bind_eq_bind, Option.bind_some, Option.pure_def, Option.some.injEq] at h
          subst h
          obtain ⟨h1, h2⟩ := ih.1 hs
          refine ⟨by simp [h1], fun k hk => ?_⟩
          cases k with
          | zero => simpa using hr
          | succ k =>
            rw [show n + (k + 1) = n + 1 + k by omega]
            exact h2 k (by simpa using hk)
    · rintro ⟨h1, h2⟩
      cases ws with
      | nil => simp at h1
      | cons v vs =>
        have hr := h2 0 (by simp)
        have hs : ((List.range' (n + 1) count).mapM fun k => readWord m (coefOffset k)) = some vs :=
          ih.2 ⟨by simpa using h1, fun k hk => by
            have := h2 (k + 1) (by simpa using hk)
            rwa [show n + (k + 1) = n + 1 + k by omega] at this⟩
        simp only [Nat.add_zero, List.getElem_cons_zero] at hr
        simp [hr, hs]

/-- The words cannot be read exactly where one of them is unwritten. -/
theorem coefWords_eq_none {m : Mem} {n count : Nat} :
    coefWords m n count = none ↔ ∃ k, k < count ∧ readWord m (coefOffset (n + k)) = none := by
  rw [coefWords_eq]
  induction count generalizing n with
  | zero => simp
  | succ count ih =>
    rw [List.range'_succ, List.mapM_cons]
    constructor
    · intro h
      cases hr : readWord m (coefOffset n) with
      | none => exact ⟨0, by omega, by simpa using hr⟩
      | some v =>
        cases hs : (List.range' (n + 1) count).mapM fun k => readWord m (coefOffset k) with
        | some vs => simp [hr, hs] at h
        | none =>
          obtain ⟨k, hk, hk'⟩ := ih.1 hs
          exact ⟨k + 1, by omega, by rwa [show n + (k + 1) = n + 1 + k by omega]⟩
    · rintro ⟨k, hk, hk'⟩
      cases hr : readWord m (coefOffset n) with
      | none => simp
      | some v =>
        cases k with
        | zero => simp [hr] at hk'
        | succ k =>
          have := ih.2 ⟨k, by omega, by rwa [show n + (k + 1) = n + 1 + k by omega] at hk'⟩
          simp [this]

theorem length_acValues (mv : F64) : ∀ {n : Nat} {us : List F64}, us.length = 3 * n → (acValues mv us).length = n
  | 0, us, h => by
    obtain rfl : us = [] := List.length_eq_zero_iff.1 (by omega)
    rfl
  | n + 1, us, h => by
    match us, h with
    | r :: g :: b :: us, h =>
      simp only [acValues, force_eq, List.length_cons] at h ⊢
      rw [length_acValues mv (n := n) (by omega)]

/-- Entry `k` is the packed AC value of channel words `3k`, `3k + 1`, `3k + 2`. -/
theorem getElem_acValues (mv : F64) : ∀ {n : Nat} {us : List F64} (hus : us.length = 3 * n) (k : Nat) (hk : k < n)
    (h : k < (acValues mv us).length),
    (acValues mv us)[k] = packAc (acBin (fdiv us[3 * k] mv)) (acBin (fdiv us[3 * k + 1] mv)) (acBin (fdiv us[3 * k + 2] mv))
  | 0, _, _, k, hk, _ => by omega
  | n + 1, us, hus, k, hk, h => by
    match us, hus with
    | r :: g :: b :: us, hus =>
      simp only [acValues, force_eq] at h ⊢
      cases k with
      | zero => rfl
      | succ k =>
        simp only [List.length_cons] at hus
        have := getElem_acValues mv (n := n) (us := us) (by omega) k (by omega) (by simpa using h)
        simp only [List.getElem_cons_succ, this, show 3 * (k + 1) = 3 * k + 3 by omega,
          show 3 * k + 3 + 1 = 3 * k + 1 + 3 by omega, show 3 * k + 3 + 2 = 3 * k + 2 + 3 by omega]

/-- A completion with results: the registers, CHR and a prefix of QG. -/
def State.withResults (s : State) (res : Vector Word 4) (chr : Vector Byte 16) (vs : List Nat) : State :=
  { s with res := res, chr := chr, mem := writeQg s.mem 0 vs }

section CommitGrid
variable (s : State) (cx cy : Nat) (ws : List F64)

@[simp] theorem State.commitGrid_status : (s.commitGrid cx cy ws).status = s.status := by simp [State.commitGrid]
@[simp] theorem State.commitGrid_op : (s.commitGrid cx cy ws).op = s.op := by simp [State.commitGrid]
@[simp] theorem State.commitGrid_chr : (s.commitGrid cx cy ws).chr = s.chr := by simp [State.commitGrid]
@[simp] theorem State.commitGrid_pend : (s.commitGrid cx cy ws).pend = s.pend := by simp [State.commitGrid]
@[simp] theorem State.commitGrid_turns : (s.commitGrid cx cy ws).turns = s.turns := by simp [State.commitGrid]
@[simp] theorem State.commitGrid_replies : (s.commitGrid cx cy ws).replies = s.replies := by simp [State.commitGrid]
@[simp] theorem State.commitGrid_faults : (s.commitGrid cx cy ws).faults = s.faults := by simp [State.commitGrid]

theorem State.commitGrid_mem : (s.commitGrid cx cy ws).mem =
    writeQg s.mem 0 (dcValue ws :: acValues (maxValueOf (amaxQuant (maxMagnitude (ws.drop 3) k0))) (ws.drop 3)) := by
  simp [State.commitGrid]

theorem State.commitGrid_res : (s.commitGrid cx cy ws).res =
    (((s.res.set 0 (BitVec.ofNat 64 (sizeFlag cx cy))).set 1
      (BitVec.ofNat 64 (amaxQuant (maxMagnitude (ws.drop 3) k0)))).set 2
      (maxValueOf (amaxQuant (maxMagnitude (ws.drop 3) k0)))).set 3 (maxMagnitude (ws.drop 3) k0) := by
  simp [State.commitGrid]

theorem State.commitGrid_eq : s.commitGrid cx cy ws = s.withResults (s.commitGrid cx cy ws).res s.chr
    (dcValue ws :: acValues (maxValueOf (amaxQuant (maxMagnitude (ws.drop 3) k0))) (ws.drop 3)) := by
  simp [State.commitGrid, State.withResults]

end CommitGrid

/-! ### All commands -/

/-- Everything a command can do: report an error, commit results, or, GRIDQ alone, fault on an unwritten word. -/
theorem exec_cases (i : Instr) (s : State) :
    (∃ e k, k ≤ 242 ∧ e ∈ [CmdError.invalidCharacter, .invalidComponents, .illegalCommand, .nanOperand] ∧
      exec i s = .next (s.raiseErr e k)) ∨
    (∃ res chr vs, vs.length ≤ nQg ∧ exec i s = .next (s.withResults res chr vs).succeed) ∨
    ((∃ cx cy, i = .gridq cx cy) ∧ exec i s = .fault .unwrittenOperand) := by
  have nan {us : List F64} {go : Result} (hus : us.length ≤ 243)
      (hgo : ∃ res chr vs, vs.length ≤ nQg ∧ go = .next (s.withResults res chr vs).succeed) :
      (∃ e k, k ≤ 242 ∧ e ∈ [CmdError.invalidCharacter, .invalidComponents, .illegalCommand, .nanOperand] ∧
        s.unlessNaN us go = .next (s.raiseErr e k)) ∨
      (∃ res chr vs, vs.length ≤ nQg ∧ s.unlessNaN us go = .next (s.withResults res chr vs).succeed) := by
    rcases s.unlessNaN_cases us go with ⟨k, hk, _, h⟩ | ⟨_, h⟩
    · exact .inl ⟨_, k, by omega, by simp, h⟩
    · rw [h]
      exact .inr hgo
  have setRes (k : Fin 4) (v : Word) : (s.setRes k v).succeed = (s.withResults (s.res.set k v) s.chr []).succeed := by
    simp [State.setRes, State.withResults, writeQg]
  have setRes2 (k k' : Fin 4) (v v' : Word) : ((s.setRes k v).setRes k' v').succeed =
      (s.withResults ((s.res.set k v).set k' v') s.chr []).succeed := by
    simp [State.setRes, State.withResults, writeQg]
  have done (k : Fin 4) (v : Word) : ∃ res chr vs, vs.length ≤ nQg ∧
      (.next (s.setRes k v).succeed : Result) = .next (s.withResults res chr vs).succeed :=
    ⟨_, _, [], by simp, by rw [setRes]⟩
  cases i with
  | nop => exact .inr (.inl ⟨s.res, s.chr, [], by simp, rfl⟩)
  | b83enc len =>
    simp only [exec, execB83enc, force_eq]
    split_ifs with h
    · exact .inr (.inl ⟨s.res, _, [], by simp, rfl⟩)
    · exact .inl ⟨_, 0, by omega, by simp, rfl⟩
  | b83dec len =>
    simp only [exec, execB83dec]
    split_ifs with h
    · cases hv : value83 (s.chrField len.toNat) 0 0 with
      | error k =>
        have h1 := value83_error hv
        have h2 := lenLegal_iff.1 h
        rw [State.chrField_length _ _ (by omega)] at h1
        exact .inl ⟨_, k, by omega, by simp, rfl⟩
      | ok v => exact .inr (.inl (done _ _))
    · exact .inl ⟨_, 0, by omega, by simp, rfl⟩
  | s2l => exact .inr (.inl (done _ _))
  | l2s => exact (nan (by simp) (done _ _)).imp_right .inl
  | spowh => exact (nan (by simp) (done _ _)).imp_right .inl
  | spowg => exact (nan (by simp) (done _ _)).imp_right .inl
  | spows => exact (nan (by simp) (done _ _)).imp_right .inl
  | dcq => exact (nan (by simp) (done _ _)).imp_right .inl
  | amaxq =>
    refine (nan (by simp) ?_).imp_right .inl
    simp only [force_eq]
    exact ⟨_, _, [], by simp, by rw [setRes2]⟩
  | acq =>
    simp only [exec, execAcq]
    rcases s.unlessNaN_cases [s.opFloat 0, s.opFloat 1, s.opFloat 2, s.opFloat 3] _ with ⟨k, hk, _, h⟩ | ⟨_, h⟩
    · exact .inl ⟨_, k, by simp at hk; omega, by simp, h⟩
    · rw [h]
      cases acf1 (s.opFloat 0) (s.opFloat 3) with
      | none => exact .inl ⟨_, 4, by omega, by simp, rfl⟩
      | some qr =>
        cases acf1 (s.opFloat 1) (s.opFloat 3) with
        | none => exact .inl ⟨_, 5, by omega, by simp, rfl⟩
        | some qg =>
          cases acf1 (s.opFloat 2) (s.opFloat 3) with
          | none => exact .inl ⟨_, 6, by omega, by simp, rfl⟩
          | some qb => exact .inr (.inl (done _ _))
  | gridq cx cy =>
    simp only [exec, execGridq]
    by_cases hx : countLegal cx.toNat = true
    · by_cases hy : countLegal cy.toNat = true
      · simp only [hx, hy, Bool.not_true, Bool.false_eq_true, if_false]
        cases hw : coefWords s.mem 0 (3 * (cx.toNat * cy.toNat)) with
        | none => exact .inr (.inr ⟨⟨_, _, rfl⟩, rfl⟩)
        | some ws =>
          have h1 := (coefWords_eq_some.1 hw).1
          have h2 := countLegal_iff.1 hx
          have h3 := countLegal_iff.1 hy
          have h4 : cx.toNat * cy.toNat ≤ 9 * 9 := Nat.mul_le_mul h2.2 h3.2
          have h5 : 1 * 1 ≤ cx.toNat * cy.toNat := Nat.mul_le_mul h2.1 h3.1
          refine (nan (by omega) ⟨(s.commitGrid cx.toNat cy.toNat ws).res, s.chr,
            dcValue ws :: acValues (maxValueOf (amaxQuant (maxMagnitude (ws.drop 3) k0))) (ws.drop 3), ?_, ?_⟩).imp_right .inl
          · rw [List.length_cons, length_acValues _ (n := cx.toNat * cy.toNat - 1) (by simp; omega)]
            simp only [nQg]
            omega
          · rw [← State.commitGrid_eq]
      · simp only [hx, hy, Bool.not_true, Bool.not_false, Bool.false_eq_true, if_false, if_true]
        exact .inl ⟨_, 1, by omega, by simp, rfl⟩
    · simp only [hx, Bool.not_false, if_true]
      exact .inl ⟨_, 0, by omega, by simp, rfl⟩

/-! ### Completions -/

/-- `raiseErr` is a completion with the error's report. -/
theorem State.raiseErr_fails (s : State) (e : CmdError) (k : Nat) (h : k < 256) : Fails s (s.raiseErr e k) e.code.toNat k := by
  refine ⟨⟨rfl, rfl, rfl, rfl, rfl, rfl, fun a _ => rfl, rfl⟩, rfl, rfl, ?_, rfl, rfl, fun a => rfl⟩
  simp
  omega

/-- Committing results is a completion without an error. -/
theorem State.withResults_succeeds (s : State) (res : Vector Word 4) (chr : Vector Byte 16) (vs : List Nat)
    (h : vs.length ≤ nQg) : Succeeds s (s.withResults res chr vs).succeed := by
  refine ⟨⟨rfl, rfl, rfl, rfl, rfl, rfl, fun a ha => ?_, rfl⟩, rfl, rfl, rfl⟩
  exact memGet_writeQg_ne s.mem 0 vs (by simp only [qgOffset, nQg] at *; omega)

/-- A command with one result register. -/
theorem State.setRes_succeeds (s : State) (k : Fin 4) (v : Word) :
    Succeeds s (s.setRes k v).succeed ∧ KeepsRes s (s.setRes k v).succeed [k] ∧ (s.setRes k v).succeed.res[k] = v := by
  refine ⟨⟨⟨rfl, rfl, rfl, rfl, rfl, rfl, fun a _ => rfl, rfl⟩, rfl, rfl, rfl⟩, fun j hj => ?_, by simp⟩
  simp only [List.mem_singleton] at hj
  have : k.val ≠ j.val := fun h => hj (Fin.ext h.symm)
  simp [this]

end Sys2Proof.Machine
end

