-- ==== Sys2Proof/Laws/Float.lean ====
section
/-!
SUPPORT. The binary64 patterns and their values, and what `roundMag` answers: the pattern that the halfway points on
both sides single out (`roundMag_rounds`). Everything about the rounded operations is drawn from `Rounds`.
-/

namespace Sys2Proof.Machine

/-! ### Patterns and values -/

theorem log2Below_spec (k : Nat) : ∀ {n : Nat}, 0 < n → n < 2 ^ 2 ^ k →
    2 ^ log2Below k n ≤ n ∧ n < 2 ^ (log2Below k n + 1) := by
  induction k with
  | zero =>
    intro n h0 h
    have : n = 1 := by
      norm_num at h
      omega
    subst this
    decide
  | succ k ih =>
    intro n h0 h
    simp only [log2Below, force_eq]
    rw [Nat.pow_succ, Nat.mul_comm, two_mul, Nat.pow_add] at h
    split_ifs with hk
    · have hp : 0 < 2 ^ 2 ^ k := Nat.two_pow_pos _
      obtain ⟨h1, h2⟩ := ih (n := n / 2 ^ 2 ^ k) (Nat.div_pos hk hp) (Nat.div_lt_of_lt_mul h)
      rw [Nat.pow_add, Nat.add_assoc, Nat.pow_add]
      exact ⟨by rw [Nat.mul_comm]; exact (Nat.le_div_iff_mul_le hp).1 h1,
        by rw [Nat.mul_comm]; exact (Nat.div_lt_iff_lt_mul hp).1 h2⟩
    · exact ih h0 (by omega)

theorem log2Below_zero (k : Nat) : log2Below k 0 = 0 := by
  induction k with
  | zero => rfl
  | succ k ih => simp [log2Below, ih]

theorem log2Below_bounds {n e : Nat} (he : e ≤ 2 ^ 12) (h0 : 0 < n) (h : n < 2 ^ e) :
    2 ^ log2Below 12 n ≤ n ∧ n < 2 ^ (log2Below 12 n + 1) :=
  log2Below_spec 12 h0 (h.trans_le (Nat.pow_le_pow_right Nat.zero_lt_two he))

/-- The value of the pattern made of a significand and an exponent. -/
theorem magUnits_pattern {m sh : Nat} (hm : m ≤ 2 ^ 53) (h : sh = 0 ∨ 2 ^ 52 ≤ m) :
    magUnits (m + sh * 2 ^ 52) = m * 2 ^ sh := by
  unfold magUnits
  rcases Nat.lt_or_ge m (2 ^ 52) with h1 | h1
  · obtain rfl : sh = 0 := by omega
    have e1 : (m + 0 * 2 ^ 52) / 2 ^ 52 = 0 := by omega
    have e2 : (m + 0 * 2 ^ 52) % 2 ^ 52 = m := by omega
    rw [if_pos e1, e2]
    simp
  · rcases Nat.lt_or_ge m (2 ^ 53) with h2 | h2
    · have e1 : (m + sh * 2 ^ 52) / 2 ^ 52 = sh + 1 := by omega
      have e2 : (m + sh * 2 ^ 52) % 2 ^ 52 = m - 2 ^ 52 := by omega
      rw [e1, e2, if_neg (by omega), show 2 ^ 52 + (m - 2 ^ 52) = m by omega]
      simp
    · obtain rfl : m = 2 ^ 53 := by omega
      have e1 : (2 ^ 53 + sh * 2 ^ 52) / 2 ^ 52 = sh + 2 := by omega
      have e2 : (2 ^ 53 + sh * 2 ^ 52) % 2 ^ 52 = 0 := by omega
      rw [e1, e2, if_neg (by omega), show sh + 2 - 1 = sh + 1 by omega, Nat.pow_succ]
      omega

/-- Every pattern is made of a significand and an exponent. -/
theorem pattern_exists (p : Nat) : ∃ m sh, p = m + sh * 2 ^ 52 ∧ m < 2 ^ 53 ∧ (sh = 0 ∨ 2 ^ 52 ≤ m) := by
  rcases Nat.lt_or_ge p (2 ^ 52) with h | h
  · exact ⟨p, 0, by omega, by omega, .inl rfl⟩
  · exact ⟨p % 2 ^ 52 + 2 ^ 52, p / 2 ^ 52 - 1, by omega, by omega, .inr (by omega)⟩

/-- Neighbouring patterns have rising values. -/
theorem magUnits_strictMono : StrictMono magUnits := by
  refine strictMono_nat_of_lt_succ fun p => ?_
  obtain ⟨m, sh, rfl, hm, h⟩ := pattern_exists p
  rw [show m + sh * 2 ^ 52 + 1 = (m + 1) + sh * 2 ^ 52 by omega, magUnits_pattern (by omega) h,
    magUnits_pattern (by omega) (by omega)]
  exact Nat.mul_lt_mul_of_pos_right (by omega) (Nat.two_pow_pos _)

theorem magUnits_zero : magUnits 0 = 0 := by decide

theorem magUnits_infMag : magUnits infMag = 2 ^ 2098 := by
  have h (k : Nat) : magUnits (2 ^ 52 + k * 2 ^ 52) = 2 ^ (52 + k) := by
    rw [magUnits_pattern (by omega) (.inr le_rfl), ← Nat.pow_add]
  rw [show infMag = 2 ^ 52 + 2046 * 2 ^ 52 by decide, h]

theorem halfBelow_lt (p : Nat) (h : 0 < p) : halfBelow p < 2 * magUnits p := by
  have := magUnits_strictMono (show p - 1 < p by omega)
  unfold halfBelow
  omega

theorem lt_halfBelow (p : Nat) (h : 0 < p) : 2 * magUnits (p - 1) < halfBelow p := by
  have := magUnits_strictMono (show p - 1 < p by omega)
  unfold halfBelow
  omega

/-! ### Rounding -/

/-- The real `x` (in units of 2^-1074) rounds to the sign-free pattern `r`: a pattern is at most `r` exactly where `x` lies
above the halfway point below it, or on it with the pattern even. -/
def Rounds (x : ℝ) (r : Nat) : Prop :=
  r ≤ infMag ∧
    ∀ p, 0 < p → p ≤ infMag → (p ≤ r ↔ (halfBelow p : ℝ) < 2 * x ∨ ((halfBelow p : ℝ) = 2 * x ∧ p % 2 = 0))

/-- A value rounds to one pattern only. -/
theorem Rounds.unique {x : ℝ} {r r' : Nat} (h : Rounds x r) (h' : Rounds x r') : r = r' := by
  apply Nat.le_antisymm
  · rcases Nat.eq_zero_or_pos r with h0 | h0
    · omega
    · exact (h'.2 r h0 h.1).2 ((h.2 r h0 h.1).1 le_rfl)
  · rcases Nat.eq_zero_or_pos r' with h0 | h0
    · omega
    · exact (h.2 r' h0 h'.1).2 ((h'.2 r' h0 h'.1).1 le_rfl)

/-- Rounding is monotone. -/
theorem Rounds.mono {x y : ℝ} {r r' : Nat} (h : Rounds x r) (h' : Rounds y r') (hxy : x ≤ y) : r ≤ r' := by
  rcases Nat.eq_zero_or_pos r with h0 | h0
  · omega
  · refine (h'.2 r h0 h.1).2 ?_
    rcases (h.2 r h0 h.1).1 le_rfl with hp | ⟨hp, he⟩
    · exact .inl (by linarith)
    · rcases hxy.lt_or_eq with hlt | rfl
      · exact .inl (by linarith)
      · exact .inr ⟨hp, he⟩

/-- The value of a pattern rounds to that pattern. -/
theorem rounds_magUnits {r : Nat} (h : r ≤ infMag) : Rounds (magUnits r) r := by
  refine ⟨h, fun p h0 _ => ⟨fun hpr => .inl ?_, fun hp => ?_⟩⟩
  · have h1 := halfBelow_lt p h0
    have h2 := magUnits_strictMono.monotone hpr
    exact_mod_cast (show halfBelow p < 2 * magUnits r by omega)
  · by_contra hr
    have h1 := lt_halfBelow p h0
    have h2 := magUnits_strictMono.monotone (show r ≤ p - 1 by omega)
    have h3 : (halfBelow p : ℝ) ≤ 2 * magUnits r := by
      rcases hp with hp | ⟨hp, _⟩
      · exact hp.le
      · exact hp.le
    have h4 : halfBelow p ≤ 2 * magUnits r := by exact_mod_cast h3
    omega

/-- A value at most that of a pattern rounds to at most that pattern. -/
theorem Rounds.le_of_le {x : ℝ} {r p : Nat} (h : Rounds x r) (hp : p ≤ infMag) (hx : x ≤ magUnits p) : r ≤ p :=
  h.mono (rounds_magUnits hp) hx

/-- A value at least that of a pattern rounds to at least that pattern. -/
theorem Rounds.le_of_ge {x : ℝ} {r p : Nat} (h : Rounds x r) (hp : p ≤ infMag) (hx : (magUnits p : ℝ) ≤ x) : p ≤ r :=
  (rounds_magUnits hp).mono h hx

/-- What `roundMag n d` answers: the pattern `n / d` units of 2^-1074 round to. -/
theorem roundMag_rounds (n : Nat) {d : Nat} (hd : 0 < d) : Rounds ((n : ℝ) / d) (roundMag n d) := by
  have key : roundMag n d ≤ infMag ∧ ∀ p, 0 < p → p ≤ infMag →
      (p ≤ roundMag n d ↔ halfBelow p * d < 2 * n ∨ (halfBelow p * d = 2 * n ∧ p % 2 = 0)) := by
    unfold roundMag
    simp only [force_eq]
    by_cases hq : 2 ^ 2098 ≤ n / d
    · rw [if_pos hq]
      refine ⟨le_rfl, fun p h0 hp => ⟨fun _ => .inl ?_, fun _ => hp⟩⟩
      have h1 := halfBelow_lt p h0
      have h2 := magUnits_strictMono.monotone hp
      rw [magUnits_infMag] at h2
      calc halfBelow p * d < 2 * 2 ^ 2098 * d := Nat.mul_lt_mul_of_pos_right (by omega) hd
        _ ≤ 2 * n := by rw [Nat.mul_assoc]; exact Nat.mul_le_mul_left _ ((Nat.le_div_iff_mul_le hd).1 hq)
    · rw [if_neg hq]
      generalize hl : log2Below 12 (n / d) = l
      generalize hsh : l - 52 = sh
      have hulp : 0 < d * 2 ^ sh := Nat.mul_pos hd (Nat.two_pow_pos _)
      have hm : n / (d * 2 ^ sh) < 2 ^ 53 ∧ (sh = 0 ∨ 2 ^ 52 ≤ n / (d * 2 ^ sh)) := by
        rw [← Nat.div_div_eq_div_mul]
        rcases Nat.eq_zero_or_pos (n / d) with h0 | h0
        · rw [h0] at hl ⊢
          rw [log2Below_zero] at hl
          exact ⟨by simp, .inl (by omega)⟩
        · obtain ⟨h1, h2⟩ := log2Below_bounds (by norm_num) h0 (Nat.not_le.1 hq)
          rw [hl] at h1 h2
          refine ⟨Nat.div_lt_of_lt_mul ?_, ?_⟩
          · rw [← Nat.pow_add]
            exact lt_of_lt_of_le h2 (Nat.pow_le_pow_right (by omega) (by omega))
          · rcases Nat.eq_zero_or_pos sh with h3 | h3
            · exact .inl h3
            · refine .inr ((Nat.le_div_iff_mul_le (Nat.two_pow_pos _)).2 ?_)
              rw [← Nat.pow_add, show 52 + sh = l by omega]
              exact h1
      have hn := Nat.div_add_mod n (d * 2 ^ sh)
      have hr := Nat.mod_lt n hulp
      generalize n / (d * 2 ^ sh) = m at *
      generalize n % (d * 2 ^ sh) = r at *
      obtain ⟨hm1, hm2⟩ := hm
      have hP : magUnits (m + sh * 2 ^ 52) = m * 2 ^ sh := magUnits_pattern hm1.le hm2
      have hP1 : magUnits (m + sh * 2 ^ 52 + 1) = (m + 1) * 2 ^ sh := by
        rw [show m + sh * 2 ^ 52 + 1 = (m + 1) + sh * 2 ^ 52 by omega]
        exact magUnits_pattern (by omega) (by omega)
      have eP : magUnits (m + sh * 2 ^ 52) * d = m * (d * 2 ^ sh) := by rw [hP]; ring
      have eP1 : magUnits (m + sh * 2 ^ 52 + 1) * d = m * (d * 2 ^ sh) + d * 2 ^ sh := by rw [hP1]; ring
      rw [Nat.mul_comm (d * 2 ^ sh) m] at hn
      generalize hulpd : d * 2 ^ sh = ulp at *
      generalize hmu : m * ulp = mu at *
      generalize hPd : m + sh * 2 ^ 52 = P at *
      have hpar : P % 2 = m % 2 := by omega
      refine ⟨min_le_right _ _, fun p h0 hp => ?_⟩
      rw [le_min_iff, and_iff_left hp]
      have hround : (if 2 * r < ulp then m else if ulp < 2 * r then m + 1 else m + m % 2) + sh * 2 ^ 52 =
          if 2 * r < ulp then P else if ulp < 2 * r then P + 1 else P + P % 2 := by
        split_ifs <;> omega
      rw [hround]
      rcases Nat.lt_trichotomy p (P + 1) with h | h | h
      · have h1 := halfBelow_lt p h0
        have h2 := magUnits_strictMono.monotone (show p ≤ P by omega)
        have h3 : halfBelow p * d < 2 * mu := by
          calc halfBelow p * d < 2 * magUnits p * d := Nat.mul_lt_mul_of_pos_right h1 hd
            _ ≤ 2 * (magUnits P * d) := by rw [Nat.mul_assoc]; exact Nat.mul_le_mul_left _ (Nat.mul_le_mul_right _ h2)
            _ = 2 * mu := by rw [eP]
        constructor
        · intro _
          exact .inl (by omega)
        · intro _
          split_ifs <;> omega
      · subst h
        have h1 : halfBelow (P + 1) * d = 2 * mu + ulp := by
          rw [halfBelow, Nat.add_sub_cancel, Nat.add_mul, eP, eP1]
          omega
        rw [h1]
        split_ifs <;> omega
      · have h1 := lt_halfBelow p h0
        have h2 := magUnits_strictMono.monotone (show P + 1 ≤ p - 1 by omega)
        have h3 : 2 * (mu + ulp) < halfBelow p * d := by
          calc 2 * (mu + ulp) = 2 * (magUnits (P + 1) * d) := by rw [eP1]
            _ ≤ 2 * magUnits (p - 1) * d := by rw [Nat.mul_assoc]; exact Nat.mul_le_mul_left _ (Nat.mul_le_mul_right _ h2)
            _ < halfBelow p * d := Nat.mul_lt_mul_of_pos_right h1 hd
        constructor
        · intro h4
          split_ifs at h4 <;> omega
        · intro h4
          omega
  refine ⟨key.1, fun p h0 hp => (key.2 p h0 hp).trans ?_⟩
  have hd' : (0 : ℝ) < d := by exact_mod_cast hd
  rw [← mul_div_assoc, lt_div_iff₀ hd', eq_div_iff hd'.ne']
  norm_cast

theorem roundMag_le_infMag (n : Nat) {d : Nat} (hd : 0 < d) : roundMag n d ≤ infMag := (roundMag_rounds n hd).1

/-- Only the quotient counts. -/
theorem roundMag_mono {n d n' d' : Nat} (hd : 0 < d) (hd' : 0 < d') (h : n * d' ≤ n' * d) :
    roundMag n d ≤ roundMag n' d' := by
  refine (roundMag_rounds n hd).mono (roundMag_rounds n' hd') ?_
  rw [div_le_div_iff₀ (by exact_mod_cast hd) (by exact_mod_cast hd')]
  exact_mod_cast h

/-- A value that is a pattern's is not rounded. -/
theorem roundMag_magUnits {r d : Nat} (hd : 0 < d) (h : r ≤ infMag) : roundMag (magUnits r * d) d = r := by
  refine (roundMag_rounds _ hd).unique ?_
  have hd' : (d : ℝ) ≠ 0 := by exact_mod_cast hd.ne'
  rw [Nat.cast_mul, mul_div_cancel_right₀ _ hd']
  exact rounds_magUnits h

end Sys2Proof.Machine
end

