-- ==== Sys2Proof/Laws/Power.lean ====
section
/-!
SUPPORT. The power: the integer square roots are exact, a bracket stays a bracket, the exact search finds the pattern the
real power rounds to, and so does `powcr` (`powcr_rounds`).
-/

namespace Sys2Proof.Machine

/-! ### Square roots -/

theorem sqrt_le_newton_step (n : Nat) {x : Nat} (hx : 0 < x) : Nat.sqrt n ≤ (x + n / x) / 2 := by
  have h := Nat.sqrt_le n
  generalize Nat.sqrt n = r at *
  rw [Nat.le_div_iff_mul_le Nat.zero_lt_two]
  rcases Nat.le_total (r * 2) x with h1 | h1
  · exact h1.trans (Nat.le_add_right _ _)
  · have : (r * 2 - x) * x ≤ n := by
      zify [h1] at *
      nlinarith [sq_nonneg ((r : ℤ) - x)]
    have h3 := (Nat.le_div_iff_mul_le hx).2 this
    generalize n / x = q at *
    omega

theorem newton_eq (n fuel : Nat) : ∀ {x : Nat}, Nat.sqrt n ≤ x → x ≤ fuel → newton n fuel x = Nat.sqrt n := by
  induction fuel with
  | zero =>
    intro x h1 h2
    simp only [newton]
    omega
  | succ fuel ih =>
    intro x h1 h2
    simp only [newton, force_eq]
    split_ifs with h
    · exact ih (sqrt_le_newton_step n (Nat.pos_of_ne_zero fun h0 => by simp [h0] at h)) (Nat.le_of_lt_succ (h.trans_le h2))
    · refine Nat.le_antisymm ?_ h1
      rw [Nat.le_sqrt]
      rcases Nat.eq_zero_or_pos x with h0 | h0
      · simp [h0]
      · refine (Nat.le_div_iff_mul_le h0).1 ?_
        generalize n / x = q at *
        omega

theorem isqrtFrom_eq (g n : Nat) : isqrtFrom g n = Nat.sqrt n := by
  simp only [isqrtFrom, force_eq]
  refine newton_eq n _ ?_ le_rfl
  have := sqrt_le_newton_step n (x := g + 1) (by omega)
  omega

theorem isqrtFrom_sq_le (g n : Nat) : isqrtFrom g n ^ 2 ≤ n := by
  rw [isqrtFrom_eq, sq]
  exact Nat.sqrt_le n

theorem le_csqrtFrom_sq (g n : Nat) : n ≤ csqrtFrom g n ^ 2 := by
  simp only [csqrtFrom, force_eq, isqrtFrom_eq, sq]
  split_ifs with h
  · exact h.ge
  · exact (Nat.lt_succ_sqrt n).le

/-! ### The bracket -/

/-- `b` brackets the value `y` in the context's scale. -/
def Bracket.Holds (c : PowCtx) (b : Bracket) (y : ℝ) : Prop :=
  (b.lo : ℝ) * 2 ^ b.z ≤ y * 2 ^ c.bias ∧ y * 2 ^ c.bias ≤ b.hi * 2 ^ b.z

/-- A context for the base `a`. -/
structure PowCtx.For (c : PowCtx) (a : ℝ) : Prop where
  digits : 52 ≤ c.w
  scale : c.w ≤ c.bias
  room : c.w ≤ c.ea
  value : (c.sig : ℝ) * 2 ^ c.ea = a * 2 ^ c.bias

theorem bracket_step {w bias sig ea lo hi lo' hi' z e : Nat} {y a : ℝ} (hy : 0 ≤ y) (ha : 0 ≤ a) (hw : 52 ≤ w)
    (hroom : w ≤ ea + 52) (hval : (sig : ℝ) * 2 ^ ea = a * 2 ^ bias) (he : e = z + ea - (w - 52))
    (hlo : (lo : ℝ) * 2 ^ z ≤ y * 2 ^ bias) (hhi : y * 2 ^ bias ≤ (hi : ℝ) * 2 ^ z)
    (hlo' : lo' ^ 2 ≤ lo * (sig * 2 ^ (w - 52 + e % 2))) (hhi' : hi * (sig * 2 ^ (w - 52 + e % 2)) ≤ hi' ^ 2) :
    (lo' : ℝ) * 2 ^ (e / 2) ≤ Real.sqrt (y * a) * 2 ^ bias ∧
      Real.sqrt (y * a) * 2 ^ bias ≤ (hi' : ℝ) * 2 ^ (e / 2) := by
  have hexp : w - 52 + e % 2 + e / 2 * 2 = z + ea := by omega
  have hsq : (Real.sqrt (y * a) * 2 ^ bias) ^ 2 = y * 2 ^ bias * (sig * 2 ^ ea) := by
    rw [mul_pow, Real.sq_sqrt (mul_nonneg hy ha), hval]
    ring
  have hmove (x : ℝ) : x * (sig * 2 ^ (w - 52 + e % 2)) * 2 ^ (e / 2 * 2) = x * 2 ^ z * (sig * 2 ^ ea) := by
    rw [show x * (sig * 2 ^ (w - 52 + e % 2)) * 2 ^ (e / 2 * 2) = x * sig * 2 ^ (w - 52 + e % 2 + e / 2 * 2) by
      rw [pow_add]; ring, hexp, pow_add]
    ring
  have hpos : (0 : ℝ) ≤ Real.sqrt (y * a) * 2 ^ bias := by positivity
  have h1 : (lo' : ℝ) ^ 2 ≤ lo * (sig * 2 ^ (w - 52 + e % 2)) := by exact_mod_cast hlo'
  have h2 : (hi : ℝ) * (sig * 2 ^ (w - 52 + e % 2)) ≤ (hi' : ℝ) ^ 2 := by exact_mod_cast hhi'
  constructor
  · refine le_of_sq_le_sq ?_ hpos
    calc ((lo' : ℝ) * 2 ^ (e / 2)) ^ 2 = (lo' : ℝ) ^ 2 * 2 ^ (e / 2 * 2) := by rw [mul_pow, ← pow_mul]
      _ ≤ (lo : ℝ) * (sig * 2 ^ (w - 52 + e % 2)) * 2 ^ (e / 2 * 2) := by gcongr
      _ = (lo : ℝ) * 2 ^ z * (sig * 2 ^ ea) := hmove lo
      _ ≤ y * 2 ^ bias * (sig * 2 ^ ea) := by gcongr
      _ = (Real.sqrt (y * a) * 2 ^ bias) ^ 2 := hsq.symm
  · refine le_of_sq_le_sq ?_ (by positivity)
    calc (Real.sqrt (y * a) * 2 ^ bias) ^ 2 = y * 2 ^ bias * (sig * 2 ^ ea) := hsq
      _ ≤ (hi : ℝ) * 2 ^ z * (sig * 2 ^ ea) := by gcongr
      _ = (hi : ℝ) * (sig * 2 ^ (w - 52 + e % 2)) * 2 ^ (e / 2 * 2) := (hmove hi).symm
      _ ≤ (hi' : ℝ) ^ 2 * 2 ^ (e / 2 * 2) := by gcongr
      _ = ((hi' : ℝ) * 2 ^ (e / 2)) ^ 2 := by rw [mul_pow, ← pow_mul]

/-- One step: the digit's factor and exponent, then the square roots. -/
theorem powSteps_succ (c : PowCtx) (t f : Nat) (b : Bracket) : ∃ lo hi : Nat, ∃ fe fsig e : Nat,
    ((f % 2 = 1 ∧ fe = c.ea ∧ fsig = c.sig) ∨ (f % 2 = 0 ∧ fe = c.bias - 52 ∧ fsig = 2 ^ 52)) ∧
    e = b.z + fe - (c.w - 52) ∧ lo ^ 2 ≤ b.lo * (fsig * 2 ^ (c.w - 52 + e % 2)) ∧
    b.hi * (fsig * 2 ^ (c.w - 52 + e % 2)) ≤ hi ^ 2 ∧
    powSteps c (t + 1) f b = powSteps c t (f / 2) { lo, hi, z := e / 2 } := by
  simp only [powSteps, force_eq]
  generalize hfe : (if f % 2 = 1 then c.ea else c.bias - 52) = fe
  generalize hfs : (if f % 2 = 1 then c.sig else 2 ^ 52) = fsig
  generalize he : b.z + fe - (c.w - 52) = e
  generalize hk : fsig * 2 ^ (c.w - 52 + e % 2) = k
  refine ⟨isqrtFrom (2 ^ (c.w + 1)) (b.lo * k), csqrtFrom (isqrtFrom (2 ^ (c.w + 1)) (b.lo * k)) (b.hi * k), fe, fsig, e,
    ?_, he.symm, ?_, ?_, rfl⟩
  · rcases Nat.mod_two_eq_zero_or_one f with h | h
    · exact .inr ⟨h, by rw [← hfe, if_neg (by omega)], by rw [← hfs, if_neg (by omega)]⟩
    · exact .inl ⟨h, by rw [← hfe, if_pos h], by rw [← hfs, if_pos h]⟩
  · rw [hk]
    exact isqrtFrom_sq_le _ _
  · rw [hk]
    exact le_csqrtFrom_sq _ _

/-- The steps turn a bracket of `y` into one of `y ^ (1 / 2^t) * a ^ (frac(f / 2^t))`. -/
theorem powSteps_holds {c : PowCtx} {a : ℝ} (hc : c.For a) (ha : 0 < a) (t : Nat) : ∀ (f : Nat) {b : Bracket} {y : ℝ},
    0 ≤ y → b.Holds c y →
      (powSteps c t f b).Holds c (y ^ (1 / 2 ^ t : ℝ) * a ^ ((f % 2 ^ t : Nat) / 2 ^ t : ℝ)) := by
  induction t with
  | zero =>
    intro f b y hy hb
    simpa [powSteps, Nat.mod_one] using hb
  | succ t ih =>
    intro f b y hy hb
    have hmod : f % 2 ^ (t + 1) = f % 2 + 2 * (f / 2 % 2 ^ t) := by rw [Nat.pow_succ', Nat.mod_mul]
    obtain ⟨hd, hs, hr, hv⟩ := hc
    obtain ⟨lo, hi, fe, fsig, e, ⟨hf, rfl, rfl⟩ | ⟨hf, rfl, rfl⟩, he, hlo, hhi, heq⟩ := powSteps_succ c t f b
    · have := ih (f / 2) (b := ⟨lo, hi, e / 2⟩) (Real.sqrt_nonneg (y * a))
        (bracket_step hy ha.le hd (by omega) hv he hb.1 hb.2 hlo hhi)
      rw [heq]
      convert this using 1
      rw [Real.sqrt_eq_rpow, ← Real.rpow_mul (by positivity), Real.mul_rpow hy ha.le, mul_assoc, ← Real.rpow_add ha, hmod,
        hf, pow_succ]
      congr 2
      · field_simp
      · push_cast
        field_simp
    · have hone : ((2 ^ 52 : Nat) : ℝ) * 2 ^ (c.bias - 52) = 1 * 2 ^ c.bias := by
        rw [Nat.cast_pow, Nat.cast_ofNat, ← pow_add, one_mul]
        congr 1
        omega
      have := ih (f / 2) (b := ⟨lo, hi, e / 2⟩) (Real.sqrt_nonneg (y * 1))
        (bracket_step hy zero_le_one hd (by omega) hone he hb.1 hb.2 hlo hhi)
      rw [heq]
      convert this using 1
      rw [mul_one, Real.sqrt_eq_rpow, ← Real.rpow_mul hy, hmod, hf, pow_succ]
      congr 2
      · field_simp
      · push_cast
        field_simp
        ring_nf

/-- A magnitude of `u` units is one of a binary64: its value has at most 53 significant binary digits. -/
theorem powCtx_for {m w : Nat} (h0 : 0 < m) (hm : m < infMag) (hw : 52 ≤ w) :
    (powCtx (magUnits m) w).For ((magUnits m : ℝ) / 2 ^ 1074) := by
  have hu0 : 0 < magUnits m := by
    have := magUnits_strictMono h0
    omega
  have hu1 : magUnits m < 2 ^ 2098 := by
    rw [← magUnits_infMag]
    exact magUnits_strictMono hm
  have hsig : magUnits m * 2 ^ 52 / 2 ^ log2Below 12 (magUnits m) * 2 ^ log2Below 12 (magUnits m) =
      magUnits m * 2 ^ 52 := by
    refine Nat.div_mul_cancel ?_
    obtain ⟨h1, h2⟩ := log2Below_bounds (by norm_num) hu0 hu1
    generalize log2Below 12 (magUnits m) = l at *
    obtain ⟨f, sh, hmf, hf, hsh⟩ := pattern_exists m
    have hval : magUnits m = f * 2 ^ sh := hmf ▸ magUnits_pattern hf.le hsh
    rw [hval, Nat.mul_assoc, ← Nat.pow_add]
    refine Dvd.dvd.mul_left (Nat.pow_dvd_pow 2 ?_) f
    have : 2 ^ l < 2 ^ (53 + sh) := by
      rw [Nat.pow_add]
      exact h1.trans_lt (hval ▸ Nat.mul_lt_mul_of_pos_right hf (Nat.two_pow_pos _))
    have := (Nat.pow_lt_pow_iff_right (by decide : 1 < 2)).1 this
    omega
  simp only [powCtx, force_eq]
  generalize log2Below 12 (magUnits m) = l at *
  refine ⟨hw, by simp only; omega, by simp only; omega, ?_⟩
  have hsig' : ((magUnits m * 2 ^ 52 / 2 ^ l : Nat) : ℝ) * 2 ^ l = magUnits m * 2 ^ 52 := by exact_mod_cast hsig
  simp only
  generalize ((magUnits m * 2 ^ 52 / 2 ^ l : Nat) : ℝ) = sg at *
  generalize (magUnits m : ℝ) = u at *
  have hp : (2 : ℝ) ^ (2048 + 2 * w + l - 1126) * 2 ^ 52 * 2 ^ 1074 = 2 ^ l * 2 ^ (2048 + 2 * w) := by
    rw [← pow_add, ← pow_add, ← pow_add]
    congr 1
    omega
  have h52 : (0 : ℝ) < 2 ^ 52 := by positivity
  have h1074 : (0 : ℝ) < 2 ^ 1074 := by positivity
  generalize (2 : ℝ) ^ (2048 + 2 * w + l - 1126) = e1 at *
  generalize (2 : ℝ) ^ (2048 + 2 * w) = e2 at *
  generalize (2 : ℝ) ^ 52 = e3 at *
  generalize (2 : ℝ) ^ 1074 = e4 at *
  generalize (2 : ℝ) ^ l = e5 at *
  rw [div_mul_eq_mul_div, eq_div_iff h1074.ne']
  refine mul_right_cancel₀ h52.ne' ?_
  calc sg * e1 * e4 * e3 = sg * (e1 * e3 * e4) := by ring
    _ = sg * e5 * e2 := by rw [hp]; ring
    _ = u * e2 * e3 := by rw [hsig']; ring

/-- The bracket of the fractional power. -/
theorem powBracket_holds {m w : Nat} (p t : Nat) (h0 : 0 < m) (hm : m < infMag) (hw : 52 ≤ w) :
    (powBracket (magUnits m) p t w).Holds (powCtx (magUnits m) w)
      (((magUnits m : ℝ) / 2 ^ 1074) ^ ((p % 2 ^ t : Nat) / 2 ^ t : ℝ)) := by
  have hu0 : (0 : ℝ) < magUnits m := by
    have := magUnits_strictMono h0
    exact_mod_cast (show 0 < magUnits m by omega)
  have hone : (⟨2 ^ w, 2 ^ w, 2048 + w⟩ : Bracket).Holds (powCtx (magUnits m) w) 1 := by
    have h : (2 : ℝ) ^ w * 2 ^ (2048 + w) = 2 ^ (2048 + 2 * w) := by
      rw [← pow_add]
      congr 1
      omega
    have hb : (powCtx (magUnits m) w).bias = 2048 + 2 * w := by simp [powCtx]
    constructor <;> simp only [hb, Nat.cast_pow, Nat.cast_ofNat, one_mul, h, le_refl]
  have := powSteps_holds (powCtx_for h0 hm hw) (div_pos hu0 (by positivity)) t p zero_le_one hone
  rwa [Real.one_rpow, one_mul] at this

/-- The power in units of 2^-1074. -/
noncomputable def powUnits (u p t : Nat) : ℝ := ((u : ℝ) / 2 ^ 1074) ^ ((p : ℝ) / 2 ^ t) * 2 ^ 1074

theorem powUnits_split {u : Nat} (p t : Nat) (hu : 0 < u) :
    powUnits u p t = ((u : ℝ) / 2 ^ 1074) ^ (p / 2 ^ t) *
      ((u : ℝ) / 2 ^ 1074) ^ ((p % 2 ^ t : Nat) / 2 ^ t : ℝ) * 2 ^ 1074 := by
  have hu' : (0 : ℝ) < (u : ℝ) / 2 ^ 1074 := div_pos (by exact_mod_cast hu) (by positivity)
  unfold powUnits
  congr 1
  generalize (u : ℝ) / 2 ^ 1074 = a at *
  rw [← Real.rpow_natCast a, ← Real.rpow_add hu']
  congr 1
  have h2 : (0 : ℝ) < 2 ^ t := by positivity
  have : ((2 ^ t * (p / 2 ^ t) + p % 2 ^ t : Nat) : ℝ) = p := by rw [Nat.div_add_mod]
  rw [div_eq_iff h2.ne', add_mul, div_mul_cancel₀ _ h2.ne', ← this]
  push_cast
  ring

/-- The rounded ends of the bracket lie on both sides of the rounded power. -/
theorem powRound_bounds {m w p t r : Nat} (h0 : 0 < m) (hm : m < infMag) (hw : 52 ≤ w)
    (hr : Rounds (powUnits (magUnits m) p t) r) :
    powRound (magUnits m) p t w (powBracket (magUnits m) p t w).lo (powBracket (magUnits m) p t w).z ≤ r ∧
      r ≤ powRound (magUnits m) p t w (powBracket (magUnits m) p t w).hi (powBracket (magUnits m) p t w).z := by
  have hu0 : 0 < magUnits m := by
    have := magUnits_strictMono h0
    omega
  obtain ⟨h1, h2⟩ := powBracket_holds p t h0 hm hw
  have hb : (powCtx (magUnits m) w).bias = 2048 + 2 * w := by simp [powCtx]
  rw [hb] at h1 h2
  rw [powUnits_split p t hu0] at hr
  have hd : 0 < 2 ^ (2048 + 2 * w + 1074 * (p / 2 ^ t)) := Nat.two_pow_pos _
  have hval (y z : Nat) : (((magUnits m) ^ (p / 2 ^ t) * y * 2 ^ (z + 1074) : Nat) : ℝ) /
      ((2 ^ (2048 + 2 * w + 1074 * (p / 2 ^ t)) : Nat) : ℝ) =
      ((magUnits m : ℝ) / 2 ^ 1074) ^ (p / 2 ^ t) * ((y : ℝ) * 2 ^ z / 2 ^ (2048 + 2 * w)) * 2 ^ 1074 := by
    push_cast
    rw [div_pow, pow_add _ z, pow_add _ (2048 + 2 * w), pow_mul]
    generalize (2 : ℝ) ^ 1074 = e4
    field_simp
  have hpow : (0 : ℝ) ≤ ((magUnits m : ℝ) / 2 ^ 1074) ^ (p / 2 ^ t) := by positivity
  have hbias : (0 : ℝ) < 2 ^ (2048 + 2 * w) := by positivity
  have hunit : (0 : ℝ) ≤ 2 ^ 1074 := by positivity
  simp only [powRound, force_eq]
  constructor
  · refine (roundMag_rounds _ hd).mono hr ?_
    rw [hval]
    refine mul_le_mul_of_nonneg_right (mul_le_mul_of_nonneg_left ?_ hpow) hunit
    rwa [div_le_iff₀ hbias]
  · refine hr.mono (roundMag_rounds _ hd) ?_
    rw [hval]
    refine mul_le_mul_of_nonneg_right (mul_le_mul_of_nonneg_left ?_ hpow) hunit
    rwa [le_div_iff₀ hbias]

/-! ### The exact search -/

theorem powReaches_iff {u : Nat} (p t m : Nat) (hu : 0 < u) : powReaches u p t m = true ↔
    (halfBelow m : ℝ) < 2 * powUnits u p t ∨ ((halfBelow m : ℝ) = 2 * powUnits u p t ∧ m % 2 = 0) := by
  have hu' : (0 : ℝ) < (u : ℝ) / 2 ^ 1074 := div_pos (by exact_mod_cast hu) (by positivity)
  have hx : (0 : ℝ) ≤ 2 * powUnits u p t := by unfold powUnits; positivity
  have hT : (2 ^ t : Nat) ≠ 0 := (Nat.two_pow_pos t).ne'
  have hscale : (0 : ℝ) < 2 ^ (1074 * p) := by positivity
  have hpow : (2 * powUnits u p t) ^ 2 ^ t * 2 ^ (1074 * p) = (u : ℝ) ^ p * 2 ^ (1075 * 2 ^ t) := by
    unfold powUnits
    rw [mul_pow, mul_pow, ← Real.rpow_natCast (((u : ℝ) / 2 ^ 1074) ^ ((p : ℝ) / 2 ^ t)), ← Real.rpow_mul hu'.le]
    have : (p : ℝ) / 2 ^ t * (2 ^ t : Nat) = p := by push_cast; field_simp
    rw [this, Real.rpow_natCast, div_pow, ← pow_mul, ← pow_mul]
    have h1075 : (2 : ℝ) ^ (1075 * 2 ^ t) = 2 ^ 2 ^ t * 2 ^ (1074 * 2 ^ t) := by
      rw [← pow_add]
      congr 1
      ring
    rw [h1075]
    field_simp
  have hlt : (halfBelow m : ℝ) < 2 * powUnits u p t ↔
      halfBelow m ^ 2 ^ t * 2 ^ (1074 * p) < u ^ p * 2 ^ (1075 * 2 ^ t) := by
    rw [← pow_lt_pow_iff_left₀ (Nat.cast_nonneg _) hx hT, ← mul_lt_mul_iff_left₀ hscale, hpow]
    norm_cast
  have heq : (halfBelow m : ℝ) = 2 * powUnits u p t ↔
      halfBelow m ^ 2 ^ t * 2 ^ (1074 * p) = u ^ p * 2 ^ (1075 * 2 ^ t) := by
    rw [← pow_left_inj₀ (Nat.cast_nonneg _) hx hT, ← mul_left_inj' hscale.ne', hpow]
    norm_cast
  rw [hlt, heq]
  simp [powReaches]

theorem powDescend_spec {u p t : Nat} {x : ℝ}
    (hreach : ∀ m, powReaches u p t m = true ↔ (halfBelow m : ℝ) < 2 * x ∨ ((halfBelow m : ℝ) = 2 * x ∧ m % 2 = 0))
    (k : Nat) : ∀ m, m ≤ infMag → m ≤ powDescend u p t k m ∧
      powDescend u p t k m < m + 2 ^ k ∧ powDescend u p t k m ≤ infMag ∧
      ∀ q, m < q → q < m + 2 ^ k → q ≤ infMag → (q ≤ powDescend u p t k m ↔ powReaches u p t q = true) := by
  have hanti {q q' : Nat} (h0 : 0 < q) (hqq : q < q') (h : powReaches u p t q' = true) : powReaches u p t q = true := by
    rw [hreach] at h ⊢
    have h1 := halfBelow_lt q h0
    have h2 := lt_halfBelow q' (by omega)
    have h3 := magUnits_strictMono.monotone (show q ≤ q' - 1 by omega)
    have h4 : (halfBelow q : ℝ) < halfBelow q' := by exact_mod_cast (show halfBelow q < halfBelow q' by omega)
    rcases h with h | ⟨h, _⟩
    · exact .inl (h4.trans h)
    · exact .inl (h4.trans_eq h)
  induction k with
  | zero =>
    intro m hm
    exact ⟨le_rfl, by simp [powDescend], hm, fun q h1 h2 => by norm_num at h2; omega⟩
  | succ k ih =>
    intro m hm
    have hk : 0 < 2 ^ k := Nat.two_pow_pos k
    simp only [powDescend]
    rw [Nat.pow_succ]
    split_ifs with h
    · obtain ⟨h1, hlt', h2, h3⟩ := ih (m + 2 ^ k) h.1
      refine ⟨by omega, by omega, h2, fun q hq hq' hqi => ?_⟩
      rcases Nat.lt_trichotomy q (m + 2 ^ k) with hlt | rfl | hgt
      · exact ⟨fun _ => hanti (by omega) hlt h.2, fun _ => by omega⟩
      · exact ⟨fun _ => h.2, fun _ => h1⟩
      · exact h3 q hgt (by omega) hqi
    · obtain ⟨h1, hlt', h2, h3⟩ := ih m hm
      refine ⟨h1, by omega, h2, fun q hq hq' hqi => ?_⟩
      rcases Nat.lt_or_ge q (m + 2 ^ k) with hlt | hge
      · exact h3 q hq hlt hqi
      · have hno : ¬powReaches u p t (m + 2 ^ k) = true := fun hr => h ⟨by omega, hr⟩
        have hno' : ¬powReaches u p t q = true := by
          rcases hge.lt_or_eq with hlt | rfl
          · exact fun hr => hno (hanti (by omega) hlt hr)
          · exact hno
        exact ⟨fun hle => absurd hle (by omega), fun hr => absurd hr hno'⟩

theorem powExact_rounds {u : Nat} (p t : Nat) (hu : 0 < u) : Rounds (powUnits u p t) (powExact u p t) := by
  have hreach (m : Nat) := powReaches_iff p t m hu
  obtain ⟨_, _, h2, h3⟩ := powDescend_spec hreach 63 0 (Nat.zero_le _)
  refine ⟨h2, fun q hq hqi => (h3 q hq ?_ hqi).trans (hreach q)⟩
  have : infMag < 0 + 2 ^ 63 := by decide
  omega

/-- However many brackets are tried, the search ends at the pattern the power rounds to. -/
theorem powSearch_eq {m : Nat} (p t : Nat) (h0 : 0 < m) (hm : m < infMag) (attempts : Nat) : ∀ {w : Nat}, 52 ≤ w →
    powSearch (magUnits m) p t attempts w = powExact (magUnits m) p t := by
  have hu0 : 0 < magUnits m := by
    have := magUnits_strictMono h0
    omega
  induction attempts with
  | zero => intro w _; rfl
  | succ attempts ih =>
    intro w hw
    obtain ⟨h1, h2⟩ := powRound_bounds h0 hm hw (powExact_rounds p t hu0)
    simp only [powSearch, force_eq]
    split_ifs with h
    · omega
    · exact ih (by omega)

/-! ### powcr -/

theorem log2Below_two_pow {t : Nat} (h : t < 2 ^ 12) : log2Below 12 (2 ^ t) = t := by
  obtain ⟨h1, h2⟩ := log2Below_spec 12 (Nat.two_pow_pos t) (Nat.pow_lt_pow_right (by decide) h)
  have h3 := (Nat.pow_le_pow_iff_right (by decide : 1 < 2)).1 h1
  have h4 := (Nat.pow_lt_pow_iff_right (by decide : 1 < 2)).1 h2
  omega

/-- `powcr` is the pattern that the real power of the two values rounds to, for a finite positive base and a finite
positive exponent (spec/00_scope.md R8). -/
theorem powcr_rounds {a e : F64} (ha : 0 < magOf a) (ha' : magOf a < infMag) :
    ∃ r, powcr a e = BitVec.ofNat 64 r ∧
      Rounds (((units a : ℝ) / 2 ^ 1074) ^ ((units e : ℝ) / 2 ^ 1074) * 2 ^ 1074) r := by
  have hu0 : 0 < magUnits (magOf a) := by
    have := magUnits_strictMono ha
    omega
  simp only [powcr, forceWord_eq, force_eq, units]
  rw [powSearch_eq _ _ ha ha' _ (by decide)]
  refine ⟨_, rfl, ?_⟩
  have hR := powExact_rounds (magUnits (magOf e) / Nat.gcd (magUnits (magOf e)) (2 ^ 1074))
    (log2Below 12 (2 ^ 1074 / Nat.gcd (magUnits (magOf e)) (2 ^ 1074))) hu0
  convert hR using 1
  unfold powUnits
  congr 2
  obtain ⟨k, hk, hg⟩ := (Nat.dvd_prime_pow Nat.prime_two).1 (Nat.gcd_dvd_right (magUnits (magOf e)) (2 ^ 1074))
  have hdvd : 2 ^ k ∣ magUnits (magOf e) := hg ▸ Nat.gcd_dvd_left _ _
  rw [hg, Nat.pow_div hk (by decide), log2Below_two_pow (by omega)]
  rw [Nat.cast_div hdvd (by positivity)]
  have : (2 : ℝ) ^ 1074 = 2 ^ k * 2 ^ (1074 - k) := by
    rw [← pow_add]
    congr 1
    omega
  rw [this]
  push_cast
  rw [div_div]

end Sys2Proof.Machine
end

