-- ==== Sys2Proof/Laws/FloatOps.lean ====
section
/-!
SUPPORT. What each rounded operation answers on finite operands: the pattern its exact result rounds to, with its sign
(`RoundsTo`), and that rounding is monotone in the order of values.
-/

namespace Sys2Proof.Machine

/-! ### Patterns -/

theorem magOf_lt (u : F64) : magOf u < 2 ^ 63 := Nat.mod_lt _ (by decide)

theorem infMag_lt : infMag < 2 ^ 63 := by decide

@[simp] theorem magOf_withSign {m : Nat} (neg : Bool) (h : m < 2 ^ 63) : magOf (withSign neg m) = m := by
  cases neg <;> simp only [withSign, magOf, BitVec.toNat_ofNat, Bool.false_eq_true, if_false, if_true] <;> omega

@[simp] theorem signOf_withSign {m : Nat} (neg : Bool) (h : m < 2 ^ 63) : signOf (withSign neg m) = neg := by
  cases neg <;>
    simp only [withSign, signOf, BitVec.msb_eq_decide, BitVec.toNat_ofNat, Bool.false_eq_true, if_false, if_true,
      decide_eq_false_iff_not, decide_eq_true_eq] <;> omega

/-- A pattern is its sign and its magnitude. -/
theorem withSign_eta (u : F64) : withSign (signOf u) (magOf u) = u := by
  apply BitVec.eq_of_toNat_eq
  have := u.isLt
  cases h : signOf u <;> simp only [signOf, BitVec.msb_eq_decide, decide_eq_false_iff_not, decide_eq_true_eq] at h <;>
    simp only [withSign, magOf, BitVec.toNat_ofNat, Bool.false_eq_true, if_false, if_true] <;> omega

theorem isNaN_eq (u : F64) : isNaN u = decide (infMag < magOf u) := by simp [isNaN]

theorem isNaN_eq_false {u : F64} : isNaN u = false ↔ magOf u ≤ infMag := by simp [isNaN_eq]

theorem IsFinite.isNaN {u : F64} (h : IsFinite u) : isNaN u = false := isNaN_eq_false.2 h.le

theorem IsFinite.isInf {u : F64} (h : IsFinite u) : isInf u = false := by
  simp [Machine.isInf, show magOf u ≠ infMag from h.ne]

@[simp] theorem magOf_fneg (u : F64) : magOf (fneg u) = magOf u := by
  simp only [fneg, magOf, BitVec.toNat_xor, Nat.xor_mod_two_pow]
  exact Nat.xor_zero _

@[simp] theorem signOf_fneg (u : F64) : signOf (fneg u) = !signOf u := by
  simp only [fneg, signOf, BitVec.msb_xor]
  cases u.msb <;> decide

theorem fneg_fneg (u : F64) : fneg (fneg u) = u := by
  rw [← withSign_eta (fneg (fneg u)), signOf_fneg, signOf_fneg, magOf_fneg, magOf_fneg, Bool.not_not, withSign_eta]

@[simp] theorem isNaN_fneg (u : F64) : isNaN (fneg u) = isNaN u := by simp [isNaN_eq]
@[simp] theorem isInf_fneg (u : F64) : isInf (fneg u) = isInf u := by simp [isInf]
@[simp] theorem isZero_fneg (u : F64) : isZero (fneg u) = isZero u := by simp [isZero]

@[simp] theorem magOf_fabs (u : F64) : magOf (fabs u) = magOf u := by
  exact magOf_withSign false (magOf_lt u)

@[simp] theorem signOf_fabs (u : F64) : signOf (fabs u) = false := by
  exact signOf_withSign false (magOf_lt u)

theorem units_eq (u : F64) : units u = magUnits (magOf u) := rfl

theorem signedUnits_natAbs (u : F64) : (signedUnits u).natAbs = magUnits (magOf u) := by
  unfold signedUnits
  split_ifs <;> simp [units_eq]

@[simp] theorem signedUnits_fneg (u : F64) : signedUnits (fneg u) = -signedUnits u := by
  unfold signedUnits units
  simp only [signOf_fneg, magOf_fneg]
  cases signOf u <;> simp

/-! ### Rounding with a sign -/

/-- The real `x` (in units of 2^-1074) rounds to the pattern `u`, which has the sign of `x` where `x` is not 0. -/
structure RoundsTo (x : ℝ) (u : F64) : Prop where
  mag : Rounds |x| (magOf u)
  neg : x < 0 → signOf u = true
  pos : 0 < x → signOf u = false

theorem RoundsTo.isNaN {x : ℝ} {u : F64} (h : RoundsTo x u) : isNaN u = false := isNaN_eq_false.2 h.mag.1

theorem rounds_zero : Rounds 0 0 := by
  have := rounds_magUnits (Nat.zero_le infMag)
  rwa [magUnits_zero, Nat.cast_zero] at this

/-- Rounding keeps the order of values. -/
theorem RoundsTo.mono {x y : ℝ} {u v : F64} (hu : RoundsTo x u) (hv : RoundsTo y v) (h : x ≤ y) :
    orderKey u ≤ orderKey v := by
  unfold orderKey
  rcases lt_trichotomy x 0 with hx | rfl | hx
  · rw [if_pos (hu.neg hx)]
    rcases lt_trichotomy y 0 with hy | rfl | hy
    · rw [if_pos (hv.neg hy)]
      have := hv.mag.mono hu.mag (by rw [abs_of_neg hx, abs_of_neg hy]; linarith)
      omega
    · have : magOf v = 0 := hv.mag.unique (by simpa using rounds_zero)
      split_ifs <;> omega
    · rw [hv.pos hy]
      simp only [Bool.false_eq_true, if_false]
      omega
  · have h0 : magOf u = 0 := hu.mag.unique (by simpa using rounds_zero)
    rcases h.lt_or_eq with hy | rfl
    · rw [hv.pos hy]
      simp only [Bool.false_eq_true, if_false]
      split_ifs <;> omega
    · have : magOf v = 0 := hv.mag.unique (by simpa using rounds_zero)
      split_ifs <;> omega
  · have hy : 0 < y := hx.trans_le h
    rw [hu.pos hx, hv.pos hy]
    have := hu.mag.mono hv.mag (by rwa [abs_of_pos hx, abs_of_pos hy])
    simpa using this

/-- A finite value rounds to itself. -/
theorem roundsTo_self {u : F64} (h : magOf u ≤ infMag) : RoundsTo (signedUnits u) u := by
  refine ⟨?_, fun hneg => ?_, fun hpos => ?_⟩
  · rw [← Int.cast_abs, Int.abs_eq_natAbs, signedUnits_natAbs]
    exact_mod_cast rounds_magUnits h
  · by_contra hs
    rw [signedUnits, if_neg hs] at hneg
    have : (0 : ℝ) ≤ ((units u : ℤ) : ℝ) := by positivity
    linarith
  · by_contra hs
    rw [signedUnits, if_pos (by simpa using hs)] at hpos
    have : (0 : ℝ) ≤ ((units u : ℤ) : ℝ) := by positivity
    push_cast at hpos this
    linarith

/-- In the order of values, a value is at most another exactly where its units are. -/
theorem orderKey_le_iff (u v : F64) : orderKey u ≤ orderKey v ↔ signedUnits u ≤ signedUnits v := by
  have hm (a b : Nat) : magUnits a ≤ magUnits b ↔ a ≤ b := magUnits_strictMono.le_iff_le
  have h0 (a : Nat) : magUnits a = 0 ↔ a = 0 := by
    rw [← magUnits_zero]
    exact magUnits_strictMono.injective.eq_iff
  have h1 := hm (magOf u) (magOf v)
  have h2 := hm (magOf v) (magOf u)
  have h3 := h0 (magOf u)
  have h4 := h0 (magOf v)
  unfold orderKey signedUnits units
  split_ifs <;> omega

/-- Addition of finite values (spec/00_scope.md R8). -/
theorem fadd_roundsTo {a b : F64} (ha : IsFinite a) (hb : IsFinite b) :
    RoundsTo ((signedUnits a + signedUnits b : ℤ) : ℝ) (fadd a b) := by
  simp only [fadd, forceWord_eq, ha.isNaN, hb.isNaN, ha.isInf, hb.isInf, Bool.or_self, Bool.false_eq_true, if_false]
  split_ifs with h
  · rw [h]
    have hz : magOf (withSign (signOf a && signOf b) 0) = 0 := magOf_withSign _ (by decide)
    exact ⟨by simpa [hz] using rounds_zero, fun h => by simp at h, fun h => by simp at h⟩
  · have hr := roundMag_rounds (signedUnits a + signedUnits b).natAbs Nat.one_pos
    have hlt := hr.1.trans_lt infMag_lt
    refine ⟨?_, fun hneg => ?_, fun hpos => ?_⟩
    · rw [magOf_withSign _ hlt, ← Int.cast_abs, Int.abs_eq_natAbs]
      simpa using hr
    · rw [signOf_withSign _ hlt]
      exact decide_eq_true (by exact_mod_cast hneg)
    · rw [signOf_withSign _ hlt]
      exact decide_eq_false (by
        have : 0 < signedUnits a + signedUnits b := by exact_mod_cast hpos
        omega)

/-- Subtraction of finite values (spec/00_scope.md R8). -/
theorem fsub_roundsTo {a b : F64} (ha : IsFinite a) (hb : IsFinite b) :
    RoundsTo ((signedUnits a - signedUnits b : ℤ) : ℝ) (fsub a b) := by
  have hb' : IsFinite (fneg b) := by simpa [IsFinite] using hb
  simpa [fsub, sub_eq_add_neg] using fadd_roundsTo ha hb'

theorem signedUnits_eq (u : F64) : (signedUnits u : ℝ) = (if signOf u then -1 else 1) * (magUnits (magOf u) : ℝ) := by
  unfold signedUnits units
  split_ifs <;> simp

/-- A magnitude with the sign of a product or quotient. -/
theorem roundsTo_withSign {x m : ℝ} {r : Nat} {sa sb : Bool} (hr : Rounds m r) (hm : 0 ≤ m)
    (hx : x = (if sa then -1 else 1) * (if sb then -1 else 1) * m) : RoundsTo x (withSign (sa != sb) r) := by
  have hlt := hr.1.trans_lt infMag_lt
  subst hx
  refine ⟨?_, fun hneg => ?_, fun hpos => ?_⟩
  · rw [magOf_withSign _ hlt]
    cases sa <;> cases sb <;> simpa [abs_of_nonneg hm] using hr
  · rw [signOf_withSign _ hlt]
    cases sa <;> cases sb <;> simp at hneg ⊢ <;> linarith
  · rw [signOf_withSign _ hlt]
    cases sa <;> cases sb <;> simp at hpos ⊢ <;> linarith

/-- Multiplication of finite values (spec/00_scope.md R8). -/
theorem fmul_roundsTo {a b : F64} (ha : IsFinite a) (hb : IsFinite b) :
    RoundsTo ((signedUnits a : ℝ) * signedUnits b / 2 ^ 1074) (fmul a b) := by
  simp only [fmul, forceWord_eq, ha.isNaN, hb.isNaN, ha.isInf, hb.isInf, Bool.or_self, Bool.false_eq_true, if_false]
  have hD : ((2 ^ 1074 : Nat) : ℝ) = 2 ^ 1074 := Nat.cast_pow 2 1074
  have hpos : (0 : Nat) < 2 ^ 1074 := by positivity
  generalize (2 ^ 1074 : Nat) = d at *
  rw [← hD]
  refine roundsTo_withSign (roundMag_rounds (units a * units b) hpos) (by positivity) ?_
  rw [signedUnits_eq, signedUnits_eq]
  simp only [units_eq]
  push_cast
  ring

/-- The sign of a product of finite values, zeros included. -/
theorem signOf_fmul {a b : F64} (ha : IsFinite a) (hb : IsFinite b) : signOf (fmul a b) = (signOf a != signOf b) := by
  simp only [fmul, forceWord_eq, ha.isNaN, hb.isNaN, ha.isInf, hb.isInf, Bool.or_self, Bool.false_eq_true, if_false]
  exact signOf_withSign _ ((roundMag_le_infMag (units a * units b) (Nat.two_pow_pos 1074)).trans_lt infMag_lt)

/-- Division of a finite value by a finite one that is not 0 (spec/00_scope.md R8). -/
theorem fdiv_roundsTo {a b : F64} (ha : IsFinite a) (hb : IsFinite b) (h0 : magOf b ≠ 0) :
    RoundsTo ((signedUnits a : ℝ) / signedUnits b * 2 ^ 1074) (fdiv a b) := by
  have hz : isZero b = false := by simpa [isZero] using h0
  have hb0 : 0 < units b := by
    have := magUnits_strictMono (Nat.pos_of_ne_zero h0)
    rw [units_eq]
    omega
  simp only [fdiv, forceWord_eq, ha.isNaN, hb.isNaN, ha.isInf, hb.isInf, hz, Bool.or_self, Bool.false_eq_true, if_false]
  have hD : ((2 ^ 1074 : Nat) : ℝ) = 2 ^ 1074 := Nat.cast_pow 2 1074
  generalize (2 ^ 1074 : Nat) = d at *
  rw [← hD]
  refine roundsTo_withSign (roundMag_rounds (units a * d) hb0) (by positivity) ?_
  rw [signedUnits_eq, signedUnits_eq]
  simp only [units_eq]
  push_cast
  cases signOf a <;> cases signOf b <;> simp <;> ring

/-- The sign of a quotient of finite values, zeros included. -/
theorem signOf_fdiv {a b : F64} (ha : IsFinite a) (hb : IsFinite b) (h0 : magOf b ≠ 0) :
    signOf (fdiv a b) = (signOf a != signOf b) := by
  have hz : isZero b = false := by simpa [isZero] using h0
  have hb0 : 0 < units b := by
    have := magUnits_strictMono (Nat.pos_of_ne_zero h0)
    rw [units_eq]
    omega
  simp only [fdiv, forceWord_eq, ha.isNaN, hb.isNaN, ha.isInf, hb.isInf, hz, Bool.or_self, Bool.false_eq_true, if_false]
  exact signOf_withSign _ ((roundMag_le_infMag _ hb0).trans_lt infMag_lt)

/-- The power of a finite positive value (spec/00_scope.md R8). -/
theorem powcr_roundsTo {a e : F64} (ha : 0 < magOf a) (ha' : IsFinite a) :
    RoundsTo (((units a : ℝ) / 2 ^ 1074) ^ ((units e : ℝ) / 2 ^ 1074) * 2 ^ 1074) (powcr a e) ∧
      signOf (powcr a e) = false := by
  obtain ⟨r, hr, hR⟩ := powcr_rounds (e := e) ha ha'
  have hlt := hR.1.trans_lt infMag_lt
  have hw : powcr a e = withSign false r := by rw [hr]; simp [withSign]
  have hx : (0 : ℝ) ≤ ((units a : ℝ) / 2 ^ 1074) ^ ((units e : ℝ) / 2 ^ 1074) * 2 ^ 1074 := by positivity
  refine ⟨⟨?_, fun hneg => absurd hx (not_le.2 hneg), fun _ => ?_⟩, ?_⟩
  · rw [hw, magOf_withSign _ hlt, abs_of_nonneg hx]
    exact hR
  · rw [hw, signOf_withSign _ hlt]
  · rw [hw, signOf_withSign _ hlt]

end Sys2Proof.Machine
end

