-- ==== Sys2Proof/Laws/Nearest.lean ====
section
/-!
SUPPORT. A pattern that a real rounds to is the binary64 nearest to it (`RoundsTo.nearest`).
-/

namespace Sys2Proof.Machine

/-- No finite value is nearer to a real that is not negative than the pattern it rounds to. -/
theorem Rounds.nearer {x z : ℝ} {r j : Nat} (h : Rounds x r) (hr : r < infMag) (hx : 0 ≤ x)
    (hz : z = magUnits j ∨ z = -(magUnits j : ℝ)) :
    |x - magUnits r| < |x - z| ∨ (|x - magUnits r| = |x - z| ∧ (z = magUnits r ∨ r % 2 = 0)) := by
  have hup : 2 * x < magUnits r + magUnits (r + 1) ∨ (2 * x = magUnits r + magUnits (r + 1) ∧ r % 2 = 0) := by
    have hno := (not_congr (h.2 (r + 1) (by omega) hr)).1 (by omega)
    simp only [halfBelow, Nat.add_sub_cancel, Nat.cast_add, not_or, not_and, not_lt] at hno
    rcases hno.1.lt_or_eq with hlt | heq
    · exact .inl hlt
    · refine .inr ⟨heq, ?_⟩
      have := hno.2 heq.symm
      omega
  have hlow : r = 0 ∨ (magUnits (r - 1) : ℝ) + magUnits r < 2 * x ∨
      ((magUnits (r - 1) : ℝ) + magUnits r = 2 * x ∧ r % 2 = 0) := by
    rcases Nat.eq_zero_or_pos r with h0 | h0
    · exact .inl h0
    · have := (h.2 r h0 h.1).1 le_rfl
      simp only [halfBelow, Nat.cast_add] at this
      exact .inr this
  have hmono {a b : Nat} (hab : a ≤ b) : (magUnits a : ℝ) ≤ magUnits b := by
    exact_mod_cast magUnits_strictMono.monotone hab
  have hstrict {a b : Nat} (hab : a < b) : (magUnits a : ℝ) < magUnits b := by
    exact_mod_cast magUnits_strictMono hab
  have h0 (a : Nat) : (0 : ℝ) ≤ magUnits a := Nat.cast_nonneg _
  have hr2 : (magUnits r : ℝ) ≤ 2 * x := by
    rcases hlow with rfl | hlt | ⟨heq, _⟩
    · rw [magUnits_zero]
      simpa using hx
    · linarith [h0 (r - 1)]
    · linarith [h0 (r - 1)]
  rcases hz with rfl | rfl
  · rcases Nat.lt_trichotomy j r with hj | rfl | hj
    · have h1 := hmono (show j ≤ r - 1 by omega)
      have h2 := hstrict hj
      rw [abs_of_nonneg (show 0 ≤ x - magUnits j by rcases hlow with h3 | h3 | ⟨h3, _⟩ <;> [omega; linarith; linarith])]
      rcases hlow with h3 | h3 | ⟨h3, he⟩
      · omega
      · exact .inl (abs_lt.2 ⟨by linarith, by linarith⟩)
      · rcases (show |x - magUnits r| ≤ x - magUnits j from abs_le.2 ⟨by linarith, by linarith⟩).lt_or_eq with h4 | h4
        · exact .inl h4
        · exact .inr ⟨h4, .inr he⟩
    · exact .inr ⟨rfl, .inl rfl⟩
    · have h1 := hmono (show r + 1 ≤ j by omega)
      have h2 := hstrict hj
      rw [abs_of_nonpos (show x - magUnits j ≤ 0 by rcases hup with h3 | ⟨h3, _⟩ <;> linarith)]
      rcases hup with h3 | ⟨h3, he⟩
      · exact .inl (abs_lt.2 ⟨by linarith, by linarith⟩)
      · rcases (show |x - magUnits r| ≤ -(x - magUnits j) from abs_le.2 ⟨by linarith, by linarith⟩).lt_or_eq with h4 | h4
        · exact .inl h4
        · exact .inr ⟨h4, .inr he⟩
  · have hj := h0 j
    rw [abs_of_nonneg (show 0 ≤ x - -(magUnits j : ℝ) by linarith)]
    rcases (show |x - magUnits r| ≤ x - -(magUnits j : ℝ) from abs_le.2 ⟨by linarith, by linarith [h0 r]⟩).lt_or_eq
      with h4 | h4
    · exact .inl h4
    · refine .inr ⟨h4, ?_⟩
      rcases Nat.eq_zero_or_pos r with hr0 | hr0
      · exact .inr (by omega)
      · have hpos : (0 : ℝ) < magUnits r := by
          have := hstrict hr0
          rwa [magUnits_zero, Nat.cast_zero] at this
        rcases le_total (magUnits r : ℝ) x with hle | hle
        · rw [abs_of_nonneg (by linarith)] at h4
          linarith
        · rw [abs_of_nonpos (by linarith)] at h4
          rcases hlow with h5 | h5 | ⟨h5, he⟩
          · omega
          · linarith [h0 (r - 1)]
          · exact .inr he

theorem abs_neg_sub_neg (a b : ℝ) : |-a - -b| = |a - b| := by rw [← abs_neg, neg_sub_neg, neg_sub, abs_sub_comm, abs_sub_comm]

/-- The halfway point above the largest finite value, in units of 2^-1075. -/
theorem halfBelow_infMag : (halfBelow infMag : ℝ) = 2 * ((2 ^ 1024 - 2 ^ 970) * 2 ^ 1074) := by
  have h1 : magUnits (infMag - 1) = (2 ^ 53 - 1) * 2 ^ 2045 := by
    rw [show infMag - 1 = (2 ^ 53 - 1) + 2045 * 2 ^ 52 by decide, magUnits_pattern (by omega) (.inr (by omega))]
  have e1 : (2 : ℝ) ^ 1024 * 2 ^ 1074 = 2 ^ 2098 := by rw [← pow_add]
  have e2 : 2 * ((2 : ℝ) ^ 970 * 2 ^ 1074) = 2 ^ 2045 := by rw [← pow_add, ← pow_succ']
  have e3 : (9007199254740992 : ℝ) * 2 ^ 2045 = 2 ^ 2098 := by rw [show (9007199254740992 : ℝ) = 2 ^ 53 by norm_num, ← pow_add]
  rw [halfBelow, h1, magUnits_infMag, sub_mul, mul_sub, e1, e2]
  push_cast
  generalize (2 : ℝ) ^ 2045 = x at *
  generalize (2 : ℝ) ^ 2098 = y at *
  clear e1 e2 h1
  linarith

theorem valueOf_cast (u : F64) : (valueOf u : ℝ) = (signedUnits u : ℝ) / 2 ^ 1074 := by
  simp only [valueOf, Rat.cast_div, Rat.cast_intCast, Rat.cast_pow, Rat.cast_ofNat]

/-- The bridge from halfway points to "nearest, ties to even" (spec/00_scope.md R8). -/
theorem RoundsTo.nearest {y : ℝ} {u : F64} (h : RoundsTo (y * 2 ^ 1074) u) : NearestTo y u := by
  have hinf := halfBelow_infMag
  have hE : (0 : ℝ) < 2 ^ 1074 := by positivity
  have hT : (0 : ℝ) < 2 ^ 1024 - 2 ^ 970 := sub_pos.2 (pow_lt_pow_right₀ (by norm_num) (by norm_num))
  unfold NearestTo
  simp only [valueOf_cast]
  generalize (2 : ℝ) ^ 1074 = e at *
  generalize (2 : ℝ) ^ 1024 - 2 ^ 970 = T at *
  have habs : |y * e| = |y| * e := by rw [abs_mul, abs_of_pos hE]
  rcases h.mag.1.lt_or_eq with hr | hr
  · refine .inr ⟨hr, ?_, fun v hv => ?_⟩
    · have hno := (not_congr (h.mag.2 (magOf u + 1) (by omega) hr)).1 (by omega)
      by_contra hc
      have h1 : T * e ≤ |y * e| := by
        rw [habs]
        exact mul_le_mul_of_nonneg_right (not_lt.1 hc) hE.le
      have h2 := magUnits_strictMono.monotone (show magOf u + 1 ≤ infMag from hr)
      have h3 := magUnits_strictMono.monotone (show magOf u ≤ infMag - 1 by omega)
      have h4 : (halfBelow (magOf u + 1) : ℝ) ≤ halfBelow infMag := by
        simp only [halfBelow, Nat.add_sub_cancel]
        exact_mod_cast Nat.add_le_add h3 h2
      refine hno ?_
      rcases (show (halfBelow (magOf u + 1) : ℝ) ≤ 2 * |y * e| by linarith).lt_or_eq with h5 | h5
      · exact .inl h5
      · refine .inr ⟨h5, ?_⟩
        have h6 : (halfBelow (magOf u + 1) : ℝ) = halfBelow infMag := by linarith
        have h7 : halfBelow (magOf u + 1) = halfBelow infMag := by exact_mod_cast h6
        simp only [halfBelow, Nat.add_sub_cancel] at h7
        have h8 : magUnits (magOf u + 1) = magUnits infMag := by omega
        rw [magUnits_strictMono.injective h8]
        decide
    · have hsc (z : ℝ) : |y - z / e| = |y * e - z| / e := by
        rw [← abs_of_pos hE, ← abs_div, abs_of_pos hE, sub_div, mul_div_cancel_right₀ _ hE.ne']
      rw [hsc, hsc]
      have key : |y * e - signedUnits u| < |y * e - signedUnits v| ∨
          (|y * e - signedUnits u| = |y * e - signedUnits v| ∧ ((signedUnits v : ℝ) = signedUnits u ∨ magOf u % 2 = 0)) := by
        rcases le_or_gt 0 (y * e) with hy | hy
        · have hmag := h.mag
          rw [abs_of_nonneg hy] at hmag
          have hu : (signedUnits u : ℝ) = magUnits (magOf u) := by
            rcases hy.lt_or_eq with hlt | heq
            · rw [signedUnits_eq, h.pos hlt]
              simp
            · have h0 : magOf u = 0 := hmag.unique (by rw [← heq]; exact rounds_zero)
              rw [signedUnits_eq, h0, magUnits_zero]
              simp
          rw [hu]
          refine hmag.nearer (j := magOf v) hr hy ?_
          rw [signedUnits_eq]
          cases signOf v <;> simp
        · have hmag := h.mag
          rw [abs_of_neg hy] at hmag
          have hu : (signedUnits u : ℝ) = -(magUnits (magOf u) : ℝ) := by
            rw [signedUnits_eq, h.neg hy]
            simp
          have := hmag.nearer (j := magOf v) (z := -(signedUnits v : ℝ)) hr (by linarith) (by
            rw [signedUnits_eq]
            cases signOf v <;> simp)
          rw [abs_neg_sub_neg, show -(y * e) - (magUnits (magOf u) : ℝ) = -(y * e) - -(signedUnits u : ℝ) by rw [hu]; ring,
            abs_neg_sub_neg] at this
          rcases this with h1 | ⟨h1, h2 | h2⟩
          · exact .inl h1
          · exact .inr ⟨h1, .inl (by rw [hu]; linarith)⟩
          · exact .inr ⟨h1, .inr h2⟩
      rcases key with h1 | ⟨h1, h2 | h2⟩
      · exact .inl (div_lt_div_of_pos_right h1 hE)
      · refine .inr ⟨by rw [h1], .inl ?_⟩
        have h3 : signedUnits v = signedUnits u := by exact_mod_cast h2
        rw [valueOf, valueOf, h3]
      · exact .inr ⟨by rw [h1], .inr h2⟩
  · have hr' : Rounds |y * e| infMag := hr ▸ h.mag
    have h1 := (hr'.2 infMag (by decide) le_rfl).1 le_rfl
    have h2 : T * e ≤ |y| * e := by
      rw [← habs]
      rcases h1 with h1 | ⟨h1, _⟩ <;> linarith
    have h3 : T ≤ |y| := le_of_mul_le_mul_right h2 hE
    refine .inl ⟨by simpa [isInf] using hr, h3, fun hs => ?_, fun hy => h.neg (mul_neg_of_neg_of_pos hy hE)⟩
    by_contra hy
    rcases (not_lt.1 hy).lt_or_eq with hlt | heq
    · rw [h.pos (mul_pos hlt hE)] at hs
      cases hs
    · rw [← heq, abs_zero] at h3
      linarith

end Sys2Proof.Machine
end

