-- ==== Sys2Proof/Laws/PerInstr.lean ====
section
/-!
SUPPORT. One lemma per command: the word that encodes a command is legal exactly where the command is well-formed, every
field at every value (spec/30_encoding.md R104 to R106).
-/

namespace Sys2Proof

/-- The word of `i` passes the check of R105 exactly where `i` meets the field constraints of R104. -/
def Laws.EncodeLegal.Statement (i : Instr) : Prop := legal (encode i) = i.wellFormed

theorem Laws.EncodeLegal.nop : Laws.EncodeLegal.Statement .nop := by unfold Laws.EncodeLegal.Statement; decide

theorem Laws.EncodeLegal.b83enc (len : BitVec 4) : Laws.EncodeLegal.Statement (.b83enc len) := by
  revert len
  unfold Laws.EncodeLegal.Statement
  decide +kernel

theorem Laws.EncodeLegal.b83dec (len : BitVec 4) : Laws.EncodeLegal.Statement (.b83dec len) := by
  revert len
  unfold Laws.EncodeLegal.Statement
  decide +kernel

theorem Laws.EncodeLegal.s2l : Laws.EncodeLegal.Statement .s2l := by unfold Laws.EncodeLegal.Statement; decide

theorem Laws.EncodeLegal.l2s : Laws.EncodeLegal.Statement .l2s := by unfold Laws.EncodeLegal.Statement; decide

theorem Laws.EncodeLegal.spowh : Laws.EncodeLegal.Statement .spowh := by unfold Laws.EncodeLegal.Statement; decide

theorem Laws.EncodeLegal.spowg : Laws.EncodeLegal.Statement .spowg := by unfold Laws.EncodeLegal.Statement; decide

theorem Laws.EncodeLegal.spows : Laws.EncodeLegal.Statement .spows := by unfold Laws.EncodeLegal.Statement; decide

theorem Laws.EncodeLegal.dcq : Laws.EncodeLegal.Statement .dcq := by unfold Laws.EncodeLegal.Statement; decide

theorem Laws.EncodeLegal.amaxq : Laws.EncodeLegal.Statement .amaxq := by unfold Laws.EncodeLegal.Statement; decide

theorem Laws.EncodeLegal.acq : Laws.EncodeLegal.Statement .acq := by unfold Laws.EncodeLegal.Statement; decide

theorem Laws.EncodeLegal.gridq (cx cy : BitVec 4) : Laws.EncodeLegal.Statement (.gridq cx cy) := by
  revert cx cy
  unfold Laws.EncodeLegal.Statement
  decide +kernel

end Sys2Proof
end

