-- ==== Sys2Proof/Tests/Slice0.lean ====
section
/-!
SUPPORT. The model's own tests. Expected values are those of spec/95_test_vectors.md and of the rules' examples; the words
of the decode tests are written out from spec/30_encoding.md R102 and R104. The `witness_` theorems show that the
hypotheses of each statement can be met together, at the ends of their ranges.
-/

namespace Sys2Proof.Tests

open Sys2Proof Sys2Proof.Machine

set_option Elab.async false

/-! ### Helpers -/

/-- Reset, with the operand registers set. -/
def ops (a b c d : Word) : State := { State.reset with op := #v[a, b, c, d] }

/-- Reset, with CHR0 and CHR1 set. -/
def chars (lo hi : Word) : State := (State.reset.setChrWord 0 lo).setChrWord 1 hi

/-- Reset, with COEF[n], COEF[n+1], ... written. -/
def coefs (n : Nat) (vs : List Word) : State :=
  match vs with
  | [] => State.reset
  | v :: vs => (coefs (n + 1) vs).setCoef n v

/-- A result register after a step. -/
def res (r : Result) (k : Fin 4) : Option Word := (nextState r).map fun t => t.res[k]

/-- CHR0 or CHR1 after a step. -/
def chr (r : Result) (k : Fin 2) : Option Word := (nextState r).map fun t => t.chrWord k

/-- A QG word after a step. -/
def qg (r : Result) (n : Nat) : Option Word := (nextState r).bind fun t => t.qg n

/-- What a read of STATUS returns after a step. -/
def status (r : Result) : Option Word := (nextState r).map fun t => t.status.word

/-- Accept `w` and run it, as the first command after reset from the state `s`. -/
def run (s : State) (w : Nat) : Result := step (s.withFetchWord 64 w)

def nan : Word := 0x7FF8000000000000

/-! ### Well-formedness (spec/30_encoding.md R104, R106) -/

theorem test_wellFormed_len_low : (Instr.b83enc 0).wellFormed = false := by decide
theorem test_wellFormed_len_high : (Instr.b83dec 11).wellFormed = false := by decide
theorem test_wellFormed_len_ends : (Instr.b83enc 1).wellFormed = true ∧ (Instr.b83dec 10).wellFormed = true := by decide
theorem test_wellFormed_counts_free : (Instr.gridq 0 15).wellFormed = true := by decide

/-! ### Decoding, bit by bit -/

theorem test_decode_nop : decode 0b0000000000000000 = .ok .nop := by decide
theorem test_decode_b83enc : decode 0b0000101000000001 = .ok (.b83enc 10) := by decide
theorem test_decode_b83dec : decode 0b0000010000000010 = .ok (.b83dec 4) := by decide
theorem test_decode_s2l : decode 0b0000000000010000 = .ok .s2l := by decide
theorem test_decode_l2s : decode 0b0000000000010001 = .ok .l2s := by decide
theorem test_decode_spowh : decode 0b0000000000100000 = .ok .spowh := by decide
theorem test_decode_spowg : decode 0b0000000000100001 = .ok .spowg := by decide
theorem test_decode_spows : decode 0b0000000000100010 = .ok .spows := by decide
theorem test_decode_dcq : decode 0b0000000000110000 = .ok .dcq := by decide
theorem test_decode_amaxq : decode 0b0000000000110001 = .ok .amaxq := by decide
theorem test_decode_acq : decode 0b0000000000110010 = .ok .acq := by decide
theorem test_decode_gridq : decode 0b0011010001000000 = .ok (.gridq 4 3) := by decide
theorem test_decode_reserved_opcode : decode 0x03 = .error (.reservedOpcode 0x03) := by decide
theorem test_decode_reserved_bit : decode 0x8000000000000010 = .error (.reservedBits 0x10) := by decide
theorem test_decode_reserved_f2 : decode 0x1401 = .error (.reservedBits 0x01) := by decide
theorem test_decodeTableWord : decodeTableWord 64 0x3440 = some (.gridq 4 3) := by decide

/-! ### The step (spec/95_test_vectors.md 2.1) -/

theorem test_run_nop : status (run State.reset 0x0) = some 0x00000002 := by decide +kernel
theorem test_run_illegal_f1 : status (run State.reset 0x100) = some 0x00000506 := by decide +kernel
theorem test_run_illegal_len : status (run State.reset 0xB01) = some 0x01000506 := by decide +kernel
theorem test_run_illegal_opcode : status (run State.reset 0xFF) = some 0xFF000506 := by decide +kernel
theorem test_run_grid_counts : status (run State.reset 0xA140) = some 0x40010206 := by decide +kernel
theorem test_run_grid_bit16 : status (run State.reset 0x10040) = some 0x40000506 := by decide +kernel
theorem test_run_unwritten : step (State.reset.withFetchWord 64 0x1140) = .fault .unwrittenOperand := by rfl
/-- H3 -/
theorem test_bus_error :
    State.reset.hostMove (.read 0x018 8) = .next { State.reset with faults := [.busError 0x018 8] } := by rfl
/-- H5: OP0 and a pending command are as before. -/
theorem test_bus_error_write : (nextState ((ops 7 0 0 0 |>.accept 0).hostMove (.write 0x020 4 1))).map
    (fun t => (t.op[0], t.pend, t.faults)) = some (7, some 0, [.busError 0x020 4]) := by decide
/-- H8 -/
theorem test_unwritten_read :
    State.reset.hostMove (.read 0x800 8) = .next { State.reset with faults := [.unwrittenRead 0x800] } := by rfl
/-- R300: a recorded model fault stays recorded. -/
theorem test_reset_keeps_faults : (State.reset.record (.busError 0x018 8)).resetEvent.faults = [.busError 0x018 8] := by rfl
theorem test_read_id : State.reset.memRead 0x000 8 = .ok 0x4248514100070001 := by rfl

/-! ### Commands -/

/-- B13 -/
theorem test_b83enc_truncates : chr (run (ops 0xFFFFFFFFFFFFFFFF 0 0 0) 0xA01) 0 = some 0x6846477653487546 ∧
    chr (run (ops 0xFFFFFFFFFFFFFFFF 0 0 0) 0xA01) 1 = some 0x5A79 := by decide +kernel
/-- B14b -/
theorem test_b83enc_keeps_tail : chr (exec (.b83enc 1) { chars 0x4847464544434241 0 with op := #v[21, 0, 0, 0] }) 0 =
    some 0x484746454443424C := by decide +kernel
/-- B24 -/
theorem test_b83dec_ten : res (run (chars 0x6846477653487546 0x5A79) 0xA02) 0 = some 2930702886503698166 := by
  decide +kernel
/-- B10 -/
theorem test_b83dec_newline : status (run (chars 0x0A30 0) 0x202) = some 0x02010106 := by decide +kernel
/-- 2.3 -/
theorem test_s2l_power_branch : res (run (ops 0x80 0 0 0) 0x10) 0 = some 0x3FCBA1511E3E632D := by decide +kernel
theorem test_s2l_low_byte : res (run (ops 0x10A 0 0 0) 0x10) 0 = some 0x3F68DD6C15B1D4B4 := by decide +kernel
/-- 2.4 -/
theorem test_l2s_threshold : res (run (ops 0x3FCB65B3392F5353 0 0 0) 0x11) 0 = some 128 ∧
    res (run (ops 0x3FCB65B3392F5352 0 0 0) 0x11) 0 = some 127 := by decide +kernel
theorem test_l2s_nan : status (run (ops 0xFFF0000000000001 0 0 0) 0x11) = some 0x11000606 := by decide +kernel
/-- 2.5 -/
theorem test_spowh : res (run (ops 0xC008000000000000 0 0 0) 0x20) 0 = some 0xBFFBB67AE8584CAA := by decide +kernel
theorem test_spowh_subnormal : res (run (ops 1 0 0 0) 0x20) 0 = some 0x1E60000000000000 := by decide +kernel
theorem test_spowg : res (run (ops 0x4000000000000000 0 0 0) 0x21) 0 = some 0x3FF5ECF52776A115 := by decide +kernel
theorem test_spowg_subnormal : res (run (ops 1 0 0 0) 0x21) 0 = some 0x216C35FEDD14B8BB := by decide +kernel
theorem test_spows_overflow : res (run (ops 0x6974E718D7D7625A 0 0 0) 0x22) 0 = some 0x7FF0000000000000 := by
  decide +kernel
theorem test_spows_underflow : res (run (ops 0x96687E92154EF7AC 0 0 0) 0x22) 0 = some 0x8000000000000000 := by
  decide +kernel
/-- Q7, Q9 -/
theorem test_dcq : res (run (ops 0x3FCB65B3392F5353 0x3FF0000000000000 0x3F69A5C37387B719 0) 0x30) 0 = some 0x80FF0A := by
  decide +kernel
theorem test_dcq_nan : status (run (ops 0 nan nan 0) 0x30) = some 0x30010606 := by decide +kernel
/-- 2.7 -/
theorem test_amaxq : res (run (ops 0x3F847AE147AE147B 0 0 0) 0x31) 0 = some 16 ∧
    res (run (ops 0x3F847AE147AE147B 0 0 0) 0x31) 1 = some 0x3FBA3784A062B2E4 := by decide +kernel
theorem test_amaxq_below : res (run (ops 0x3F1567911CCCAE59 0 0 0) 0x31) 0 = some 0 := by decide +kernel
/-- 2.8 -/
theorem test_acq : res (run (ops 0x3F4C5E11C27EEF0B 0x3F4C5E11C27EEF0A 0xBF4C5E11C27EEF4D kHalf) 0x32) 0 = some 3789 := by
  decide +kernel
theorem test_acq_quotient : status (run (ops k1 0 0 0) 0x32) = some 0x32050606 := by decide +kernel

/-- G2's coefficients. -/
def g2 : State := coefs 0 [k1, k1, k1, 0x3FB999999999999A, 0xBFB999999999999A, 0]

/-- G2 -/
theorem test_gridq : res (run g2 0x1240) 1 = some 51 ∧ res (run g2 0x1240) 3 = some 0x3FB999999999999A ∧
    qg (run g2 0x1240) 0 = some 16777215 ∧ qg (run g2 0x1240) 1 = some 5139 := by decide +kernel
/-- a NaN in COEF[2] -/
theorem test_gridq_nan : status (run (coefs 0 [k1, k1, nan]) 0x1140) = some 0x40020606 := by decide +kernel

/-! ### Witnesses: the step and the invariants -/

/-- NOP accepted after reset. -/
def pendingNop : State := State.reset.accept 0

theorem inv_reset : Inv State.reset := by constructor <;> simp [State.reset, Status.reset, memWf]

theorem witness_StepRunsDecodedCommand :
    ({ pendingNop with turns := [.block] }).pend = some 0 ∧ decode 0 = .ok .nop ∧
      ({ pendingNop with turns := [.block] }).turns = [.block] ∧ pendingNop.turns = [] ∧
      ({ State.reset with turns := [.host .reset] }).turns = [.host .reset] ∧
      State.reset.pend = none ∧ ({ State.reset with turns := [.block] }).turns = [.block] := by decide

theorem witness_StepKeepsInv : Inv pendingNop ∧ step pendingNop = .next pendingNop.succeed := by
  refine ⟨⟨inv_reset.1, inv_reset.2, inv_reset.3, rfl, by simp [pendingNop], by simp [pendingNop], by simp [pendingNop],
    by simp [pendingNop], by simp [pendingNop]⟩, rfl⟩

theorem witness_StepKeepsQgRange : QgRange pendingNop ∧ step pendingNop = .next pendingNop.succeed := by
  refine ⟨fun n v _ h => ?_, rfl⟩
  rw [State.qg_eq] at h
  cases h

theorem witness_IllegalWordReported_opcode :
    ¬(((0x03 : Word).toNat % 256 ∈ [0x00, 0x10, 0x11, 0x20, 0x21, 0x22, 0x30, 0x31, 0x32] ∧ (0x03 : Word).toNat / 2 ^ 8 = 0) ∨
        ((0x03 : Word).toNat % 256 ∈ [0x01, 0x02] ∧ (0x03 : Word).toNat / 2 ^ 12 = 0 ∧ 1 ≤ (0x03 : Word).toNat / 2 ^ 8 % 16 ∧ (0x03 : Word).toNat / 2 ^ 8 % 16 ≤ 10) ∨
        ((0x03 : Word).toNat % 256 = 0x40 ∧ (0x03 : Word).toNat / 2 ^ 16 = 0)) := by decide

theorem witness_IllegalWordReported_len :
    ¬(((0xB02 : Word).toNat % 256 ∈ [0x00, 0x10, 0x11, 0x20, 0x21, 0x22, 0x30, 0x31, 0x32] ∧ (0xB02 : Word).toNat / 2 ^ 8 = 0) ∨
        ((0xB02 : Word).toNat % 256 ∈ [0x01, 0x02] ∧ (0xB02 : Word).toNat / 2 ^ 12 = 0 ∧ 1 ≤ (0xB02 : Word).toNat / 2 ^ 8 % 16 ∧ (0xB02 : Word).toNat / 2 ^ 8 % 16 ≤ 10) ∨
        ((0xB02 : Word).toNat % 256 = 0x40 ∧ (0xB02 : Word).toNat / 2 ^ 16 = 0)) := by decide

theorem witness_IllegalWordReported_bit :
    ¬(((0x10040 : Word).toNat % 256 ∈ [0x00, 0x10, 0x11, 0x20, 0x21, 0x22, 0x30, 0x31, 0x32] ∧ (0x10040 : Word).toNat / 2 ^ 8 = 0) ∨
        ((0x10040 : Word).toNat % 256 ∈ [0x01, 0x02] ∧ (0x10040 : Word).toNat / 2 ^ 12 = 0 ∧ 1 ≤ (0x10040 : Word).toNat / 2 ^ 8 % 16 ∧ (0x10040 : Word).toNat / 2 ^ 8 % 16 ≤ 10) ∨
        ((0x10040 : Word).toNat % 256 = 0x40 ∧ (0x10040 : Word).toNat / 2 ^ 16 = 0)) := by decide

theorem witness_MatchMaskSelectsRow : (Instr.acq, (0x32 : Word)) ∈ [(Instr.nop, (0x00 : Word)), (.s2l, 0x10), (.l2s, 0x11),
      (.spowh, 0x20), (.spowg, 0x21), (.spows, 0x22), (.dcq, 0x30), (.amaxq, 0x31), (.acq, 0x32)] ∧
    (0x41 : Word).extractLsb' 0 8 ∉ ([0x00, 0x01, 0x02, 0x10, 0x11, 0x20, 0x21, 0x22, 0x30, 0x31, 0x32, 0x40] :
      List (BitVec 8)) := by decide

/-! ### Witnesses: the host's accesses -/

theorem witness_RegisterMap : (0x018 : Offset).toNat % 8 = 0 ∧ (0x7F8 : Offset).toNat % 8 = 0 ∧
    (0x1FF8 : Offset).toNat % 8 = 0 ∧ 3 < 4 ∧ 1 < 2 ∧ 242 < 243 ∧ 80 < 81 := by decide

theorem witness_BusErrorAccesses : (4 : Nat) ≠ 8 ∧ (0x014 : Offset).toNat % 8 ≠ 0 ∧ (0x018 : Offset).toNat = 0x018 ∧
    (0x070 ≤ (0x070 : Offset).toNat ∧ (0x7F8 : Offset).toNat ≤ 0x7FF) ∧
    (0xF98 ≤ (0xF98 : Offset).toNat ∧ (0xFF8 : Offset).toNat ≤ 0xFFF) ∧ 0x1288 ≤ (0x1288 : Offset).toNat := by decide

/-- Each of the three cases of `ReadsChangeNothing`. -/
theorem witness_ReadsChangeNothing : State.reset.memRead 0x040 8 = .ok 0 ∧
    State.reset.memRead 0x018 8 = .error (.busError 0x018 8) ∧
    State.reset.memRead 0x1000 8 = .error (.unwrittenRead 0x1000) := ⟨rfl, rfl, rfl⟩

theorem witness_OperandWriteWhileBusy : pendingNop.status.busy = true ∧
    (0x020 : Offset) = BitVec.ofNat 13 (0x020 + 8 * (0 : Fin 4).val) ∧
    (0x038 : Offset) = BitVec.ofNat 13 (0x020 + 8 * (3 : Fin 4).val) ∧
    (0x800 : Offset) = BitVec.ofNat 13 (0x800 + 8 * (0 : Fin 243).val) ∧
    (0xF90 : Offset) = BitVec.ofNat 13 (0x800 + 8 * (242 : Fin 243).val) := by decide

theorem witness_OperandWriteWhileIdle : State.reset.status.busy = false ∧ (1 : Nat) ≠ (0 : Fin 243).val ∧ 15 < 16 ∧
    (0xF8F < 0x800 + 8 * (242 : Fin 243).val ∨ 0x800 + 8 * (242 : Fin 243).val + 8 ≤ 0xF8F) := by decide

theorem witness_ByteLayout : regAt 0x038 = some (.op 3) ∧ (ops 0 0 0 5).readReg (.op 3) = some 5 ∧ 7 < 8 ∧ 15 < 16 ∧
    (coefs 242 [k1]).coef 242 = some k1 := by decide +kernel

theorem witness_ByteLayout_qg : ({ State.reset with mem := writeWord [] (qgOffset 80) k1 }).qg 80 = some k1 := by
  decide +kernel

theorem witness_CommandWrite : State.reset.status.busy = false ∧ pendingNop.status.busy = true := by decide

/-! ### Witnesses: completion -/

theorem witness_PendingCommandCompletes : pendingNop.pend = some 0 ∧ (State.reset.accept 0x1140).pend = some 0x1140 ∧
    State.reset.pend = none := by decide

theorem witness_CommandsWriteOnly : exec .nop State.reset = .next State.reset.succeed ∧ writtenChr .nop ≤ 0 ∧
    (0 < qgOffset 0 ∨ qgOffset (writtenQg .nop) ≤ 0) := ⟨rfl, by decide⟩

theorem witness_ErrorsWriteNothing : State.reset.status.err = false ∧
    exec (.b83dec 1) State.reset = .next (State.reset.raiseErr .invalidCharacter 0) ∧
    (State.reset.raiseErr .invalidCharacter 0).status.err = true := ⟨rfl, rfl, rfl⟩

theorem witness_CommandsReadOnly : sameOperands (ops 5 1 2 3) { ops 0x105 0 0 0 with res := #v[1, 1, 1, 1] } .s2l ∧
    sameOperands g2 { g2 with chr := Vector.replicate 16 7 } (.gridq 2 1) ∧
    sameOperands (chars 0x41 0) (chars 0x4241 0) (.b83dec 1) := by
  refine ⟨rfl, fun k _ => by rw [State.coef_eq, State.coef_eq], ?_⟩
  intro k hk hk'
  obtain rfl : k = 0 := by simpa using hk'
  rfl

theorem witness_RaceAdmitsBothValues :
    ((ops 0 0 0 0).accept 0x31).pend = some 0x31 ∧ decode 0x31 = .ok .amaxq ∧
    (nextState (exec .amaxq ((ops 0 0 0 0).accept 0x31))).isSome = true ∧
    ((ops 0 0 0 0).accept 0x31).memRead 0x048 8 = .ok 0 ∧
    (nextState (exec .amaxq ((ops 0 0 0 0).accept 0x31))).map (fun t => t.res[1]) = some 0x3F78ACB90F6BF3AA := by
  refine ⟨rfl, by decide, by decide +kernel, rfl, by decide +kernel⟩

/-! ### Witnesses: base 83 -/

theorem witness_B83encResult : 1 ≤ (1#4).toNat ∧ (1#4).toNat ≤ 10 ∧ 1 ≤ (10#4).toNat ∧ (10#4).toNat ≤ 10 ∧ 15 < 16 := by
  decide

theorem witness_B83decResult_digits : 1 ≤ (2#4).toNat ∧ (2#4).toNat ≤ 10 ∧
    ∀ k, ∀ _ : k < 16, k < (2#4).toNat → idx83 (chars 0x717E 0).chr[k] = some ([82, 52].getD k 0) := by
  refine ⟨by decide, by decide, ?_⟩
  decide +kernel

theorem witness_B83decResult_invalid : 9 < (10#4).toNat ∧ idx83 (chars 0x3030303030303030 0x0A30).chr[9] = none ∧
    ∀ j, ∀ _ : j < 16, j < 9 → (idx83 (chars 0x3030303030303030 0x0A30).chr[j]).isSome = true := by decide +kernel

theorem witness_Base83RoundTrip : 1 ≤ (10#4).toNat ∧ (10#4).toNat ≤ 10 ∧
    (ops 15516041187205853448 0 0 0).op[0].toNat < 83 ^ (10#4).toNat ∧ (ops 82 0 0 0).op[0].toNat < 83 ^ (1#4).toNat := by
  decide +kernel

/-! ### Witnesses: colour -/

theorem witness_S2lfFormula : 0 < 256 ∧ 255 < 256 := by decide

theorem witness_S2lfRange : 0 < 256 ∧ 255 < 256 := by decide

theorem witness_L2sfFormula : isNaN k0 = false ∧ isNaN 0xFFF0000000000000 = false ∧ isNaN 0x8000000000000000 = false := by
  decide +kernel

theorem witness_L2sfMonotone : fle 0xFFF0000000000000 0x7FF0000000000000 = true ∧ fle kLinT 0x3F69A5C37387B71A = true := by
  decide +kernel

theorem witness_L2sResult : isNaN (ops k1 0 0 0).op[0] = false ∧ isNaN (ops nan 0 0 0).op[0] = true := by decide +kernel

theorem witness_SignedPowFormula : kHalf ∈ [kHalf, kInv2_2, k2] ∧ isNaN 0x8000000000000000 = false ∧
    isZero 0x8000000000000000 = true ∧ isNaN 0xFFF0000000000000 = false ∧ isInf 0xFFF0000000000000 = true ∧
    IsFinite k2 ∧ flt k0 k2 = true ∧ IsFinite (fneg k2) ∧ flt (fneg k2) k0 = true := by decide +kernel

theorem witness_SignedPowOdd : isNaN k2 = false ∧ kInv2_2 ∈ [kHalf, kInv2_2] ∧ IsFinite 0x0000000000000001 ∧
    magOf 0x0000000000000001 ≠ 0 := by decide +kernel

theorem witness_SignedPowAsRootAndSquare : isNaN (fneg k2) = false ∧ IsFinite 0x8000000000000000 ∧
    isInf 0x7FF0000000000000 = true := by decide +kernel

theorem witness_SignedPowersResult : (Instr.spowg, (0x21 : Word), kInv2_2) ∈
      [(Instr.spowh, (0x20 : Word), kHalf), (.spowg, 0x21, kInv2_2), (.spows, 0x22, k2)] ∧
    isNaN (ops k1 0 0 0).op[0] = false ∧ isNaN (ops nan 0 0 0).op[0] = true := by decide +kernel

/-! ### Witnesses: quantizers -/

theorem witness_DcqResult : isNaN (ops k1 k0 k2 nan).op[0] = false ∧ isNaN (ops k1 k0 k2 nan).op[1] = false ∧
    isNaN (ops k1 k0 k2 nan).op[2] = false ∧ (2 : Fin 4).val < 3 ∧ isNaN (ops k1 k0 nan k0).op[2] = true ∧
    ∀ j : Fin 4, j < 2 → isNaN (ops k1 k0 nan k0).op[j] = false := by decide +kernel

theorem witness_AmaxqResult : isNaN 0xFFF0000000000000 = false ∧ isNaN (ops k1 0 0 0).op[0] = false ∧
    isNaN (ops nan 0 0 0).op[0] = true := by decide +kernel

theorem witness_AmaxQuantRange : isNaN 0x7FF0000000000000 = false ∧ fle (fneg k1) k1 = true ∧ 0 ≤ 82 ∧ 82 ≤ 82 := by
  decide +kernel

theorem witness_AcQuotientNaN : acf1 k1 kHalf = some 18 ∧ acf1 (fneg k1) kHalf = some 0 ∧ acf1 k0 k0 = none := by
  decide +kernel

theorem witness_AcBinMonotone : IsFinite kHalf ∧ flt k0 kHalf = true ∧ fle (fneg k1) k1 = true ∧
    isZero 0x8000000000000000 = true ∧ fle kHalf kHalf = true ∧ fle (fneg kHalf) (fneg kHalf) = true := by decide +kernel

theorem witness_AcqResult : (∀ k : Fin 4, isNaN (ops k0 k0 k0 kHalf).op[k] = false) ∧ acf1 k0 kHalf = some 9 := by
  decide +kernel

theorem witness_AcqResult_operand : isNaN (ops k0 k0 k0 nan).op[3] = true ∧
    ∀ j : Fin 4, j < 3 → isNaN (ops k0 k0 k0 nan).op[j] = false := by decide +kernel

theorem witness_AcqResult_quotient : (∀ k : Fin 4, isNaN (ops k1 k1 0 0).op[k] = false) ∧ (2 : Fin 4).val < 3 ∧
    acf1 (ops k1 k1 0 0).op[2] (ops k1 k1 0 0).op[3] = none ∧
    ∀ j : Fin 4, j < 2 → (acf1 (ops k1 k1 0 0).op[j] (ops k1 k1 0 0).op[3]).isSome = true := by decide +kernel

/-! ### Witnesses: the grid -/

/-- G2's words by index. -/
def g2Word (k : Nat) : Word := [k1, k1, k1, 0x3FB999999999999A, 0xBFB999999999999A, 0].getD k 0

theorem witness_GridqResult : 1 ≤ (2#4).toNat ∧ (2#4).toNat ≤ 9 ∧ 1 ≤ (1#4).toNat ∧ (1#4).toNat ≤ 9 ∧ (9#4).toNat ≤ 9 ∧
    ∀ k < 3 * ((2#4).toNat * (1#4).toNat), g2.coef k = some (g2Word k) ∧ isNaN (g2Word k) = false := by decide +kernel

theorem witness_GridqInvalidComponents : ¬(1 ≤ (0#4).toNat ∧ (0#4).toNat ≤ 9) ∧ ¬(1 ≤ (10#4).toNat ∧ (10#4).toNat ≤ 9) ∧
    1 ≤ (9#4).toNat ∧ (9#4).toNat ≤ 9 := by decide

theorem witness_GridqUnwrittenOperand : 5 < 3 * ((2#4).toNat * (1#4).toNat) ∧
    (coefs 0 [k1, k1, k1, nan, k1]).coef 5 = none ∧ (2#4).toNat ≤ 9 := by decide +kernel

theorem witness_GridqNaN : 2 < 3 * ((1#4).toNat * (1#4).toNat) ∧ isNaN ([k1, k1, nan].getD 2 0) = true ∧
    (∀ j < 2, isNaN ([k1, k1, nan].getD j 0) = false) ∧
    ∀ j < 3 * ((1#4).toNat * (1#4).toNat), (coefs 0 [k1, k1, nan]).coef j = some ([k1, k1, nan].getD j 0) := by
  decide +kernel

theorem witness_SizeFlagBijection : 1 ≤ 9 ∧ 9 ≤ 9 ∧ 80 ≤ 80 := by decide

theorem witness_GridqEqualsSingleSteps : (nextState (exec (.gridq 2 1) g2)).isSome = true ∧
    (ops (g2Word 3) (g2Word 4) (g2Word 5) 0).op[0] = g2Word (3 * 1) := by decide +kernel

/-! ### Witnesses: binary64 -/

theorem witness_AddSubNearest : IsFinite 0x7FEFFFFFFFFFFFFF ∧ IsFinite 0x8000000000000001 := by decide

theorem witness_MulDivNearest : IsFinite 0x7FEFFFFFFFFFFFFF ∧ IsFinite 0x0000000000000001 ∧
    isZero 0x0000000000000001 = false := by decide

theorem witness_PowcrNearest : IsFinite k2 ∧ flt k0 k2 = true ∧ IsFinite kInv2_2 ∧ flt k0 kInv2_2 = true := by
  decide +kernel

theorem witness_SpecialValues : isNaN nan = true ∧ isInf 0x7FF0000000000000 = true ∧ isInf 0xFFF0000000000000 = true ∧
    signOf 0x7FF0000000000000 ≠ signOf 0xFFF0000000000000 ∧ IsFinite k1 ∧ isZero k0 = true ∧ isZero k1 = false ∧
    valueOf k1 + valueOf (fneg k1) = 0 ∧ valueOf k1 - valueOf k1 = 0 := by
  refine ⟨by decide +kernel, by decide, by decide, by decide, by decide, by decide, by decide, ?_, sub_self _⟩
  rw [valueOf, valueOf, show signedUnits (fneg k1) = -signedUnits k1 by decide +kernel, Int.cast_neg, neg_div, add_neg_cancel]

theorem witness_ComparisonAndFloor : IsFinite k9_5 ∧ (0 : Int) ≤ 18 ∧ isInf 0xFFF0000000000000 = true ∧
    signOf 0xFFF0000000000000 = true ∧ isInf 0x7FF0000000000000 = true ∧ signOf 0x7FF0000000000000 = false ∧ isNaN k1 = false ∧
    isNaN 0xFFF0000000000000 = false := by decide +kernel

end Sys2Proof.Tests
end

/-!
PROOFS. The statements on binary64 (spec/00_scope.md R8, R9). On finite operands the rounding laws of the operations
(`fadd_roundsTo` and its companions) and `RoundsTo.nearest` do the work; on infinities and NaNs each operation has one
equation per case; comparisons are read off the order key.
-/

namespace Sys2Proof.Machine

/-! ### Finite operands: the nearest binary64 -/

/-- A finite value, scaled to units of 2^-1074. -/
theorem valueOf_mul_scale (u : F64) : (valueOf u : ℝ) * 2 ^ 1074 = signedUnits u := by
  rw [valueOf_cast, div_mul_cancel₀ _ (pow_ne_zero 1074 two_ne_zero)]

theorem isZero_eq_false {u : F64} : isZero u = false ↔ magOf u ≠ 0 := by simp [isZero]

theorem fadd_nearest {a b : F64} (ha : IsFinite a) (hb : IsFinite b) :
    NearestTo ((valueOf a : ℝ) + valueOf b) (fadd a b) := by
  refine RoundsTo.nearest ?_
  rw [add_mul, valueOf_mul_scale, valueOf_mul_scale, ← Int.cast_add]
  exact fadd_roundsTo ha hb

theorem fsub_nearest {a b : F64} (ha : IsFinite a) (hb : IsFinite b) :
    NearestTo ((valueOf a : ℝ) - valueOf b) (fsub a b) := by
  refine RoundsTo.nearest ?_
  rw [sub_mul, valueOf_mul_scale, valueOf_mul_scale, ← Int.cast_sub]
  exact fsub_roundsTo ha hb

theorem fmul_nearest {a b : F64} (ha : IsFinite a) (hb : IsFinite b) :
    NearestTo ((valueOf a : ℝ) * valueOf b) (fmul a b) := by
  refine RoundsTo.nearest ?_
  rw [mul_assoc, valueOf_mul_scale, valueOf_cast, div_mul_eq_mul_div]
  exact fmul_roundsTo ha hb

theorem fdiv_nearest {a b : F64} (ha : IsFinite a) (hb : IsFinite b) (h0 : magOf b ≠ 0) :
    NearestTo ((valueOf a : ℝ) / valueOf b) (fdiv a b) := by
  refine RoundsTo.nearest ?_
  rw [valueOf_cast, valueOf_cast, div_div_div_cancel_right₀ (pow_ne_zero 1074 two_ne_zero)]
  exact fdiv_roundsTo ha hb h0

/-- Settles O55: the exact sum and difference, in units, are what `fadd` and `fsub` round. -/
theorem addSubNearest : Obligations.AddSubNearest :=
  fun _ _ ha hb => ⟨fadd_nearest ha hb, fsub_nearest ha hb⟩

/-- Settles O56: the exact product and quotient, in units, are what `fmul` and `fdiv` round, under the exclusive or of
the signs. -/
theorem mulDivNearest : Obligations.MulDivNearest := by
  intro a b ha hb
  refine ⟨⟨fmul_nearest ha hb, signOf_fmul ha hb⟩, fun hz => ?_⟩
  have h0 := isZero_eq_false.1 hz
  exact ⟨fdiv_nearest ha hb h0, signOf_fdiv ha hb h0⟩

/-! ### Comparisons -/

theorem fle_iff {a b : F64} : fle a b = true ↔ isNaN a = false ∧ isNaN b = false ∧ orderKey a ≤ orderKey b := by
  simp [fle, and_assoc]

theorem flt_iff {a b : F64} : flt a b = true ↔ isNaN a = false ∧ isNaN b = false ∧ orderKey a < orderKey b := by
  simp [flt, and_assoc]

theorem flt_eq_not_fle {a b : F64} (ha : isNaN a = false) (hb : isNaN b = false) : flt a b = !fle b a := by
  rw [Bool.eq_iff_iff, Bool.not_eq_true', ← Bool.not_eq_true, flt_iff, fle_iff]
  simp [ha, hb]

theorem valueOf_le_iff {a b : F64} : valueOf a ≤ valueOf b ↔ signedUnits a ≤ signedUnits b := by
  rw [valueOf, valueOf, div_le_div_iff_of_pos_right (pow_pos two_pos 1074), Int.cast_le]

theorem fle_iff_valueOf {a b : F64} (ha : IsFinite a) (hb : IsFinite b) :
    fle a b = true ↔ valueOf a ≤ valueOf b := by
  rw [fle_iff, valueOf_le_iff, ← orderKey_le_iff]
  simp [ha.isNaN, hb.isNaN]

theorem flt_iff_valueOf {a b : F64} (ha : IsFinite a) (hb : IsFinite b) :
    flt a b = true ↔ valueOf a < valueOf b := by
  rw [flt_eq_not_fle ha.isNaN hb.isNaN, Bool.not_eq_true', ← Bool.not_eq_true, fle_iff_valueOf hb ha, not_le]

/-- A value above +0.0 has sign bit 0 and a magnitude. -/
theorem pos_of_flt_k0 {a : F64} (h : flt k0 a = true) : signOf a = false ∧ 0 < magOf a := by
  obtain ⟨-, -, hlt⟩ := flt_iff.1 h
  rw [show orderKey k0 = 0 by decide, orderKey] at hlt
  split_ifs at hlt with hs
  · omega
  · exact ⟨by simpa using hs, by omega⟩

/-! ### The power -/

theorem valueOf_of_sign_false {u : F64} (h : signOf u = false) : (valueOf u : ℝ) = (units u : ℝ) / 2 ^ 1074 := by
  rw [valueOf_cast, signedUnits_eq, h, units_eq]
  simp

/-- Settles O57: the real power, in units, is what `powcr` rounds. -/
theorem powcrNearest : Obligations.PowcrNearest := by
  intro a e ha ha0 _ he0
  obtain ⟨hsa, hma⟩ := pos_of_flt_k0 ha0
  obtain ⟨hse, -⟩ := pos_of_flt_k0 he0
  obtain ⟨hr, hs⟩ := powcr_roundsTo (e := e) hma ha
  rw [valueOf_of_sign_false hsa, valueOf_of_sign_false hse]
  exact ⟨hr.nearest, hs⟩

/-! ### Infinities in the order of values -/

theorem magOf_of_isInf {u : F64} (h : isInf u = true) : magOf u = infMag := by simpa [isInf] using h

theorem isNaN_of_isInf {u : F64} (h : isInf u = true) : isNaN u = false := isNaN_eq_false.2 (magOf_of_isInf h).le

theorem isZero_of_isInf {u : F64} (h : isInf u = true) : isZero u = false := by
  rw [isZero_eq_false, magOf_of_isInf h]
  decide

theorem isFinite_of_isZero {u : F64} (h : isZero u = true) : IsFinite u := by
  have h0 : magOf u = 0 := by simpa [isZero] using h
  rw [IsFinite, h0]
  decide

theorem orderKey_of_isInf {u : F64} (h : isInf u = true) :
    orderKey u = if signOf u then -(infMag : Int) else (infMag : Int) := by
  rw [orderKey, magOf_of_isInf h]

theorem orderKey_bounds {u : F64} (h : isNaN u = false) : -(infMag : Int) ≤ orderKey u ∧ orderKey u ≤ infMag := by
  have := isNaN_eq_false.1 h
  unfold orderKey
  split_ifs <;> omega

theorem orderKey_le_neg_infMag {u : F64} (h : isNaN u = false) :
    orderKey u ≤ -(infMag : Int) ↔ isInf u = true ∧ signOf u = true := by
  have hm := isNaN_eq_false.1 h
  have hi : 0 < infMag := by decide
  rw [isInf, decide_eq_true_eq, orderKey]
  split_ifs with hs
  · rw [and_iff_left hs]
    omega
  · rw [Bool.not_eq_true] at hs
    simp only [hs, Bool.false_eq_true, and_false, iff_false]
    omega

theorem infMag_le_orderKey {u : F64} (h : isNaN u = false) :
    (infMag : Int) ≤ orderKey u ↔ isInf u = true ∧ signOf u = false := by
  have hm := isNaN_eq_false.1 h
  have hi : 0 < infMag := by decide
  rw [isInf, decide_eq_true_eq, orderKey]
  split_ifs with hs
  · simp only [hs, Bool.true_eq_false, and_false, iff_false]
    omega
  · rw [and_iff_left (by simpa using hs)]
    omega

section Infinity
variable {a b : F64} (ha : isInf a = true) (hb : isNaN b = false)
include ha hb

theorem negInf_fle (hs : signOf a = true) : fle a b = true := by
  rw [fle_iff, orderKey_of_isInf ha, if_pos hs]
  exact ⟨isNaN_of_isInf ha, hb, (orderKey_bounds hb).1⟩

theorem fle_negInf_iff (hs : signOf a = true) : fle b a = true ↔ isInf b = true ∧ signOf b = true := by
  rw [fle_iff, orderKey_of_isInf ha, if_pos hs, orderKey_le_neg_infMag hb]
  simp [hb, isNaN_of_isInf ha]

theorem fle_posInf (hs : signOf a = false) : fle b a = true := by
  rw [fle_iff, orderKey_of_isInf ha, hs]
  exact ⟨hb, isNaN_of_isInf ha, (orderKey_bounds hb).2⟩

theorem posInf_fle_iff (hs : signOf a = false) : fle a b = true ↔ isInf b = true ∧ signOf b = false := by
  rw [fle_iff, orderKey_of_isInf ha, hs, if_neg Bool.false_ne_true, infMag_le_orderKey hb]
  simp [hb, isNaN_of_isInf ha]

end Infinity

/-! ### Floor and clamp -/

theorem ffloor_eq_floor (t : F64) : ffloor t = ⌊valueOf t⌋ := by
  have h := Rat.floor_intCast_div_natCast (signedUnits t) (2 ^ 1074)
  rw [Nat.cast_pow, Nat.cast_pow] at h
  rw [ffloor, forceWord_eq, valueOf]
  exact h.symm

theorem clampi_of_isInf {t : F64} (h : isInf t = true) (lo hi : Int) : clampi t lo hi = if signOf t then lo else hi := by
  simp [clampi, h]

theorem clampi_of_isFinite {t : F64} (h : IsFinite t) (lo hi : Int) :
    clampi t lo hi = max lo (min hi ⌊valueOf t⌋) := by
  simp [clampi, h.isInf, ffloor_eq_floor]

/-- Settles O59: comparisons are read off the order key, in which the infinities are the two ends. -/
theorem comparisonAndFloor : Obligations.ComparisonAndFloor := by
  refine ⟨fun a b ha hb => ⟨fle_iff_valueOf ha hb, flt_iff_valueOf ha hb⟩, fun a b ha hs hb => ?_,
    fun a b ha hs hb => ?_,
    fun t _ => ffloor_eq_floor t, fun t lo hi _ => ⟨fun h => clampi_of_isFinite h lo hi, fun h hs => ?_, fun h hs => ?_⟩⟩
  · have hle := negInf_fle ha hb hs
    have hge := fle_negInf_iff ha hb hs
    refine ⟨hle, by rw [flt_eq_not_fle hb (isNaN_of_isInf ha), hle]; rfl, hge, ?_⟩
    rw [flt_eq_not_fle (isNaN_of_isInf ha) hb, Bool.not_eq_true', ← Bool.not_eq_true, hge]
  · have hle := fle_posInf ha hb hs
    have hge := posInf_fle_iff ha hb hs
    refine ⟨hle, by rw [flt_eq_not_fle (isNaN_of_isInf ha) hb, hle]; rfl, hge, ?_⟩
    rw [flt_eq_not_fle hb (isNaN_of_isInf ha), Bool.not_eq_true', ← Bool.not_eq_true, hge]
  · rw [clampi_of_isInf h, hs, if_pos rfl]
  · rw [clampi_of_isInf h, hs, if_neg Bool.false_ne_true]

/-! ### Constants -/

/-- A fraction rounds to the positive pattern that `roundMag` answers for it. -/
theorem nearestTo_of_roundMag {y : ℝ} {u : F64} (n d : Nat) (hy : y = n / d) (hd : 0 < d) (hs : signOf u = false)
    (hr : roundMag (n * 2 ^ 1074) d = magOf u) : NearestTo y u := by
  have hx : y * 2 ^ 1074 = ((n * 2 ^ 1074 : Nat) : ℝ) / d := by
    rw [hy, Nat.cast_mul, Nat.cast_pow, Nat.cast_ofNat, div_mul_eq_mul_div]
  have h0 : 0 ≤ ((n * 2 ^ 1074 : Nat) : ℝ) / d := div_nonneg (Nat.cast_nonneg _) (Nat.cast_nonneg _)
  refine RoundsTo.nearest ?_
  rw [hx]
  refine ⟨?_, fun hneg => absurd h0 (not_le.2 hneg), fun _ => hs⟩
  rw [abs_of_nonneg h0, ← hr]
  exact roundMag_rounds _ hd

/-- Settles O60: `roundMag` of each decimal's fraction is the pattern of R160; the quotients and the exact values are
computed. -/
theorem constantsNearest : Obligations.ConstantsNearest :=
  ⟨rfl,
    nearestTo_of_roundMag 4045 100000 (by norm_num) (by decide) (by decide) (by decide +kernel),
    nearestTo_of_roundMag 1292 100 (by norm_num) (by decide) (by decide) (by decide +kernel),
    nearestTo_of_roundMag 55 1000 (by norm_num) (by decide) (by decide) (by decide +kernel),
    nearestTo_of_roundMag 1055 1000 (by norm_num) (by decide) (by decide) (by decide +kernel),
    nearestTo_of_roundMag 24 10 (by norm_num) (by decide) (by decide) (by decide +kernel),
    nearestTo_of_roundMag 31308 10000000 (by norm_num) (by decide) (by decide) (by decide +kernel),
    nearestTo_of_roundMag 22 10 (by norm_num) (by decide) (by decide) (by decide +kernel),
    by decide +kernel⟩

/-! ### Special values: one equation per case -/

theorem isNaN_nanPattern : isNaN nanPattern = true := by decide

section NaN
variable {a b : F64} (h : isNaN a = true ∨ isNaN b = true)
include h

theorem fadd_of_isNaN : fadd a b = nanPattern := by
  rw [fadd, forceWord_eq, forceWord_eq, if_pos (by simpa using h)]

theorem fsub_of_isNaN : fsub a b = nanPattern := fadd_of_isNaN (by rwa [isNaN_fneg])

theorem fmul_of_isNaN : fmul a b = nanPattern := by
  rw [fmul, forceWord_eq, forceWord_eq, if_pos (by simpa using h)]

theorem fdiv_of_isNaN : fdiv a b = nanPattern := by
  rw [fdiv, forceWord_eq, forceWord_eq, if_pos (by simpa using h)]

theorem fle_of_isNaN : fle a b = false := by
  rcases h with h | h <;> simp [fle, h]

theorem flt_of_isNaN : flt a b = false := by
  rcases h with h | h <;> simp [flt, h]

end NaN

section Special
variable {a b : F64}

theorem fadd_of_isInf_left (ha : isInf a = true) (hb : isNaN b = false) :
    fadd a b = if isInf b && signOf a != signOf b then nanPattern else a := by
  rw [fadd, forceWord_eq, forceWord_eq, if_neg (by simp [isNaN_of_isInf ha, hb]), if_pos ha]

theorem fadd_of_isInf_of_isFinite (ha : isInf a = true) (hb : IsFinite b) : fadd a b = a := by
  simp [fadd_of_isInf_left ha hb.isNaN, hb.isInf]

theorem fadd_of_isFinite_of_isInf (ha : IsFinite a) (hb : isInf b = true) : fadd a b = b := by
  rw [fadd, forceWord_eq, forceWord_eq, if_neg (by simp [ha.isNaN, isNaN_of_isInf hb]), if_neg (by simp [ha.isInf]),
    if_pos hb]

theorem valueOf_add_eq_zero : valueOf a + valueOf b = 0 ↔ signedUnits a + signedUnits b = 0 := by
  rw [valueOf, valueOf, ← add_div, div_eq_zero_iff, or_iff_left (pow_ne_zero 1074 two_ne_zero), ← Int.cast_add,
    Int.cast_eq_zero]

theorem fmul_of_isInf (ha : isNaN a = false) (hb : isNaN b = false) (h : isInf a = true ∨ isInf b = true) :
    fmul a b = if isZero a || isZero b then nanPattern else withSign (signOf a != signOf b) infMag := by
  rw [fmul, forceWord_eq, forceWord_eq, if_neg (by simp [ha, hb]), if_pos (by simpa using h)]

theorem fdiv_of_isInf_left (ha : isInf a = true) (hb : isNaN b = false) :
    fdiv a b = if isInf b then nanPattern else withSign (signOf a != signOf b) infMag := by
  rw [fdiv, forceWord_eq, forceWord_eq, if_neg (by simp [isNaN_of_isInf ha, hb]), if_pos ha]

theorem fdiv_of_isInf_right (ha : IsFinite a) (hb : isInf b = true) : fdiv a b = withSign (signOf a != signOf b) 0 := by
  rw [fdiv, forceWord_eq, forceWord_eq, if_neg (by simp [ha.isNaN, isNaN_of_isInf hb]), if_neg (by simp [ha.isInf]),
    if_pos hb]

theorem fdiv_of_isZero_right (ha : IsFinite a) (hb : isZero b = true) :
    fdiv a b = if isZero a then nanPattern else withSign (signOf a != signOf b) infMag := by
  have hb' := isFinite_of_isZero hb
  rw [fdiv, forceWord_eq, forceWord_eq, if_neg (by simp [ha.isNaN, hb'.isNaN]), if_neg (by simp [ha.isInf]),
    if_neg (by simp [hb'.isInf]), if_pos hb]

/-! ### Special values: the groups of R8 -/

theorem infinities_sum (ha : isInf a = true) (hb : isInf b = true) :
    (signOf a = signOf b → fadd a b = a) ∧ (signOf a ≠ signOf b → isNaN (fadd a b) = true) := by
  rw [fadd_of_isInf_left ha (isNaN_of_isInf hb)]
  exact ⟨fun hs => by simp [hs], fun hs => by simp [hb, hs, isNaN_nanPattern]⟩

theorem infinities_difference (ha : isInf a = true) (hb : isInf b = true) :
    (signOf a = signOf b → isNaN (fsub a b) = true) ∧ (signOf a ≠ signOf b → fsub a b = a) := by
  obtain ⟨hlike, hunlike⟩ := infinities_sum ha (b := fneg b) (by rwa [isInf_fneg])
  rw [signOf_fneg] at hlike hunlike
  exact ⟨fun hs => hunlike (by simp [hs]), fun hs => hlike (Bool.eq_not.2 hs)⟩

theorem infinities_product (ha : isInf a = true) (hb : isInf b = true) :
    fmul a b = withSign (signOf a != signOf b) infMag := by
  simp [fmul_of_isInf (isNaN_of_isInf ha) (isNaN_of_isInf hb) (.inl ha), isZero_of_isInf ha, isZero_of_isInf hb]

theorem infinities_quotient (ha : isInf a = true) (hb : isInf b = true) : isNaN (fdiv a b) = true := by
  rw [fdiv_of_isInf_left ha (isNaN_of_isInf hb), if_pos hb, isNaN_nanPattern]

theorem infinity_mul_finite (ha : isInf a = true) (hb : IsFinite b) :
    fmul a b = if isZero b then nanPattern else withSign (signOf a != signOf b) infMag := by
  simp [fmul_of_isInf (isNaN_of_isInf ha) hb.isNaN (.inl ha), isZero_of_isInf ha]

theorem finite_mul_infinity (ha : isInf a = true) (hb : IsFinite b) :
    fmul b a = if isZero b then nanPattern else withSign (signOf a != signOf b) infMag := by
  simp [fmul_of_isInf hb.isNaN (isNaN_of_isInf ha) (.inr ha), isZero_of_isInf ha, bne_comm (a := signOf b)]

theorem infinity_with_finite (ha : isInf a = true) (hb : IsFinite b) :
    fadd a b = a ∧ fadd b a = a ∧ fsub a b = a ∧ fsub b a = fneg a ∧
      fdiv b a = withSign (signOf a != signOf b) 0 ∧ fdiv a b = withSign (signOf a != signOf b) infMag := by
  have hnb : IsFinite (fneg b) := by rwa [IsFinite, magOf_fneg]
  have hna : isInf (fneg a) = true := by rwa [isInf_fneg]
  refine ⟨fadd_of_isInf_of_isFinite ha hb, fadd_of_isFinite_of_isInf hb ha, fadd_of_isInf_of_isFinite ha hnb,
    fadd_of_isFinite_of_isInf hb hna, ?_, ?_⟩
  · rw [fdiv_of_isInf_right hb ha, bne_comm]
  · simp [fdiv_of_isInf_left ha hb.isNaN, hb.isInf]

/-- An exact zero sum has the sign that both operands have. -/
theorem fadd_of_cancel (ha : IsFinite a) (hb : IsFinite b) (h : valueOf a + valueOf b = 0) :
    fadd a b = withSign (signOf a && signOf b) 0 := by
  rw [fadd, forceWord_eq, forceWord_eq, if_neg (by simp [ha.isNaN, hb.isNaN]), if_neg (by simp [ha.isInf]),
    if_neg (by simp [hb.isInf]), if_pos (valueOf_add_eq_zero.1 h)]

end Special

theorem valueOf_fneg (u : F64) : valueOf (fneg u) = -valueOf u := by
  rw [valueOf, valueOf, signedUnits_fneg, Int.cast_neg, neg_div]

theorem fsub_of_cancel {a b : F64} (ha : IsFinite a) (hb : IsFinite b) (h : valueOf a - valueOf b = 0) :
    fsub a b = withSign (signOf a && !signOf b) 0 := by
  rw [← signOf_fneg]
  exact fadd_of_cancel ha (by rwa [IsFinite, magOf_fneg]) (by rwa [valueOf_fneg, ← sub_eq_add_neg])

/-- Settles O58: each clause is one of the groups above. -/
theorem specialValues : Obligations.SpecialValues := by
  refine ⟨fun a b h => ?_, fun a b ha hb => ?_, fun a b ha hb => ?_, fun a b ha hb => ?_,
    fun a b ha hb => ⟨fadd_of_cancel ha hb, fsub_of_cancel ha hb⟩⟩
  · rw [fadd_of_isNaN h, fsub_of_isNaN h, fmul_of_isNaN h, fdiv_of_isNaN h]
    exact ⟨isNaN_nanPattern, isNaN_nanPattern, isNaN_nanPattern, isNaN_nanPattern, fle_of_isNaN h, flt_of_isNaN h⟩
  · obtain ⟨hsum, hsum'⟩ := infinities_sum ha hb
    obtain ⟨hdiff, hdiff'⟩ := infinities_difference ha hb
    exact ⟨fun hs => ⟨hsum hs, hdiff hs⟩, fun hs => ⟨hsum' hs, hdiff' hs⟩, infinities_product ha hb,
      infinities_quotient ha hb⟩
  · obtain ⟨h1, h2, h3, h4, h5, h6⟩ := infinity_with_finite ha hb
    refine ⟨h1, h2, h3, h4, h5, h6, fun hz => ?_, fun hz => ?_⟩ <;>
      rw [infinity_mul_finite ha hb, finite_mul_infinity ha hb, hz]
    · exact ⟨isNaN_nanPattern, isNaN_nanPattern⟩
    · exact ⟨rfl, rfl⟩
  · rw [fdiv_of_isZero_right ha hb]
    exact ⟨fun hz => by rw [if_pos hz, isNaN_nanPattern], fun hz => by rw [hz, if_neg Bool.false_ne_true]⟩

end Sys2Proof.Machine

/-!
PROOFS. The invariant of the block's state (spec/10_state.md R30, R33 to R38; spec/60_exceptions.md R270). A step is one
of seven moves (`step_moved`); the memory's half of `Inv` and the half of STATUS and PEND are kept apart, one lemma each
for every operation a move is made of.
-/

namespace Sys2Proof.Machine

/-! ### The moves of a step -/

/-- What a step does to the state, the moves still to come apart. -/
inductive Moved (s : State) : State → Prop
  | idle : Moved s s
  | illegal : Moved s (s.raiseErr .illegalCommand 0)
  | command {i : Instr} {t : State} (h : exec i s = .next t) : Moved s t
  | reset : Moved s s.resetEvent
  | reply (off : Offset) (v : Word) : Moved s { s with replies := (off, v) :: s.replies }
  | write (r : Reg) (v : Word) : Moved s (s.writeReg v r)
  | fault (f : Fault) : Moved s (s.record f)

theorem State.blockMove_moved {s t : State} (h : s.blockMove = .next t) : Moved s t := by
  unfold State.blockMove at h
  cases hp : s.pend with
  | none =>
    rw [hp] at h
    cases h
    exact .idle
  | some w =>
    rw [hp] at h
    simp only [State.complete] at h
    cases hd : decode w with
    | ok i =>
      rw [hd] at h
      exact .command h
    | error r =>
      rw [hd] at h
      cases h
      exact .illegal

theorem State.hostMove_moved {s t : State} {a : HostOp} (h : s.hostMove a = .next t) : Moved s t := by
  rcases s.hostMove_cases a with ⟨-, h'⟩ | ⟨off, v, -, h'⟩ | ⟨r, v, h'⟩ | ⟨f, h'⟩ <;> rw [h'] at h <;> cases h
  · exact .reset
  · exact .reply off v
  · exact .write r v
  · exact .fault f

theorem step_moved {s t : State} (h : step s = .next t) : ∃ ts, Moved { s with turns := ts } t := by
  unfold step at h
  split at h
  · exact ⟨s.turns, State.blockMove_moved h⟩
  · exact ⟨_, State.blockMove_moved h⟩
  · exact ⟨_, State.hostMove_moved h⟩

/-! ### The memory's half -/

theorem isSome_memGet_iff {m : Mem} {a : Nat} : (memGet m a).isSome = true ↔ ∃ c ∈ m, c.1 = a := by
  induction m with
  | nil => simp [memGet]
  | cons c m ih =>
    unfold memGet
    split_ifs with h
    · simp [h]
    · simp [ih, h]

/-- The clauses of `Inv` about the memory, by the addresses that hold a byte. -/
structure MemInv (m : Mem) : Prop where
  ordered : memWf m
  ram : ∀ a, (memGet m a).isSome = true → IsRam a
  whole : ∀ a, (memGet m a).isSome = true → ∀ b < 8, (memGet m (a / 8 * 8 + b)).isSome = true

theorem memInv_reset : MemInv State.reset.mem := ⟨memWf_reset, nofun, nofun⟩

/-- A write of one whole RAM word keeps the memory's clauses. -/
theorem MemInv.writeWord {m : Mem} (h : MemInv m) {a : Nat} (hal : a % 8 = 0) (hram : ∀ b < 8, IsRam (a + b))
    (v : Word) : MemInv (writeWord m a v) := by
  have isSome_iff (b : Nat) : (memGet (Machine.writeWord m a v) b).isSome = true ↔
      (a ≤ b ∧ b < a + 8) ∨ (memGet m b).isSome = true := by
    rw [memGet_writeWord]
    split_ifs with hb <;> simp [hb]
  refine ⟨memWf_writeWord h.ordered a v, fun b hb => ?_, fun b hb j hj => ?_⟩
  · rcases (isSome_iff b).1 hb with hb | hb
    · rw [show b = a + (b - a) by omega]
      exact hram _ (by omega)
    · exact h.ram b hb
  · rw [isSome_iff]
    rcases (isSome_iff b).1 hb with hb | hb
    · exact .inl (by omega)
    · exact .inr (h.whole b hb j hj)

theorem MemInv.writeCoef {m : Mem} (h : MemInv m) {n : Nat} (hn : n < nCoef) (v : Word) :
    MemInv (Machine.writeWord m (coefOffset n) v) := by
  unfold nCoef at hn
  unfold coefOffset
  exact h.writeWord (by omega) (fun b hb => .inl (by omega)) v

theorem MemInv.writeQg {m : Mem} (h : MemInv m) {n : Nat} {vs : List Nat} (hn : n + vs.length ≤ nQg) :
    MemInv (writeQg m n vs) := by
  induction vs generalizing m n with
  | nil => exact h
  | cons v vs ih =>
    rw [List.length_cons] at hn
    simp only [Machine.writeQg, force_eq]
    refine ih (h.writeWord ?_ (fun b hb => .inr ?_) _) (by omega) <;> simp only [qgOffset, nQg] at * <;> omega

/-! ### The half of STATUS and PEND -/

/-- The clauses of `Inv` about STATUS and PEND. -/
structure ControlInv (t : Status) (pend : Option Word) : Prop where
  busyPend : t.busy = pend.isSome
  quiet : t.busy = true → t.done = false ∧ t.err = false
  noErr : t.err = false → t.errcode = 0 ∧ t.erridx = 0
  code : t.err = true → t.errcode.toNat ∈ [1, 2, 5, 6]
  index : t.erridx.toNat ≤ 242
  lastop : ∀ w, pend = some w → t.lastop = w.extractLsb' 0 8

theorem controlInv_reset : ControlInv Status.reset none := by constructor <;> simp [Status.reset]

theorem controlInv_accepted (t : Status) (w : Word) : ControlInv (t.accepted w) (some w) := by
  constructor <;> simp

/-- An error report with a code the block raises and an index in range. -/
theorem controlInv_failed (t : Status) {e : CmdError} {k : Nat}
    (he : e ∈ [CmdError.invalidCharacter, .invalidComponents, .illegalCommand, .nanOperand]) (hk : k ≤ 242) :
    ControlInv (t.failed e k) none := by
  refine ⟨rfl, nofun, nofun, fun _ => ?_, ?_, nofun⟩
  · simp only [List.mem_cons, List.not_mem_nil, or_false] at he
    rw [Status.failed_errcode]
    rcases he with rfl | rfl | rfl | rfl <;> decide
  · rw [Status.failed_erridx, BitVec.toNat_ofNat]
    omega

section Control
variable {t : Status} {pend : Option Word} (h : ControlInv t pend)
include h

theorem ControlInv.succeeded : ControlInv t.succeeded none :=
  ⟨rfl, nofun, h.noErr, h.code, h.index, nofun⟩

theorem ControlInv.overrun : ControlInv t.overrun pend :=
  ⟨h.busyPend, h.quiet, h.noErr, h.code, h.index, h.lastop⟩

theorem ControlInv.writeOneToClear (w : Word) : ControlInv (t.writeOneToClear w) pend := by
  have hquiet : (t.writeOneToClear w).busy = true →
      (t.writeOneToClear w).done = false ∧ (t.writeOneToClear w).err = false := fun hb => by
    obtain ⟨hd, he⟩ := h.quiet hb
    simp [hd, he]
  cases hw : w.getLsbD 2 with
  | true =>
    refine ⟨h.busyPend, hquiet, ?_, ?_, ?_, h.lastop⟩ <;>
      simp only [Status.writeOneToClear_err, Status.writeOneToClear_errcode, Status.writeOneToClear_erridx, hw] <;> simp
  | false =>
    refine ⟨h.busyPend, hquiet, ?_, ?_, ?_, h.lastop⟩ <;>
      simp only [Status.writeOneToClear_err, Status.writeOneToClear_errcode, Status.writeOneToClear_erridx, hw,
        Bool.not_false, Bool.and_true, Bool.false_eq_true, if_false]
    · exact h.noErr
    · exact h.code
    · exact h.index

end Control

/-! ### Both halves under every move -/

theorem inv_iff {s : State} : Inv s ↔ MemInv s.mem ∧ ControlInv s.status s.pend := by
  constructor
  · rintro ⟨h1, h2, h3, h4, h5, h6, h7, h8, h9⟩
    refine ⟨⟨h1, fun a ha => ?_, fun a ha => ?_⟩, h4, h5, h6, h7, h8, h9⟩
    · obtain ⟨c, hc, rfl⟩ := isSome_memGet_iff.1 ha
      exact h2 c hc
    · obtain ⟨c, hc, rfl⟩ := isSome_memGet_iff.1 ha
      exact h3 c hc
  · rintro ⟨⟨h1, h2, h3⟩, h4, h5, h6, h7, h8, h9⟩
    exact ⟨h1, fun c hc => h2 _ (isSome_memGet_iff.2 ⟨c, hc, rfl⟩),
      fun c hc => h3 _ (isSome_memGet_iff.2 ⟨c, hc, rfl⟩), h4, h5, h6, h7, h8, h9⟩

theorem Inv.withTurns {s : State} (h : Inv s) (ts : List Turn) : Inv { s with turns := ts } := by
  obtain ⟨hm, hc⟩ := inv_iff.1 h
  exact inv_iff.2 ⟨hm, hc⟩

theorem MemInv.writeReg {s : State} (h : MemInv s.mem) (v : Word) (r : Reg) : MemInv (s.writeReg v r).mem := by
  cases r with
  | coef n =>
    simp only [State.writeReg, State.guarded]
    split_ifs
    · exact h
    · rw [State.setCoef_mem]
      exact h.writeCoef n.isLt v
  | cmd | op | chr =>
    simp only [State.writeReg, State.offer, State.guarded]
    split_ifs <;> exact h
  | id | status | res | qg => exact h

/-- A write of an operand register or word, whatever it does beside STATUS and PEND. -/
theorem ControlInv.guarded {s t : State} (h : ControlInv s.status s.pend) (ht : t.status = s.status)
    (hp : t.pend = s.pend) : ControlInv (s.guarded t).status (s.guarded t).pend := by
  unfold State.guarded
  split_ifs
  · exact h.overrun
  · rwa [ht, hp]

theorem ControlInv.writeReg {s : State} (h : ControlInv s.status s.pend) (v : Word) (r : Reg) :
    ControlInv (s.writeReg v r).status (s.writeReg v r).pend := by
  cases r with
  | cmd =>
    simp only [State.writeReg, State.offer]
    split_ifs
    · exact h.overrun
    · exact controlInv_accepted s.status v
  | status => exact h.writeOneToClear v
  | op | chr | coef => exact h.guarded rfl rfl
  | id | res | qg => exact h

theorem Inv.exec {s t : State} {i : Instr} (h : Inv s) (hx : exec i s = .next t) : Inv t := by
  obtain ⟨hm, hc⟩ := inv_iff.1 h
  rw [inv_iff]
  rcases exec_cases i s with ⟨e, k, hk, he, h'⟩ | ⟨res, chr, vs, hvs, h'⟩ | ⟨-, h'⟩ <;> rw [h'] at hx <;> cases hx
  · exact ⟨hm, controlInv_failed s.status he hk⟩
  · exact ⟨hm.writeQg (by omega), hc.succeeded⟩

theorem Inv.moved {s t : State} (h : Inv s) (hst : Moved s t) : Inv t := by
  obtain ⟨hm, hc⟩ := inv_iff.1 h
  cases hst with
  | command hx => exact h.exec hx
  | illegal => exact inv_iff.2 ⟨hm, controlInv_failed s.status (by simp) (by omega)⟩
  | reset => exact inv_iff.2 ⟨memInv_reset, controlInv_reset⟩
  | write r v => exact inv_iff.2 ⟨hm.writeReg v r, hc.writeReg v r⟩
  | idle | reply | fault => exact inv_iff.2 ⟨hm, hc⟩

theorem exec_faults {s t : State} {i : Instr} (hx : exec i s = .next t) : t.faults = s.faults := by
  rcases exec_cases i s with ⟨e, k, -, -, h'⟩ | ⟨res, chr, vs, -, h'⟩ | ⟨-, h'⟩ <;> rw [h'] at hx <;> cases hx <;> rfl

theorem Moved.faults {s t : State} (h : Moved s t) : t.faults = s.faults ∨ ∃ f, t.faults = f :: s.faults := by
  cases h with
  | fault f => exact .inr ⟨f, rfl⟩
  | command hx => exact .inl (exec_faults hx)
  | write r v => exact .inl (s.writeReg_faults v r)
  | idle | illegal | reset | reply => exact .inl rfl

/-- Settles O4: each of the seven moves of a step keeps both halves of `Inv`, and the record of a model fault is the only
one that adds to the record. -/
theorem stepKeepsInv : Obligations.StepKeepsInv := by
  refine ⟨fun s t hs h => ?_, fun s t h => ?_⟩ <;> obtain ⟨ts, hst⟩ := step_moved h
  · exact (hs.withTurns ts).moved hst
  · exact hst.faults

end Sys2Proof.Machine

/-!
PROOFS. The range of the quantized values (spec/41_color.md R165, spec/42_quantizers.md R201, R206). Each rounded operation
is monotone in one operand, so that an interval of values is carried through `srgbScaled` by computing its two ends.
-/

namespace Sys2Proof.Machine

/-! ### The rounded operations are monotone -/

section Monotone
variable {a b c : F64} (ha : IsFinite a) (hb : IsFinite b) (h : orderKey a ≤ orderKey b)
include ha hb h

theorem orderKey_fadd_mono (hc : IsFinite c) : orderKey (fadd a c) ≤ orderKey (fadd b c) := by
  refine (fadd_roundsTo ha hc).mono (fadd_roundsTo hb hc) ?_
  have := (orderKey_le_iff a b).1 h
  exact_mod_cast Int.add_le_add_right this _

theorem orderKey_fsub_mono (hc : IsFinite c) : orderKey (fsub a c) ≤ orderKey (fsub b c) :=
  orderKey_fadd_mono ha hb h (by simpa [IsFinite] using hc)

theorem orderKey_fmul_mono (hc : IsFinite c) (hs : signOf c = false) :
    orderKey (fmul a c) ≤ orderKey (fmul b c) := by
  refine (fmul_roundsTo ha hc).mono (fmul_roundsTo hb hc) ?_
  have hab : (signedUnits a : ℝ) ≤ signedUnits b := Int.cast_le.2 ((orderKey_le_iff a b).1 h)
  have hc0 : (0 : ℝ) ≤ signedUnits c := by
    rw [signedUnits_eq, hs]
    simp
  exact div_le_div_of_nonneg_right (mul_le_mul_of_nonneg_right hab hc0) (pow_nonneg zero_le_two 1074)

theorem orderKey_powcr_mono (ha0 : 0 < orderKey a) (e : F64) : orderKey (powcr a e) ≤ orderKey (powcr b e) := by
  have pos {u : F64} (h0 : 0 < orderKey u) : signOf u = false ∧ 0 < magOf u := by
    unfold orderKey at h0
    split_ifs at h0 with hs
    · omega
    · exact ⟨by simpa using hs, by omega⟩
  obtain ⟨hsa, hma⟩ := pos ha0
  obtain ⟨hsb, hmb⟩ := pos (ha0.trans_le h)
  have hu : (units a : ℝ) ≤ units b := by
    have hk := (orderKey_le_iff a b).1 h
    simp only [signedUnits, hsa, hsb, Bool.false_eq_true, if_false] at hk
    exact_mod_cast hk
  refine (powcr_roundsTo hma ha).1.mono (powcr_roundsTo hmb hb).1 ?_
  have h0 : (0 : ℝ) ≤ 2 ^ 1074 := pow_nonneg zero_le_two 1074
  refine mul_le_mul_of_nonneg_right (Real.rpow_le_rpow ?_ (div_le_div_of_nonneg_right hu h0) ?_) h0
  · exact div_nonneg (Nat.cast_nonneg _) h0
  · exact div_nonneg (Nat.cast_nonneg _) h0

end Monotone

theorem fmul_comm (a b : F64) : fmul a b = fmul b a := by
  simp only [fmul, forceWord_eq, Nat.mul_comm (units a), Bool.or_comm (isNaN a), Bool.or_comm (isInf a),
    Bool.or_comm (isZero a), bne_comm (a := signOf a)]

theorem ffloor_mono {a b : F64} (h : orderKey a ≤ orderKey b) : ffloor a ≤ ffloor b := by
  rw [ffloor_eq_floor, ffloor_eq_floor]
  exact Int.floor_mono (valueOf_le_iff.2 ((orderKey_le_iff a b).1 h))

/-! ### Intervals -/

/-- `x` lies between `lo` and `hi` in the order of values. -/
def Within (lo x hi : F64) : Prop := orderKey lo ≤ orderKey x ∧ orderKey x ≤ orderKey hi

section Within
variable {lo x hi c : F64} (hlo : IsFinite lo) (hhi : IsFinite hi) (h : Within lo x hi)
include hlo hhi h

theorem Within.isFinite : IsFinite x := by
  obtain ⟨h1, h2⟩ := h
  unfold orderKey at h1 h2
  split_ifs at h1 h2 <;> omega

theorem Within.fadd (hc : IsFinite c) : Within (fadd lo c) (fadd x c) (fadd hi c) :=
  have hx := h.isFinite hlo hhi
  ⟨orderKey_fadd_mono hlo hx h.1 hc, orderKey_fadd_mono hx hhi h.2 hc⟩

theorem Within.fsub (hc : IsFinite c) : Within (fsub lo c) (fsub x c) (fsub hi c) :=
  have hx := h.isFinite hlo hhi
  ⟨orderKey_fsub_mono hlo hx h.1 hc, orderKey_fsub_mono hx hhi h.2 hc⟩

theorem Within.fmul (hc : IsFinite c) (hs : signOf c = false) : Within (fmul lo c) (fmul x c) (fmul hi c) :=
  have hx := h.isFinite hlo hhi
  ⟨orderKey_fmul_mono hlo hx h.1 hc hs, orderKey_fmul_mono hx hhi h.2 hc hs⟩

theorem Within.powcr (h0 : 0 < orderKey lo) (e : F64) : Within (powcr lo e) (powcr x e) (powcr hi e) :=
  have hx := h.isFinite hlo hhi
  ⟨orderKey_powcr_mono hlo hx h.1 h0 e, orderKey_powcr_mono hx hhi h.2 (h0.trans_le h.1) e⟩

end Within

/-! ### L2SF and DCF -/

/-- The clamped value is between 0 and 1 (spec/41_color.md R165). -/
theorem clampUnit_within {v : F64} (hv : isNaN v = false) : Within k0 (clampUnit v) k1 := by
  have h0 : isNaN k0 = false := by decide
  have h1 : isNaN k1 = false := by decide
  unfold clampUnit
  split_ifs with hlt hgt
  · exact ⟨le_rfl, by decide⟩
  · exact ⟨by decide, le_rfl⟩
  · rw [flt_iff] at hlt hgt
    exact ⟨not_lt.1 fun h => hlt ⟨hv, h0, h⟩, not_lt.1 fun h => hgt ⟨h1, hv, h⟩⟩

/-- The scaled value is between 0 and 255 on [0, 1]: on each branch the two ends of the branch are computed. -/
theorem srgbScaled_within {u : F64} (hu : Within k0 u k1) : Within k0 (srgbScaled u) k255 := by
  have hfin := hu.isFinite (by decide) (by decide)
  unfold srgbScaled
  split_ifs with hle
  · have hw : Within k0 u kLinT := ⟨hu.1, (fle_iff.1 hle).2.2⟩
    have hw := hw.fmul (c := k12_92) (by decide) (by decide) (by decide) (by decide)
    have hw := hw.fmul (c := k255) (by decide +kernel) (by decide +kernel) (by decide) (by decide)
    exact ⟨le_trans (by decide +kernel) hw.1, hw.2.trans (by decide +kernel)⟩
  · have hgt : flt kLinT u = true := by
      rw [flt_eq_not_fle (by decide) hfin.isNaN]
      simpa using hle
    have hw : Within kLinT u k1 := ⟨(flt_iff.1 hgt).2.2.le, hu.2⟩
    have hw := hw.powcr (by decide) (by decide) (by decide) kInv2_4
    have hw := hw.fmul (c := k1_055) (by decide +kernel) (by decide +kernel) (by decide) (by decide)
    have hw := hw.fsub (c := k0_055) (by decide +kernel) (by decide +kernel) (by decide)
    have hw := hw.fmul (c := k255) (by decide +kernel) (by decide +kernel) (by decide) (by decide)
    rw [fmul_comm k1_055]
    exact ⟨le_trans (by decide +kernel) hw.1, hw.2.trans (by decide +kernel)⟩

/-- The number L2SF floors is between 0.5 and 255.5 (spec/41_color.md R165). -/
theorem ffloor_srgbScaled {v : F64} (hv : isNaN v = false) :
    0 ≤ ffloor (fadd (srgbScaled (clampUnit v)) kHalf) ∧ ffloor (fadd (srgbScaled (clampUnit v)) kHalf) ≤ 255 := by
  have hw := (srgbScaled_within (clampUnit_within hv)).fadd (c := kHalf) (by decide) (by decide) (by decide)
  have h0 : ffloor (fadd k0 kHalf) = 0 := by decide +kernel
  have h255 : ffloor (fadd k255 kHalf) = 255 := by decide +kernel
  exact ⟨h0 ▸ ffloor_mono hw.1, h255 ▸ ffloor_mono hw.2⟩

theorem l2sf_le {v : F64} (hv : isNaN v = false) : l2sf v ≤ 255 := by
  obtain ⟨-, h⟩ := ffloor_srgbScaled hv
  rw [l2sf, forceWord_eq]
  omega

theorem dcf_lt {r g b : F64} (hr : isNaN r = false) (hg : isNaN g = false) (hb : isNaN b = false) :
    dcf r g b < 2 ^ 24 := by
  have h1 := l2sf_le hr
  have h2 := l2sf_le hg
  have h3 := l2sf_le hb
  unfold dcf
  omega

/-! ### Bins -/

theorem clampi_bounds (t : F64) {lo hi : Int} (h : lo ≤ hi) : lo ≤ clampi t lo hi ∧ clampi t lo hi ≤ hi := by
  rw [clampi, forceWord_eq]
  split_ifs <;> omega

theorem acBin_le (t : F64) : acBin t ≤ 18 := by
  have := (clampi_bounds (fadd (fmul (signedPow t kInv2_2) k9) k9_5) (lo := 0) (hi := 18) (by decide)).2
  unfold acBin
  omega

theorem packAc_le {qr qg qb : Nat} (hr : qr ≤ 18) (hg : qg ≤ 18) (hb : qb ≤ 18) : packAc qr qg qb ≤ 6858 := by
  unfold packAc
  omega

theorem acValues_le (mv : F64) (us : List F64) : ∀ v ∈ acValues mv us, v ≤ 6858 := by
  induction us using acValues.induct with
  | case1 r g b us ih =>
    simp only [acValues, force_eq, List.mem_cons]
    rintro v (rfl | hv)
    · exact packAc_le (acBin_le _) (acBin_le _) (acBin_le _)
    · exact ih v hv
  | case2 us hus =>
    rw [acValues]
    · simp
    · exact hus

/-! ### The values GRIDQ writes -/

/-- GRIDQ's QG words on the channel words `ws` (spec/43_grid.md R236). -/
def gridValues (ws : List F64) : List Nat :=
  dcValue ws :: acValues (maxValueOf (amaxQuant (maxMagnitude (ws.drop 3) k0))) (ws.drop 3)

theorem length_gridValues {ws : List F64} {n : Nat} (h : ws.length = 3 * n) (hn : 0 < n) :
    (gridValues ws).length = n := by
  rw [gridValues, List.length_cons, length_acValues (n := n - 1) _ (by rw [List.length_drop]; omega)]
  omega

/-- The ranges of a list for QG[0], QG[1], ... (spec/10_state.md R46). -/
def QgValues (vs : List Nat) : Prop :=
  ∀ j, ∀ h : j < vs.length, (j = 0 → vs[j] < 2 ^ 24) ∧ (j ≠ 0 → vs[j] ≤ 6858)

theorem dcValue_lt {ws : List F64} (h : ∀ u ∈ ws, isNaN u = false) : dcValue ws < 2 ^ 24 := by
  unfold dcValue
  split
  · exact dcf_lt (h _ (by simp)) (h _ (by simp)) (h _ (by simp))
  · decide

theorem qgValues_gridValues {ws : List F64} (h : ∀ u ∈ ws, isNaN u = false) : QgValues (gridValues ws) := by
  intro j hj
  cases j with
  | zero => exact ⟨fun _ => dcValue_lt h, fun h0 => absurd rfl h0⟩
  | succ j => exact ⟨nofun, fun _ => acValues_le _ _ _ (List.getElem_mem _)⟩

end Sys2Proof.Machine

/-!
PROOFS. What a command reads and writes (spec/10_state.md R51). A command's completion is an `Effect`, read off its
operands, run on the state (`exec_effect`): two states with the same operands share the effect, and an effect that fits
a command writes what R51 lists for it and nothing else.
-/

namespace Sys2Proof.Machine

/-! ### Effects -/

/-- How a command ends: what it writes, apart from the state it is run on. -/
inductive Effect where
  /-- GRIDQ over an unwritten word (spec/43_grid.md R233) -/
  | unwritten
  /-- `raise Err(e, k)` -/
  | error (e : CmdError) (k : Nat)
  /-- RES registers with their values, the first `len` CHR bytes as the base-83 digits of `v`, the first QG words -/
  | results (regs : List (Fin 4 × Word)) (len v : Nat) (qg : List Nat)

/-- The registers after the listed writes, in their order. -/
def writeRes : List (Fin 4 × Word) → Vector Word 4 → Vector Word 4
  | [], r => r
  | p :: ps, r => writeRes ps (r.set p.1 p.2)

/-- The state a successful completion leaves. -/
def State.withEffect (s : State) (regs : List (Fin 4 × Word)) (len v : Nat) (qg : List Nat) : State :=
  (s.withResults (writeRes regs s.res) (s.setField len v).chr qg).succeed

/-- The completion with an effect. -/
def Effect.run (s : State) : Effect → Result
  | .unwritten => .fault .unwrittenOperand
  | .error e k => .next (s.raiseErr e k)
  | .results regs len v qg => .next (s.withEffect regs len v qg)

/-- The effect writes the places R51 lists for the command, with QG numbers in range, or reports an index in range. -/
def Effect.Fits (i : Instr) : Effect → Prop
  | .unwritten => True
  | .error _ k => k ≤ 242
  | .results regs len _ qg => regs.map Prod.fst = writtenRes i ∧ len = writtenChr i ∧ qg.length = writtenQg i ∧
      qg.length ≤ nQg ∧ QgValues qg

/-! ### What an effect writes -/

theorem writeRes_of_notMem {regs : List (Fin 4 × Word)} {k : Fin 4} (h : k ∉ regs.map Prod.fst) (r : Vector Word 4) :
    (writeRes regs r)[k] = r[k] := by
  induction regs generalizing r with
  | nil => rfl
  | cons p ps ih =>
    rw [List.map_cons, List.mem_cons, not_or] at h
    have hne : p.1.val ≠ k.val := fun he => h.1 (Fin.ext he.symm)
    rw [writeRes, ih h.2]
    simp [hne]

/-- A register the list writes holds the list's value, whatever the registers held. -/
theorem writeRes_congr {regs : List (Fin 4 × Word)} {k : Fin 4} (h : k ∈ regs.map Prod.fst) (r r' : Vector Word 4) :
    (writeRes regs r)[k] = (writeRes regs r')[k] := by
  induction regs generalizing r r' with
  | nil => simp at h
  | cons p ps ih =>
    by_cases hk : k ∈ ps.map Prod.fst
    · exact ih hk _ _
    · obtain rfl : k = p.1 := by simpa [hk] using h
      rw [writeRes, writeRes, writeRes_of_notMem hk, writeRes_of_notMem hk]
      simp

section WithEffect
variable (s s' : State) {regs : List (Fin 4 × Word)} {len v : Nat} {qg : List Nat}

theorem State.withEffect_succeeds (h : qg.length ≤ nQg) : Succeeds s (s.withEffect regs len v qg) :=
  s.withResults_succeeds _ _ _ h

theorem State.withEffect_keepsRes : KeepsRes s (s.withEffect regs len v qg) (regs.map Prod.fst) :=
  fun _ hk => writeRes_of_notMem hk s.res

theorem State.withEffect_res {k : Fin 4} (h : k ∈ regs.map Prod.fst) :
    (s.withEffect regs len v qg).res[k] = (s'.withEffect regs len v qg).res[k] :=
  writeRes_congr h s.res s'.res

theorem State.withEffect_chr (k : Nat) (hk : k < 16) :
    (s.withEffect regs len v qg).chr[k] = if k < len then alpha (digit83 v len k) else s.chr[k] :=
  s.setField_chr len v k hk

theorem State.withEffect_bytes {a : Nat} (h : a < qgOffset 0 ∨ qgOffset qg.length ≤ a) :
    memGet (s.withEffect regs len v qg).mem a = memGet s.mem a :=
  memGet_writeQg_ne s.mem 0 qg (by rwa [Nat.zero_add])

theorem State.qg_withEffect {n : Nat} (h : n < qg.length) :
    (s.withEffect regs len v qg).qg n = some (BitVec.ofNat 64 qg[n]) := by
  rw [State.qg_eq, ← readWord_writeQg s.mem 0 qg n h, Nat.zero_add]
  rfl

theorem State.qg_withEffect_ge {n : Nat} (h : qg.length ≤ n) : (s.withEffect regs len v qg).qg n = s.qg n := by
  rw [State.qg_eq, State.qg_eq]
  refine readWord_writeQg_ne s.mem 0 qg (.inr ?_)
  unfold qgOffset
  omega

end WithEffect

/-! ### The ways a command succeeds, as effects -/

theorem State.setField_zero_chr (s : State) (v : Nat) : (s.setField 0 v).chr = s.chr := by
  ext k hk
  simp

theorem State.succeed_eq_withEffect (s : State) : s.succeed = s.withEffect [] 0 0 [] := by
  rw [State.withEffect, State.setField_zero_chr]
  rfl

theorem State.setField_succeed_eq_withEffect (s : State) (len v : Nat) :
    (s.setField len v).succeed = s.withEffect [] len v [] := rfl

theorem State.setRes_succeed_eq_withEffect (s : State) (k : Fin 4) (v : Word) :
    (s.setRes k v).succeed = s.withEffect [(k, v)] 0 0 [] := by
  rw [State.withEffect, State.setField_zero_chr]
  simp [State.setRes, State.withResults, writeRes, writeQg]

theorem State.setRes_setRes_succeed_eq_withEffect (s : State) (k k' : Fin 4) (v v' : Word) :
    ((s.setRes k v).setRes k' v').succeed = s.withEffect [(k, v), (k', v')] 0 0 [] := by
  rw [State.withEffect, State.setField_zero_chr]
  simp [State.setRes, State.withResults, writeRes, writeQg]

/-- GRIDQ's four registers (spec/43_grid.md R236). -/
def gridRegs (cx cy : Nat) (ws : List F64) : List (Fin 4 × Word) :=
  let m := maxMagnitude (ws.drop 3) k0
  let q := amaxQuant m
  [(0, BitVec.ofNat 64 (sizeFlag cx cy)), (1, BitVec.ofNat 64 q), (2, maxValueOf q), (3, m)]

theorem State.commitGrid_succeed_eq_withEffect (s : State) (cx cy : Nat) (ws : List F64) :
    (s.commitGrid cx cy ws).succeed = s.withEffect (gridRegs cx cy ws) 0 0 (gridValues ws) := by
  rw [State.commitGrid_eq, State.commitGrid_res, State.withEffect, State.setField_zero_chr]
  simp [gridRegs, writeRes, gridValues]

/-! ### Two states with the same operands -/

/-- The two results are one fitting effect of `i`, run on `s` and on `s'`. -/
def SameEffect (i : Instr) (s s' : State) (r r' : Result) : Prop :=
  ∃ x : Effect, x.Fits i ∧ r = x.run s ∧ r' = x.run s'

section SameEffect
variable {i : Instr} {s s' : State}

theorem sameEffect_raiseErr (e : CmdError) {k : Nat} (hk : k ≤ 242) :
    SameEffect i s s' (.next (s.raiseErr e k)) (.next (s'.raiseErr e k)) := ⟨.error e k, hk, rfl, rfl⟩

theorem sameEffect_unlessNaN {us : List F64} (hus : us.length ≤ 243) {go go' : Result}
    (h : (∀ u ∈ us, isNaN u = false) → SameEffect i s s' go go') :
    SameEffect i s s' (s.unlessNaN us go) (s'.unlessNaN us go') := by
  rcases s.unlessNaN_cases us go with ⟨k, hk, hf, h'⟩ | ⟨hf, h'⟩ <;> rw [h']
  · rw [State.unlessNaN_of_first hf]
    exact sameEffect_raiseErr _ (by omega)
  · rw [State.unlessNaN_of_forall hf]
    exact h hf

theorem sameEffect_withEffect {regs : List (Fin 4 × Word)} {len v : Nat} (hr : regs.map Prod.fst = writtenRes i)
    (hl : len = writtenChr i) (hq : writtenQg i = 0) :
    SameEffect i s s' (.next (s.withEffect regs len v [])) (.next (s'.withEffect regs len v [])) :=
  ⟨.results regs len v [], ⟨hr, hl, hq.symm, Nat.zero_le _, nofun⟩, rfl, rfl⟩

/-- A command with the one result register RES0. -/
theorem sameEffect_setRes (v : Word) (hr : writtenRes i = [0]) (hc : writtenChr i = 0) (hq : writtenQg i = 0) :
    SameEffect i s s' (.next (s.setRes 0 v).succeed) (.next (s'.setRes 0 v).succeed) := by
  rw [State.setRes_succeed_eq_withEffect, State.setRes_succeed_eq_withEffect]
  exact sameEffect_withEffect hr.symm hc.symm hq

/-- A command of OP0 alone as a binary64 value, with the one result register RES0. -/
theorem sameEffect_unary (f : F64 → Word) (h : s.op[0] = s'.op[0]) (hr : writtenRes i = [0]) (hc : writtenChr i = 0)
    (hq : writtenQg i = 0) :
    SameEffect i s s' (s.unlessNaN [s.opFloat 0] (.next (s.setRes 0 (f (s.opFloat 0))).succeed))
      (s'.unlessNaN [s'.opFloat 0] (.next (s'.setRes 0 (f (s'.opFloat 0))).succeed)) := by
  have h0 : s.opFloat 0 = s'.opFloat 0 := h
  rw [h0]
  exact sameEffect_unlessNaN (by simp) fun _ => sameEffect_setRes _ hr hc hq

end SameEffect

theorem State.opByte_eq (s : State) : s.opByte = s.op[0].toNat % 256 := by
  simp [State.opByte]

theorem State.chrField_congr {s s' : State} {len : Nat} (h : ∀ k, ∀ _ : k < 16, k < len → s.chr[k] = s'.chr[k]) :
    s.chrField len = s'.chrField len := by
  refine List.ext_getElem (by simp [State.chrField]) fun k hk hk' => ?_
  have h' : k < len ∧ k < 16 := by simpa [State.chrField] using hk
  rw [State.chrField_getElem _ _ _ _ h'.2, State.chrField_getElem _ _ _ _ h'.2, h k h'.2 h'.1]

theorem coefWords_congr {s s' : State} {n : Nat} (h : ∀ k < n, s.coef k = s'.coef k) :
    coefWords s.mem 0 n = coefWords s'.mem 0 n := by
  rw [coefWords_eq, coefWords_eq]
  refine mapM_congr_option fun k hk => ?_
  rw [← State.coef_eq, ← State.coef_eq]
  exact h k (by simpa using hk)

/-! ### Each command -/

section Commands
variable {s s' : State}

theorem execB83enc_effect (len : BitVec 4) (h : s.op[0] = s'.op[0]) :
    SameEffect (.b83enc len) s s' (execB83enc len s) (execB83enc len s') := by
  simp only [execB83enc, force_eq, State.opNat, h]
  split_ifs
  · rw [State.setField_succeed_eq_withEffect, State.setField_succeed_eq_withEffect]
    exact sameEffect_withEffect rfl rfl rfl
  · exact sameEffect_raiseErr _ (by omega)

theorem execB83dec_effect (len : BitVec 4) (h : sameOperands s s' (.b83dec len)) :
    SameEffect (.b83dec len) s s' (execB83dec len s) (execB83dec len s') := by
  simp only [execB83dec, State.chrField_congr h]
  split_ifs
  · cases hv : value83 (s'.chrField len.toNat) 0 0 with
    | error k =>
      have := value83_error hv
      rw [State.chrField_length _ _ (by omega)] at this
      exact sameEffect_raiseErr _ (by omega)
    | ok v => exact sameEffect_setRes _ rfl rfl rfl
  · exact sameEffect_raiseErr _ (by omega)

theorem execDcq_effect (h : sameOperands s s' .dcq) : SameEffect .dcq s s' (execDcq s) (execDcq s') := by
  obtain ⟨h0, h1, h2⟩ : s.opFloat 0 = s'.opFloat 0 ∧ s.opFloat 1 = s'.opFloat 1 ∧ s.opFloat 2 = s'.opFloat 2 := h
  unfold execDcq
  rw [h0, h1, h2]
  exact sameEffect_unlessNaN (by simp) fun _ => sameEffect_setRes _ rfl rfl rfl

theorem execAmaxq_effect (h : sameOperands s s' .amaxq) : SameEffect .amaxq s s' (execAmaxq s) (execAmaxq s') := by
  have h0 : s.opFloat 0 = s'.opFloat 0 := h
  unfold execAmaxq
  rw [h0]
  refine sameEffect_unlessNaN (by simp) fun _ => ?_
  rw [force_eq, force_eq, State.setRes_setRes_succeed_eq_withEffect, State.setRes_setRes_succeed_eq_withEffect]
  exact sameEffect_withEffect rfl rfl rfl

theorem execAcq_effect (h : sameOperands s s' .acq) : SameEffect .acq s s' (execAcq s) (execAcq s') := by
  have hop (k : Fin 4) : s.opFloat k = s'.opFloat k := congrArg (·[k]) h
  simp only [execAcq, hop]
  refine sameEffect_unlessNaN (by simp) fun _ => ?_
  cases acf1 (s'.opFloat 0) (s'.opFloat 3) with
  | none => exact sameEffect_raiseErr _ (by omega)
  | some qr =>
    cases acf1 (s'.opFloat 1) (s'.opFloat 3) with
    | none => exact sameEffect_raiseErr _ (by omega)
    | some qg =>
      cases acf1 (s'.opFloat 2) (s'.opFloat 3) with
      | none => exact sameEffect_raiseErr _ (by omega)
      | some qb => exact sameEffect_setRes _ rfl rfl rfl

/-- Valid counts give 1 to 81 coefficients. -/
theorem countLegal_mul {cx cy : Nat} (hx : countLegal cx = true) (hy : countLegal cy = true) :
    0 < cx * cy ∧ cx * cy ≤ nQg := by
  obtain ⟨hx1, hx9⟩ := countLegal_iff.1 hx
  obtain ⟨hy1, hy9⟩ := countLegal_iff.1 hy
  exact ⟨Nat.mul_pos hx1 hy1, Nat.mul_le_mul hx9 hy9⟩

theorem execGridq_effect (cx cy : BitVec 4) (h : sameOperands s s' (.gridq cx cy)) :
    SameEffect (.gridq cx cy) s s' (execGridq cx cy s) (execGridq cx cy s') := by
  simp only [execGridq, coefWords_congr h, Bool.not_eq_true']
  split_ifs with hx hy
  · exact sameEffect_raiseErr _ (by omega)
  · exact sameEffect_raiseErr _ (by omega)
  · obtain ⟨h0, h81⟩ := countLegal_mul (Bool.not_eq_false _ ▸ hx) (Bool.not_eq_false _ ▸ hy)
    cases hw : coefWords s'.mem 0 (3 * (cx.toNat * cy.toNat)) with
    | none => exact ⟨.unwritten, trivial, rfl, rfl⟩
    | some ws =>
      have hlen := (coefWords_eq_some.1 hw).1
      refine sameEffect_unlessNaN (by unfold nQg at h81; omega) fun hnan => ?_
      rw [State.commitGrid_succeed_eq_withEffect, State.commitGrid_succeed_eq_withEffect]
      have hqg := length_gridValues hlen h0
      exact ⟨.results _ _ _ _, ⟨rfl, rfl, hqg, hqg.trans_le h81, qgValues_gridValues hnan⟩, rfl, rfl⟩

end Commands

/-- A command is a fitting effect read off its operands. -/
theorem exec_effect {i : Instr} {s s' : State} (h : sameOperands s s' i) : SameEffect i s s' (exec i s) (exec i s') := by
  cases i with
  | nop =>
    simp only [exec, execNop, State.succeed_eq_withEffect]
    exact sameEffect_withEffect rfl rfl rfl
  | b83enc len => exact execB83enc_effect len h
  | b83dec len => exact execB83dec_effect len h
  | s2l =>
    have h0 : s.opByte = s'.opByte := by rw [State.opByte_eq, State.opByte_eq, h]
    simp only [exec, execS2l, h0]
    exact sameEffect_setRes _ rfl rfl rfl
  | l2s => exact sameEffect_unary (fun v => BitVec.ofNat 64 (l2sf v)) h rfl rfl rfl
  | spowh => exact sameEffect_unary (signedPow · kHalf) h rfl rfl rfl
  | spowg => exact sameEffect_unary (signedPow · kInv2_2) h rfl rfl rfl
  | spows => exact sameEffect_unary (signedPow · k2) h rfl rfl rfl
  | dcq => exact execDcq_effect h
  | amaxq => exact execAmaxq_effect h
  | acq => exact execAcq_effect h
  | gridq cx cy => exact execGridq_effect cx cy h

theorem sameOperands_refl (s : State) (i : Instr) : sameOperands s s i := by
  cases i <;> simp [sameOperands]

/-- What a next state of a command is: an error report, or the results that fit the command. -/
theorem exec_next_cases {i : Instr} {s t : State} (h : exec i s = .next t) :
    (∃ e k, k ≤ 242 ∧ t = s.raiseErr e k) ∨
      ∃ regs len v qg, (Effect.results regs len v qg).Fits i ∧ t = s.withEffect regs len v qg := by
  obtain ⟨x, hx, hr, -⟩ := exec_effect (sameOperands_refl s i)
  rw [h] at hr
  cases x with
  | unwritten => cases hr
  | error e k =>
    cases hr
    exact .inl ⟨e, k, hx, rfl⟩
  | results regs len v qg =>
    cases hr
    exact .inr ⟨regs, len, v, qg, hx, rfl⟩

/-! ### The statements -/

/-- Settles O24: an error report writes no result, and the results of a command fit it. -/
theorem commandsWriteOnly : Obligations.CommandsWriteOnly := by
  intro i s t h
  rcases exec_next_cases h with ⟨e, k, hk, rfl⟩ | ⟨regs, len, v, qg, ⟨hres, rfl, hqg, h81, -⟩, rfl⟩
  · exact ⟨(s.raiseErr_fails e k (by omega)).settled, fun _ _ => rfl, fun _ _ _ => rfl, fun _ _ => rfl, rfl, rfl⟩
  · refine ⟨(s.withEffect_succeeds h81).settled, hres ▸ s.withEffect_keepsRes, fun k hk hle => ?_,
      fun a ha => s.withEffect_bytes (hqg ▸ ha), rfl, rfl⟩
    rw [State.withEffect_chr, if_neg (by omega)]

/-- Settles O26: states with the same operands share the effect, and the places a fitting effect writes do not depend on
the state. -/
theorem commandsReadOnly : Obligations.CommandsReadOnly := by
  intro i s s' h
  obtain ⟨x, hx, hr, hr'⟩ := exec_effect h
  cases x with
  | unwritten => exact .inl ⟨hr, hr'⟩
  | error e k =>
    have hk : k < 256 := Nat.lt_of_le_of_lt hx (by decide)
    exact .inr ⟨_, _, hr, hr', .inl ⟨_, _, s.raiseErr_fails e k hk, s'.raiseErr_fails e k hk⟩⟩
  | results regs len v qg =>
    obtain ⟨hres, rfl, hqg, h81, -⟩ := hx
    refine .inr ⟨_, _, hr, hr', .inr ⟨s.withEffect_succeeds h81, s'.withEffect_succeeds h81, fun k hk => ?_,
      fun k hk hlt => ?_, fun n hn => ?_⟩⟩
    · exact s.withEffect_res s' (hres ▸ hk)
    · rw [State.withEffect_chr, State.withEffect_chr, if_pos hlt, if_pos hlt]
    · rw [State.qg_withEffect s (hqg ▸ hn), State.qg_withEffect s' (hqg ▸ hn)]

/-! ### The ranges of QG -/

theorem QgRange.of_qg {s t : State} (h : QgRange s) (hq : ∀ n, t.qg n = s.qg n) : QgRange t :=
  fun n v hn hv => h n v hn (hq n ▸ hv)

theorem State.qg_of_mem {s t : State} (h : t.mem = s.mem) (n : Nat) : t.qg n = s.qg n := by
  rw [State.qg_eq, State.qg_eq, h]

theorem qgRange_reset : QgRange State.reset := by
  intro n v _ h
  rw [State.qg_eq] at h
  cases h

/-- A host write changes no QG word: of the RAM words it reaches only COEF. -/
theorem State.qg_writeReg (s : State) (v : Word) (r : Reg) (n : Nat) : (s.writeReg v r).qg n = s.qg n := by
  cases r with
  | coef k =>
    simp only [State.writeReg, State.guarded]
    split_ifs
    · exact State.qg_of_mem rfl n
    · exact s.qg_setCoef k.val n v k.isLt
  | cmd | op | chr =>
    simp only [State.writeReg, State.offer, State.guarded]
    split_ifs <;> exact State.qg_of_mem rfl n
  | id | status | res | qg => exact State.qg_of_mem rfl n

theorem QgRange.exec {s t : State} {i : Instr} (h : QgRange s) (hx : exec i s = .next t) : QgRange t := by
  rcases exec_next_cases hx with ⟨e, k, -, rfl⟩ | ⟨regs, len, v, qg, ⟨-, -, -, -, hval⟩, rfl⟩
  · exact h.of_qg (State.qg_of_mem rfl)
  · intro n w hn hw
    by_cases hlt : n < qg.length
    · rw [State.qg_withEffect s hlt] at hw
      cases hw
      obtain ⟨hz, hs⟩ := hval n hlt
      rw [BitVec.toNat_ofNat]
      exact ⟨fun h0 => (Nat.mod_le _ _).trans_lt (hz h0), fun h0 => (Nat.mod_le _ _).trans (hs h0)⟩
    · rw [State.qg_withEffect_ge s (not_lt.1 hlt)] at hw
      exact h n w hn hw

theorem QgRange.moved {s t : State} (h : QgRange s) (hst : Moved s t) : QgRange t := by
  cases hst with
  | command hx => exact h.exec hx
  | reset => exact qgRange_reset.of_qg (State.qg_of_mem rfl)
  | write r v => exact h.of_qg (s.qg_writeReg v r)
  | idle | illegal | reply | fault => exact h.of_qg (State.qg_of_mem rfl)

/-- Settles O5: of the seven moves of a step only a command's results write QG, and the numbers of a fitting effect are in
range. -/
theorem stepKeepsQgRange : Obligations.StepKeepsQgRange := by
  intro s t hs h
  obtain ⟨ts, hst⟩ := step_moved h
  exact (hs.of_qg (State.qg_of_mem rfl) : QgRange { s with turns := ts }).moved hst

end Sys2Proof.Machine

/-!
PROOFS. Reset (spec/10_state.md R49) and the STATUS word (R33, R39).
-/

namespace Sys2Proof.Machine

/-! ### Reset -/

/-- An empty memory holds no word. -/
theorem readWord_nil (a : Nat) : readWord [] a = none := rfl

/-- Settles O1: each register has its reset value by definition, and the RAMs are empty. -/
theorem resetValues : Obligations.ResetValues := by
  refine ⟨rfl, rfl, rfl, fun k => ?_, fun k => ?_, rfl, rfl, fun n _ => ?_, fun n _ => ?_⟩
  · exact ⟨Vector.getElem_replicate _, Vector.getElem_replicate _⟩
  · exact Vector.getElem_replicate _
  · rw [State.coef_eq]
    exact readWord_nil _
  · rw [State.qg_eq]
    exact readWord_nil _

/-- Settles O6: the base cases of O4 and O5. -/
theorem resetMeetsInvariants : Obligations.ResetMeetsInvariants :=
  ⟨inv_iff.2 ⟨memInv_reset, controlInv_reset⟩, qgRange_reset⟩

/-! ### STATUS -/

theorem State.memRead_status (s : State) : s.memRead 0x010 8 = .ok s.status.word := rfl

theorem State.memWrite_status (s : State) (w : Word) :
    s.memWrite 0x010 8 w = .ok { s with status := s.status.writeOneToClear w } := rfl

/-- The low four bits of the STATUS word (spec/10_state.md R33). -/
theorem Status.getLsbD_word (t : Status) : t.word.getLsbD 0 = t.busy ∧ t.word.getLsbD 1 = t.done ∧
    t.word.getLsbD 2 = t.err ∧ t.word.getLsbD 3 = t.ovr := by
  simp only [Status.word, BitVec.getLsbD_setWidth, BitVec.getLsbD_append, BitVec.getLsbD_ofBool]
  simp

/-- A field of the STATUS word below bit 32 is one of the joined pieces, the lower ones dropped. -/
theorem Status.extract_word (t : Status) : t.word.extractLsb' 4 4 = 0 ∧ t.word.extractLsb' 8 4 = t.errcode ∧
    t.word.extractLsb' 12 4 = 0 ∧ t.word.extractLsb' 16 8 = t.erridx ∧ t.word.extractLsb' 24 8 = t.lastop := by
  simp (disch := decide) only [Status.word, BitVec.extractLsb'_setWidth_of_le, BitVec.extractLsb'_append_eq_of_le,
    BitVec.extractLsb'_append_eq_of_add_le, BitVec.extractLsb'_eq_self, Nat.reduceSub, BitVec.ofNat_eq_ofNat, and_self]

theorem Status.extract_word_high (t : Status) : t.word.extractLsb' 32 32 = 0 := by
  ext j hj
  simp [Status.word]

/-- Settles O15: each field is read off the pieces the word is joined from. -/
theorem statusFields : Obligations.StatusFields := by
  intro s
  obtain ⟨hbusy, hdone, herr, hovr⟩ := s.status.getLsbD_word
  obtain ⟨h4, hcode, h12, hidx, hop⟩ := s.status.extract_word
  exact ⟨_, s.memRead_status, hbusy, hdone, herr, hovr, h4, hcode, h12, hidx, hop, s.status.extract_word_high⟩

/-- Settles O16: a read adds a reply, and a write is `writeOneToClear`. -/
theorem statusWrite : Obligations.StatusWrite := by
  refine ⟨fun s => ⟨_, rfl, rfl⟩, fun s w => ?_⟩
  simp only [State.hostMove, State.memWrite_status, Status.writeOneToClear]
  cases w.getLsbD 1 <;> cases w.getLsbD 2 <;> cases w.getLsbD 3 <;> simp

end Sys2Proof.Machine

/-!
PROOFS. The register window (spec/20_memory.md R70 to R81). `Reg.offset` is the register map read the other way round;
an access is then a read or a write of one register, or a BusError.
-/

namespace Sys2Proof.Machine

/-! ### The register map -/

/-- The window offset of a register (spec/20_memory.md R71). -/
def Reg.offset : Reg → Nat
  | .id => 0x000
  | .cmd => 0x008
  | .status => 0x010
  | .op k => 0x020 + 8 * k.val
  | .res k => 0x040 + 8 * k.val
  | .chr k => 0x060 + 8 * k.val
  | .coef n => coefOffset n.val
  | .qg n => qgOffset n.val

/-- Every register is aligned, with its eight bytes inside the window. -/
theorem Reg.offset_aligned (r : Reg) : r.offset % 8 = 0 ∧ r.offset + 8 ≤ windowBytes := by
  cases r with
  | id | cmd | status => decide
  | op | res | chr | coef | qg =>
    simp only [Reg.offset, coefOffset, qgOffset, windowBytes]
    omega

theorem Reg.toNat_ofNat_offset (r : Reg) : (BitVec.ofNat 13 r.offset).toNat = r.offset := by
  obtain ⟨-, h⟩ := r.offset_aligned
  rw [windowBytes] at h
  rw [BitVec.toNat_ofNat, Nat.mod_eq_of_lt (by omega)]

/-- The register found at an aligned offset lies there: each test of `regAt` bounds the index it computes. -/
theorem toNat_of_regAt {off : Offset} {r : Reg} (h : regAt off = some r) : off.toNat = r.offset := by
  unfold regAt at h
  simp only at h
  split_ifs at h <;> cases h <;>
    simp only [Reg.offset, coefOffset, qgOffset, Fin.ofNat] <;> omega

/-- Of the tests of `regAt` on a register's own offset, its own is the first that holds. -/
theorem regAt_of_toNat {off : Offset} {r : Reg} (h : off.toNat = r.offset) : regAt off = some r := by
  cases r with
  | id | cmd | status =>
    simp only [regAt, h]
    rfl
  | op | res | chr | coef | qg =>
    simp only [Reg.offset, coefOffset, qgOffset] at h
    simp (disch := omega) only [regAt, if_neg, if_pos, Option.some.injEq, Reg.op.injEq, Reg.res.injEq, Reg.chr.injEq,
      Reg.coef.injEq, Reg.qg.injEq, Fin.ext_iff, Fin.ofNat]
    omega

theorem regAt_offset (r : Reg) : regAt (BitVec.ofNat 13 r.offset) = some r :=
  regAt_of_toNat r.toNat_ofNat_offset

/-- The offsets of an access that is a BusError (spec/20_memory.md R74, R76). -/
theorem regAt_eq_none_iff {off : Offset} : regAt off = none ↔ off.toNat % 8 ≠ 0 ∨ off.toNat = 0x018 ∨
    (0x070 ≤ off.toNat ∧ off.toNat ≤ 0x7FF) ∨ (0xF98 ≤ off.toNat ∧ off.toNat ≤ 0xFFF) ∨ 0x1288 ≤ off.toNat := by
  unfold regAt
  simp only
  split_ifs <;> simp only [true_iff, false_iff] <;> omega

/-- Settles O12: `regAt` inverts `Reg.offset`, and the offsets it leaves are those of `regAt_eq_none_iff`. -/
theorem registerMap : Obligations.RegisterMap :=
  ⟨rfl, rfl, rfl, fun k => ⟨regAt_offset (.op k), regAt_offset (.res k)⟩, fun k => regAt_offset (.chr k),
    fun n => regAt_offset (.coef n), fun n => regAt_offset (.qg n), fun off h => by rw [regAt_eq_none_iff]; simp [h]⟩

/-! ### Accesses -/

section Accesses
variable {s t : State} {off : Offset} {size : Nat} {v : Word} {r : Reg} {f : Fault}

theorem State.memRead_of_regAt (h : regAt off = some r) : s.memRead off 8 =
    match s.readReg r with
    | some v => .ok v
    | none => .error (.unwrittenRead off) := by
  unfold State.memRead
  simp only [h]
  cases s.readReg r <;> rfl

theorem State.memRead_of_readReg (h : regAt off = some r) (hv : s.readReg r = some v) : s.memRead off 8 = .ok v := by
  rw [State.memRead_of_regAt h, hv]

theorem State.memWrite_of_regAt (h : regAt off = some r) : s.memWrite off 8 v = .ok (s.writeReg v r) := by
  unfold State.memWrite
  rw [h]
  rfl

theorem State.memRead_of_unmapped (h : size ≠ 8 ∨ regAt off = none) :
    s.memRead off size = .error (.busError off size) := by
  unfold State.memRead
  split_ifs with hs
  · rfl
  · rw [h.resolve_left hs]

theorem State.memWrite_of_unmapped (h : size ≠ 8 ∨ regAt off = none) :
    s.memWrite off size v = .error (.busError off size) := by
  unfold State.memWrite
  split_ifs with hs
  · rfl
  · rw [h.resolve_left hs]

theorem State.hostMove_read_ok (h : s.memRead off size = .ok v) :
    s.hostMove (.read off size) = .next { s with replies := (off, v) :: s.replies } := by
  simp only [State.hostMove, h]

theorem State.hostMove_read_error (h : s.memRead off size = .error f) :
    s.hostMove (.read off size) = .next (s.record f) := by
  simp only [State.hostMove, h]

theorem State.hostMove_write_error (h : s.memWrite off size v = .error f) :
    s.hostMove (.write off size v) = .next (s.record f) := by
  simp only [State.hostMove, h]

theorem State.hostMove_write_of_regAt (h : regAt off = some r) :
    s.hostMove (.write off 8 v) = .next (s.writeReg v r) := by
  simp only [State.hostMove, State.memWrite_of_regAt h]

/-- No access reads `replies`. -/
theorem State.memRead_withReplies (s : State) (l : List (Offset × Word)) (off : Offset) (size : Nat) :
    { s with replies := l }.memRead off size = s.memRead off size := rfl

/-- No access reads `faults`. -/
theorem State.memRead_record (s : State) (f : Fault) (off : Offset) (size : Nat) :
    (s.record f).memRead off size = s.memRead off size := rfl

theorem State.guarded_of_idle (h : s.status.busy = false) : s.guarded t = t := by
  rw [State.guarded, h]
  rfl

/-- An idle block takes the write of an operand (spec/20_memory.md R79). -/
theorem State.hostMove_write_of_idle (hidle : s.status.busy = false) (h : regAt off = some r)
    (hr : s.writeReg v r = s.guarded t) : s.hostMove (.write off 8 v) = .next t := by
  rw [State.hostMove_write_of_regAt h, hr, State.guarded_of_idle hidle]

end Accesses

/-- Settles O13: `record` is the only effect. -/
theorem busErrorAccesses : Obligations.BusErrorAccesses := by
  intro s off size v h
  have hbus : size ≠ 8 ∨ regAt off = none := h.imp_right regAt_eq_none_iff.2
  exact ⟨State.hostMove_read_error (State.memRead_of_unmapped hbus),
    State.hostMove_write_error (State.memWrite_of_unmapped hbus)⟩

/-- Settles O14: a read of a register's offset is `readReg`. -/
theorem readValues : Obligations.ReadValues := by
  intro s
  have hread (r : Reg) := s.memRead_of_regAt (regAt_offset r)
  exact ⟨hread .id, hread .cmd, hread .status, fun k => ⟨hread (.op k), hread (.res k)⟩, hread (.chr 0), hread (.chr 1),
    fun n hn => hread (.coef ⟨n, hn⟩), fun n hn => hread (.qg ⟨n, hn⟩)⟩

/-- Settles O17: `writeReg` answers the state itself for these registers. -/
theorem readOnlyRegisters : Obligations.ReadOnlyRegisters := by
  intro s v
  have hwrite (r : Reg) := State.hostMove_write_of_regAt (s := s) (v := v) (regAt_offset r)
  exact ⟨hwrite .id, fun k => hwrite (.res k), fun n => hwrite (.qg n), rfl⟩

/-- Settles O18: a value becomes a reply and a fault is recorded, and no read looks at either. -/
theorem readsChangeNothing : Obligations.ReadsChangeNothing := by
  intro s off
  rcases s.memRead_cases off 8 with ⟨-, v, -, -, -, h⟩ | h | h
  · exact ⟨_, State.hostMove_read_ok h, s.memRead_withReplies _ off 8, .inl ⟨v, h, rfl⟩⟩
  · exact ⟨_, State.hostMove_read_error h, s.memRead_record _ off 8, .inr (.inl ⟨h, rfl⟩)⟩
  · exact ⟨_, State.hostMove_read_error h, s.memRead_record _ off 8, .inr (.inr ⟨h, rfl⟩)⟩

/-! ### The bytes of a word -/

/-- A word is its eight bytes. -/
theorem eq_of_byteOf_eq {v w : Word} (h : ∀ b < 8, byteOf v b = byteOf w b) : v = w := by
  ext i hi
  have hbit := congrArg (·.getLsbD (i % 8)) (h (i / 8) (by omega))
  simpa [byteOf, Nat.mod_lt, Nat.div_add_mod, hi, BitVec.getLsbD_eq_getElem] using hbit

/-- Byte `b` of CHR0 or CHR1 is one of the bytes they are joined from (spec/10_state.md R43). -/
theorem State.byteOf_chrWord (s : State) (k : Fin 2) (b : Nat) (hb : b < 8) :
    byteOf (s.chrWord k) b = s.chr[8 * k.val + b] := by
  interval_cases b <;>
    simp (disch := decide) only [byteOf, State.chrWord, Nat.reduceMul, Nat.reduceSub, Nat.add_zero,
      BitVec.extractLsb'_append_eq_of_le, BitVec.extractLsb'_append_eq_of_add_le, BitVec.extractLsb'_eq_self]

/-- CHR0 and CHR1 read back as written. -/
theorem State.chrWord_setChrWord (s : State) (k : Fin 2) (v : Word) : (s.setChrWord k v).chrWord k = v := by
  refine eq_of_byteOf_eq fun b hb => ?_
  rw [State.byteOf_chrWord _ _ _ hb, State.setChrWord_chr, if_pos (by omega), Nat.mul_add_mod, Nat.mod_eq_of_lt hb]

/-- Settles O20: an idle block takes the write, and each of the three setters changes one field. -/
theorem operandWriteWhileIdle : Obligations.OperandWriteWhileIdle := by
  intro s v hidle
  have hwrite (r : Reg) {t : State} (hr : s.writeReg v r = s.guarded t) :=
    State.hostMove_write_of_idle hidle (regAt_offset r) hr
  refine ⟨fun k => hwrite (.op k) rfl, fun k => ⟨s.setChrWord k v, hwrite (.chr k) rfl, ?_, rfl, s.setChrWord_chr k v⟩,
    fun n => ⟨s.setCoef n.val v, hwrite (.coef n) rfl, rfl, ?_, fun j hj => ?_, fun a ha => ?_⟩⟩
  · exact State.memRead_of_readReg (regAt_offset (.chr k)) (congrArg some (s.chrWord_setChrWord k v))
  · rw [State.coef_setCoef, if_pos rfl]
  · rw [State.coef_setCoef, if_neg hj]
  · rw [State.setCoef_mem]
    exact memGet_writeWord_ne _ _ _ ha

/-! ### The bytes of the window -/

/-- The bytes of a register lie inside the window, so that their offsets do not wrap. -/
theorem toNat_add_of_regAt {off : Offset} {r : Reg} (h : regAt off = some r) {b : Nat} (hb : b < 8) :
    (off + BitVec.ofNat 13 b).toNat = off.toNat + b := by
  obtain ⟨-, hin⟩ := r.offset_aligned
  rw [← toNat_of_regAt h, windowBytes] at hin
  rw [BitVec.toNat_add, BitVec.toNat_ofNat, Nat.mod_eq_of_lt (a := b) (by omega), Nat.mod_eq_of_lt (by omega)]

theorem State.windowByte_of_readReg {s : State} {off : Offset} {r : Reg} {v : Word} (h : regAt off = some r)
    (hv : s.readReg r = some v) {b : Nat} (hb : b < 8) : s.windowByte (off + BitVec.ofNat 13 b) = some (byteOf v b) := by
  obtain ⟨hal, -⟩ := r.offset_aligned
  rw [← toNat_of_regAt h] at hal
  have hword : (off.toNat + b) / 8 * 8 = off.toNat := by omega
  have hbyte : (off.toNat + b) % 8 = b := by omega
  simp only [State.windowByte, toNat_add_of_regAt h hb, hword, hbyte, BitVec.ofNat_toNat, BitVec.setWidth_eq, h, hv]

/-- Host addresses and window offsets name each other (spec/20_memory.md R70). -/
theorem windowOffset_busAddress (off : Offset) : windowOffset (busAddress off) = some off := by
  have := off.isLt
  rw [windowOffset, busAddress, if_pos (by rw [windowBytes]; omega), Nat.add_sub_cancel_left, BitVec.ofNat_toNat,
    BitVec.setWidth_eq]

/-- Settles O21: the byte of a register is the byte of its value, and a RAM word is read from the memory's bytes. -/
theorem byteLayout : Obligations.ByteLayout := by
  refine ⟨fun s off r v b hr hv hb => ⟨State.windowByte_of_readReg hr hv hb, ?_⟩, fun s k hk => ?_,
    fun s n b v hb => ⟨fun h => ?_, fun h => ?_⟩⟩
  · rw [Nat.add_assoc, ← toNat_add_of_regAt hr hb]
    exact windowOffset_busAddress _
  · have hbyte := State.windowByte_of_readReg (s := s) (regAt_offset (.chr ⟨k / 8, by omega⟩)) rfl
      (Nat.mod_lt k (by decide))
    rw [State.byteOf_chrWord _ _ _ (Nat.mod_lt k (by decide)), ← BitVec.ofNat_add, Reg.offset] at hbyte
    simpa only [Nat.add_assoc, Nat.div_add_mod] using hbyte
  · exact memGet_of_readWord (s.coef_eq n ▸ h) hb
  · exact memGet_of_readWord (s.qg_eq n ▸ h) hb

end Sys2Proof.Machine

/-!
PROOFS. The encoding (spec/30_encoding.md R100 to R107). A word is its three fields and its reserved bits (`wordOf_eq_iff`),
the decoder's thirteen arms are four (`decode_cases`), and decoding is the inverse of encoding; what a word that is not
legal completes with, and the match and mask table, follow from that.
-/

namespace Sys2Proof.Machine

/-! ### The fields of a word -/

theorem toNat_opcField (w : Word) : (opcField w).toNat = w.toNat % 256 := by
  simp [opcField]

theorem toNat_f1Field (w : Word) : (f1Field w).toNat = w.toNat / 2 ^ 8 % 16 := by
  simp [f1Field, Nat.shiftRight_eq_div_pow]

theorem toNat_f2Field (w : Word) : (f2Field w).toNat = w.toNat / 2 ^ 12 % 16 := by
  simp [f2Field, Nat.shiftRight_eq_div_pow]

theorem toNat_wordOf (opc : BitVec 8) (f1 f2 : BitVec 4) :
    (wordOf opc f1 f2).toNat = opc.toNat + 2 ^ 8 * f1.toNat + 2 ^ 12 * f2.toNat := by
  have := opc.isLt
  have := f1.isLt
  have := f2.isLt
  have h1 : f1.toNat <<< 8 % 2 ^ 64 = 2 ^ 8 * f1.toNat := by rw [Nat.shiftLeft_eq]; omega
  have h2 : f2.toNat <<< 12 % 2 ^ 64 = 2 ^ 12 * f2.toNat := by rw [Nat.shiftLeft_eq]; omega
  simp only [wordOf, BitVec.toNat_or, BitVec.toNat_shiftLeft, BitVec.toNat_setWidth_of_le (show 8 ≤ 64 by decide),
    BitVec.toNat_setWidth_of_le (show 4 ≤ 64 by decide), h1, h2]
  rw [Nat.or_comm opc.toNat, ← Nat.two_pow_add_eq_or_of_lt opc.isLt, Nat.or_comm,
    ← Nat.two_pow_add_eq_or_of_lt (by omega)]
  omega

/-- A word is `wordOf` of its three fields exactly where bits 63:16 are 0 (spec/30_encoding.md R101). -/
theorem wordOf_eq_iff {opc : BitVec 8} {f1 f2 : BitVec 4} {w : Word} :
    wordOf opc f1 f2 = w ↔ opcField w = opc ∧ f1Field w = f1 ∧ f2Field w = f2 ∧ w.toNat / 2 ^ 16 = 0 := by
  have := opc.isLt
  have := f1.isLt
  have := f2.isLt
  simp only [← BitVec.toNat_inj, toNat_wordOf, toNat_opcField, toNat_f1Field, toNat_f2Field]
  omega

@[simp] theorem opcField_wordOf (opc : BitVec 8) (f1 f2 : BitVec 4) : opcField (wordOf opc f1 f2) = opc :=
  (wordOf_eq_iff.1 rfl).1

@[simp] theorem f1Field_wordOf (opc : BitVec 8) (f1 f2 : BitVec 4) : f1Field (wordOf opc f1 f2) = f1 :=
  (wordOf_eq_iff.1 rfl).2.1

@[simp] theorem f2Field_wordOf (opc : BitVec 8) (f1 f2 : BitVec 4) : f2Field (wordOf opc f1 f2) = f2 :=
  (wordOf_eq_iff.1 rfl).2.2.1

/-- A word of format K0 is its opcode (spec/30_encoding.md R102). -/
theorem wordOf_opcField {w : Word} (h : w.toNat / 2 ^ 8 = 0) : wordOf (opcField w) 0 0 = w := by
  refine wordOf_eq_iff.2 ⟨rfl, ?_, ?_, by omega⟩ <;> apply BitVec.eq_of_toNat_eq
  · rw [toNat_f1Field, h]
    rfl
  · rw [toNat_f2Field, show w.toNat / 2 ^ 12 = 0 by omega]
    rfl

/-- A word of format KL is its opcode and LEN (spec/30_encoding.md R102). -/
theorem wordOf_opcField_f1Field {w : Word} (h : w.toNat / 2 ^ 12 = 0) : wordOf (opcField w) (f1Field w) 0 = w := by
  refine wordOf_eq_iff.2 ⟨rfl, rfl, BitVec.eq_of_toNat_eq ?_, by omega⟩
  rw [toNat_f2Field, h]
  rfl

/-- A word of format KG is its opcode, CX and CY (spec/30_encoding.md R102). -/
theorem wordOf_opcField_f1Field_f2Field {w : Word} (h : w.toNat / 2 ^ 16 = 0) :
    wordOf (opcField w) (f1Field w) (f2Field w) = w :=
  wordOf_eq_iff.2 ⟨rfl, rfl, rfl, h⟩

/-! ### The rows of the opcode table -/

/-- The rows of format K0 (spec/30_encoding.md R104). -/
def rowsK0 : List (Instr × BitVec 8) :=
  [(.nop, 0x00), (.s2l, 0x10), (.l2s, 0x11), (.spowh, 0x20), (.spowg, 0x21), (.spows, 0x22), (.dcq, 0x30), (.amaxq, 0x31),
    (.acq, 0x32)]

/-- The rows of format KL (spec/30_encoding.md R104). -/
def rowsKL : List ((BitVec 4 → Instr) × BitVec 8) := [(.b83enc, 0x01), (.b83dec, 0x02)]

theorem encode_of_mem_rowsK0 : ∀ r ∈ rowsK0, encode r.1 = wordOf r.2 0 0 := by
  simp [rowsK0, encode]

theorem encode_of_mem_rowsKL (len : BitVec 4) : ∀ r ∈ rowsKL, encode (r.1 len) = wordOf r.2 len 0 := by
  simp [rowsKL, encode]

theorem decode_of_mem_rowsK0 {w : Word} : ∀ r ∈ rowsK0, opcField w = r.2 → decode w = formatK0 w r.1 := by
  simp +contextual [rowsK0, decode]

theorem decode_of_mem_rowsKL {w : Word} : ∀ r ∈ rowsKL, opcField w = r.2 → decode w = formatKL w r.1 := by
  simp +contextual [rowsKL, decode]

theorem decode_of_opcField_gridq {w : Word} (h : opcField w = 0x40) : decode w = formatKG w .gridq := by
  simp [decode, h]

/-- An opcode outside the table is refused by name (spec/30_encoding.md R107). -/
theorem decode_of_unassigned {w : Word}
    (h : opcField w ∉ ([0x00, 0x01, 0x02, 0x10, 0x11, 0x20, 0x21, 0x22, 0x30, 0x31, 0x32, 0x40] : List (BitVec 8))) :
    decode w = .error (.reservedOpcode (opcField w)) := by
  simp only [List.mem_cons, List.not_mem_nil, or_false, not_or, ← BitVec.toNat_inj] at h
  simp_all [decode]

/-- What the decoder can do with a word: one case for each format, and the unassigned opcodes. -/
theorem decode_cases (w : Word) :
    (∃ r ∈ rowsK0, opcField w = r.2 ∧ decode w = formatK0 w r.1) ∨
      (∃ r ∈ rowsKL, opcField w = r.2 ∧ decode w = formatKL w r.1) ∨
      (opcField w = 0x40 ∧ decode w = formatKG w .gridq) ∨ decode w = .error (.reservedOpcode (opcField w)) := by
  by_cases h0 : ∃ r ∈ rowsK0, opcField w = r.2
  · obtain ⟨r, hr, hw⟩ := h0
    exact .inl ⟨r, hr, hw, decode_of_mem_rowsK0 r hr hw⟩
  by_cases hl : ∃ r ∈ rowsKL, opcField w = r.2
  · obtain ⟨r, hr, hw⟩ := hl
    exact .inr (.inl ⟨r, hr, hw, decode_of_mem_rowsKL r hr hw⟩)
  by_cases hg : opcField w = 0x40
  · exact .inr (.inr (.inl ⟨hg, decode_of_opcField_gridq hg⟩))
  · refine .inr (.inr (.inr (decode_of_unassigned ?_)))
    simp_all [rowsK0, rowsKL]

theorem reservedFrom_eq_ok_iff {low : Nat} {w : Word} {i j : Instr} :
    reservedFrom low w i = .ok j ↔ w.toNat / 2 ^ low = 0 ∧ i = j := by
  rw [reservedFrom]
  split_ifs with h <;> simp [h]

/-! ### Decoding is the inverse of encoding -/

theorem encode_of_decode {w : Word} {i : Instr} (h : decode w = .ok i) : encode i = w := by
  rcases decode_cases w with ⟨r, hr, hw, hd⟩ | ⟨r, hr, hw, hd⟩ | ⟨hw, hd⟩ | hd <;> rw [hd] at h
  · obtain ⟨hres, rfl⟩ := reservedFrom_eq_ok_iff.1 h
    rw [encode_of_mem_rowsK0 r hr, ← hw, wordOf_opcField hres]
  · obtain ⟨hres, rfl⟩ := reservedFrom_eq_ok_iff.1 h
    rw [encode_of_mem_rowsKL _ r hr, ← hw, wordOf_opcField_f1Field hres]
  · obtain ⟨hres, rfl⟩ := reservedFrom_eq_ok_iff.1 h
    rw [encode, ← hw, wordOf_opcField_f1Field_f2Field hres]
  · cases h

theorem decode_encode_of_mem_rowsK0 {r : Instr × BitVec 8} (hr : r ∈ rowsK0) : decode (encode r.1) = .ok r.1 := by
  have hres : (wordOf r.2 0 0).toNat / 2 ^ 8 = 0 := by
    have := r.2.isLt
    rw [toNat_wordOf, show (0 : BitVec 4).toNat = 0 from rfl]
    omega
  rw [encode_of_mem_rowsK0 r hr, decode_of_mem_rowsK0 r hr (opcField_wordOf ..)]
  exact reservedFrom_eq_ok_iff.2 ⟨hres, rfl⟩

theorem decode_encode_of_mem_rowsKL {r : (BitVec 4 → Instr) × BitVec 8} (hr : r ∈ rowsKL) (len : BitVec 4) :
    decode (encode (r.1 len)) = .ok (r.1 len) := by
  have hres : (wordOf r.2 len 0).toNat / 2 ^ 12 = 0 := by
    have := r.2.isLt
    have := len.isLt
    rw [toNat_wordOf, show (0 : BitVec 4).toNat = 0 from rfl]
    omega
  rw [encode_of_mem_rowsKL len r hr, decode_of_mem_rowsKL r hr (opcField_wordOf ..)]
  exact reservedFrom_eq_ok_iff.2 ⟨hres, by rw [f1Field_wordOf]⟩

theorem decode_encode_gridq (cx cy : BitVec 4) : decode (encode (.gridq cx cy)) = .ok (.gridq cx cy) := by
  obtain ⟨-, -, -, hres⟩ := wordOf_eq_iff.1 (rfl : wordOf 0x40 cx cy = _)
  rw [encode, decode_of_opcField_gridq (opcField_wordOf ..)]
  exact reservedFrom_eq_ok_iff.2 ⟨hres, by rw [f1Field_wordOf, f2Field_wordOf]⟩

/-- Every command is in a row of the table. -/
theorem instr_row_cases (i : Instr) :
    (∃ r ∈ rowsK0, i = r.1) ∨ (∃ r ∈ rowsKL, ∃ len, i = r.1 len) ∨ ∃ cx cy, i = .gridq cx cy := by
  cases i <;> simp [rowsK0, rowsKL]

theorem decode_encode (i : Instr) : decode (encode i) = .ok i := by
  rcases instr_row_cases i with ⟨r, hr, rfl⟩ | ⟨r, hr, len, rfl⟩ | ⟨cx, cy, rfl⟩
  · exact decode_encode_of_mem_rowsK0 hr
  · exact decode_encode_of_mem_rowsKL hr len
  · exact decode_encode_gridq cx cy

/-- Settles O7: each direction is one of the two round trips. -/
theorem decodeIffEncode : Obligations.DecodeIffEncode :=
  fun _ i => ⟨encode_of_decode, fun h => h ▸ decode_encode i⟩

/-- Settles O11: twelve runs of the decoder. -/
theorem decodesSampleWords : Obligations.DecodesSampleWords := by
  unfold Obligations.DecodesSampleWords
  decide

/-! ### Legality -/

theorem legal_encode (i : Instr) : legal (encode i) = i.wellFormed := by
  cases i with
  | nop => exact Laws.EncodeLegal.nop
  | b83enc len => exact Laws.EncodeLegal.b83enc len
  | b83dec len => exact Laws.EncodeLegal.b83dec len
  | s2l => exact Laws.EncodeLegal.s2l
  | l2s => exact Laws.EncodeLegal.l2s
  | spowh => exact Laws.EncodeLegal.spowh
  | spowg => exact Laws.EncodeLegal.spowg
  | spows => exact Laws.EncodeLegal.spows
  | dcq => exact Laws.EncodeLegal.dcq
  | amaxq => exact Laws.EncodeLegal.amaxq
  | acq => exact Laws.EncodeLegal.acq
  | gridq cx cy => exact Laws.EncodeLegal.gridq cx cy

theorem wellFormed_of_decode {w : Word} {i : Instr} (h : decode w = .ok i) : i.wellFormed = legal w := by
  rw [← legal_encode, encode_of_decode h]

/-- The check of R105 in numbers: `w[7:0]`, `w[11:8]` and the reserved bits as quotients and remainders. -/
theorem fields_of_legal {w : Word} (h : legal w = true) :
    (w.toNat % 256 ∈ [0x00, 0x10, 0x11, 0x20, 0x21, 0x22, 0x30, 0x31, 0x32] ∧ w.toNat / 2 ^ 8 = 0) ∨
      (w.toNat % 256 ∈ [0x01, 0x02] ∧ w.toNat / 2 ^ 12 = 0 ∧ 1 ≤ w.toNat / 2 ^ 8 % 16 ∧ w.toNat / 2 ^ 8 % 16 ≤ 10) ∨
      (w.toNat % 256 = 0x40 ∧ w.toNat / 2 ^ 16 = 0) := by
  simp only [legal, toNat_opcField, toNat_f1Field] at h
  split_ifs at h with h0 hl hg
  · exact .inl ⟨h0, of_decide_eq_true h⟩
  · exact .inr (.inl ⟨hl, of_decide_eq_true h⟩)
  · exact .inr (.inr ⟨hg, of_decide_eq_true h⟩)

theorem exists_decode_of_legal {w : Word} (h : legal w = true) : ∃ i, decode w = .ok i := by
  rcases fields_of_legal h with ⟨hopc, hres⟩ | ⟨hopc, hres, -⟩ | ⟨hopc, hres⟩ <;> rw [← toNat_opcField] at hopc
  · obtain ⟨r, hr, hw⟩ : ∃ r ∈ rowsK0, r.2.toNat = (opcField w).toNat := List.mem_map.1 hopc
    rw [decode_of_mem_rowsK0 r hr (BitVec.eq_of_toNat_eq hw.symm)]
    exact ⟨_, reservedFrom_eq_ok_iff.2 ⟨hres, rfl⟩⟩
  · obtain ⟨r, hr, hw⟩ : ∃ r ∈ rowsKL, r.2.toNat = (opcField w).toNat := List.mem_map.1 hopc
    rw [decode_of_mem_rowsKL r hr (BitVec.eq_of_toNat_eq hw.symm)]
    exact ⟨_, reservedFrom_eq_ok_iff.2 ⟨hres, rfl⟩⟩
  · rw [decode_of_opcField_gridq (BitVec.eq_of_toNat_eq hopc)]
    exact ⟨_, reservedFrom_eq_ok_iff.2 ⟨hres, rfl⟩⟩

/-- Settles O9: a legal word decodes, and a word that decodes is legal exactly where its command is well-formed. -/
theorem legalIffDecodesWellFormed : Obligations.LegalIffDecodesWellFormed := by
  refine fun w => ⟨fun h => ?_, fun ⟨i, hd, hi⟩ => ?_⟩
  · obtain ⟨i, hd⟩ := exists_decode_of_legal h
    exact ⟨i, hd, by rw [wellFormed_of_decode hd, h]⟩
  · rw [← wellFormed_of_decode hd, hi]

/-! ### A word that is not legal -/

/-- Only LEN can make a command ill-formed, and both base-83 commands check it. -/
theorem exec_of_not_wellFormed {i : Instr} (h : i.wellFormed = false) (s : State) :
    exec i s = .next (s.raiseErr .illegalCommand 0) := by
  cases i with
  | b83enc len => exact if_neg (Bool.eq_false_iff.1 h)
  | b83dec len => exact if_neg (Bool.eq_false_iff.1 h)
  | _ => cases h

theorem State.complete_of_not_legal {w : Word} (h : legal w = false) (s : State) :
    s.complete w = .next (s.raiseErr .illegalCommand 0) := by
  unfold State.complete
  split
  next i hd => exact exec_of_not_wellFormed (by rw [wellFormed_of_decode hd, h]) s
  next => rfl

/-- Settles O8: such a word is not legal, and its completion is the error report. -/
theorem illegalWordReported : Obligations.IllegalWordReported := by
  intro s w h
  have hlegal : legal w = false := Bool.eq_false_iff.2 (mt fields_of_legal h)
  exact ⟨_, State.complete_of_not_legal hlegal s, State.raiseErr_fails s .illegalCommand 0 (by decide)⟩

/-! ### Match and mask -/

/-- `w & mask = match` says that `w` is `match` with the bits outside `mask` its own. -/
theorem and_eq_iff_or_and_not_eq {n : Nat} {w k m : BitVec n} (hm : m &&& k = m) :
    w &&& k = m ↔ m ||| (w &&& ~~~k) = w := by
  constructor
  · rintro rfl
    rw [← BitVec.and_or_distrib_left, BitVec.or_not_self, BitVec.and_allOnes]
  · intro h
    rw [← h, BitVec.and_or_distrib_right, hm, BitVec.and_assoc, BitVec.not_and_self]
    simp

/-- A field put back in its place is the word under the field's mask. -/
theorem shiftLeft_extractLsb' (w : Word) (k n : Nat) :
    (w.extractLsb' k n).setWidth 64 <<< k = w &&& (BitVec.allOnes n).setWidth 64 <<< k := by
  ext i hi
  by_cases hk : i < k
  · simp [hk]
  · simp [hk, hi, show k + (i - k) = i by omega, Bool.and_comm]

theorem wordOf_zero_zero (opc : BitVec 8) : wordOf opc 0 0 = opc.setWidth 64 := by
  simp [wordOf]

theorem wordOf_f1Field (opc : BitVec 8) (w : Word) :
    wordOf opc (f1Field w) 0 = opc.setWidth 64 ||| (w &&& ~~~0xFFFFFFFFFFFFF0FF) := by
  rw [wordOf, f1Field, shiftLeft_extractLsb']
  simp

theorem wordOf_f1Field_f2Field (opc : BitVec 8) (w : Word) :
    wordOf opc (f1Field w) (f2Field w) = opc.setWidth 64 ||| (w &&& ~~~0xFFFFFFFFFFFF00FF) := by
  rw [wordOf, f1Field, f2Field, shiftLeft_extractLsb', shiftLeft_extractLsb', BitVec.or_assoc,
    ← BitVec.and_or_distrib_left]
  rfl

/-- The rows of format K0: the mask is all ones (spec/30_encoding.md R104). -/
theorem decode_rowsK0_iff {w : Word} {r : Instr × BitVec 8} (hr : r ∈ rowsK0) :
    w &&& 0xFFFFFFFFFFFFFFFF = r.2.setWidth 64 ↔ decode w = .ok r.1 := by
  rw [decodeIffEncode w, encode_of_mem_rowsK0 r hr, wordOf_zero_zero,
    show (0xFFFFFFFFFFFFFFFF : Word) = BitVec.allOnes 64 from rfl, BitVec.and_allOnes, eq_comm]

/-- The rows of format KL: `w & mask = match` selects the row, and LEN is `w[11:8]` (spec/30_encoding.md R104). -/
theorem decode_rowsKL_iff {w : Word} {r : (BitVec 4 → Instr) × BitVec 8} (hr : r ∈ rowsKL) :
    w &&& 0xFFFFFFFFFFFFF0FF = r.2.setWidth 64 ↔ decode w = .ok (r.1 (f1Field w)) := by
  have hm : ∀ r ∈ rowsKL, r.2.setWidth 64 &&& 0xFFFFFFFFFFFFF0FF = r.2.setWidth 64 := by simp [rowsKL]
  rw [decodeIffEncode w, encode_of_mem_rowsKL _ r hr, wordOf_f1Field, and_eq_iff_or_and_not_eq (hm r hr)]

/-- The row of format KG: CX is `w[11:8]` and CY is `w[15:12]` (spec/30_encoding.md R104). -/
theorem decode_gridq_iff {w : Word} :
    w &&& 0xFFFFFFFFFFFF00FF = (0x40 : BitVec 8).setWidth 64 ↔ decode w = .ok (.gridq (f1Field w) (f2Field w)) := by
  rw [decodeIffEncode w, encode, wordOf_f1Field_f2Field, and_eq_iff_or_and_not_eq rfl]

/-- Settles O10: a row's match and mask say that the word is the row's command encoded. -/
theorem matchMaskSelectsRow : Obligations.MatchMaskSelectsRow := by
  refine ⟨fun w i m h => ?_, fun w => ⟨?_, ?_⟩, fun w => decode_gridq_iff, fun w => decode_of_unassigned⟩
  · obtain ⟨r, hr, he⟩ : ∃ r ∈ rowsK0, (r.1, r.2.setWidth 64) = (i, m) := List.mem_map.1 h
    cases he
    exact decode_rowsK0_iff hr
  · exact decode_rowsKL_iff (r := (.b83enc, 0x01)) List.mem_cons_self
  · exact decode_rowsKL_iff (r := (.b83dec, 0x02)) (List.mem_cons_of_mem _ List.mem_cons_self)

end Sys2Proof.Machine

/-!
PROOFS. The base-83 commands (spec/40_base83.md R130 to R137). `idx83` inverts `alpha` because the alphabet has no letter
twice; a field is read by one induction over its bytes, once for its value (`value83_of_digits`) and once for its first
bad byte (`value83_of_bad`); and the digits B83ENC writes sum up to the number again (`sum_digit83`).
-/

namespace Sys2Proof.Machine

/-! ### The alphabet -/

theorem length_alphabet : alphabet.length = 83 := rfl

theorem nodup_alphabet : alphabet.Nodup := by decide +kernel

theorem alpha_eq_getElem {d : Nat} (h : d < alphabet.length) : alpha d = alphabet[d] := by
  simp [alpha, h]

theorem idx83_eq_some_iff {b : Byte} {d : Nat} : idx83 b = some d ↔ d < 83 ∧ alpha d = b := by
  rw [idx83, List.findIdx?_eq_some_iff_getElem, ← length_alphabet]
  constructor
  · rintro ⟨hd, hb, -⟩
    exact ⟨hd, by rw [alpha_eq_getElem hd, eq_of_beq hb]⟩
  · rintro ⟨hd, hb⟩
    rw [alpha_eq_getElem hd] at hb
    refine ⟨hd, beq_iff_eq.2 hb, fun j hj hjb => hj.ne ?_⟩
    exact nodup_alphabet.getElem_inj_iff.1 ((eq_of_beq hjb).trans hb.symm)

theorem idx83_lt {b : Byte} {d : Nat} (h : idx83 b = some d) : d < 83 := (idx83_eq_some_iff.1 h).1

theorem idx83_alpha {d : Nat} (h : d < 83) : idx83 (alpha d) = some d := idx83_eq_some_iff.2 ⟨h, rfl⟩

theorem idx83_eq_none_iff {b : Byte} : idx83 b = none ↔ b ∉ alphabet := by
  simp only [idx83, List.findIdx?_eq_none_iff, beq_eq_false_iff_ne]
  exact ⟨fun h hb => h b hb rfl, fun h c hc hcb => h (hcb ▸ hc)⟩

/-- The codes outside the alphabet (spec/40_base83.md R131). -/
theorem notMem_codes_iff : ∀ n < 256, n ∉ alphabet.map BitVec.toNat ↔ n < 0x20 ∨ 0x7F ≤ n ∨
    n ∈ [0x20, 0x21, 0x22, 0x26, 0x27, 0x28, 0x29, 0x2F, 0x3C, 0x3E, 0x5C, 0x60] := by
  decide +kernel

theorem idx83_eq_none_iff_code (b : Byte) : idx83 b = none ↔ b.toNat < 0x20 ∨ 0x7F ≤ b.toNat ∨
    b.toNat ∈ [0x20, 0x21, 0x22, 0x26, 0x27, 0x28, 0x29, 0x2F, 0x3C, 0x3E, 0x5C, 0x60] := by
  rw [idx83_eq_none_iff, ← notMem_codes_iff b.toNat b.isLt,
    List.mem_map_of_injective fun _ _ => BitVec.eq_of_toNat_eq]

/-- Settles O32: `idx83` is the inverse of `alpha`; the codes of the alphabet, and of the bytes outside it, are computed. -/
theorem alphabetIndex : Obligations.AlphabetIndex := by
  refine ⟨by decide +kernel, by decide +kernel, by decide +kernel, by decide +kernel, fun _ _ => idx83_eq_some_iff,
    idx83_eq_none_iff_code, ?_⟩
  have hdec (b : Byte) : (idx83 b).isNone = decide (idx83 b = none) := by cases idx83 b <;> rfl
  simp only [hdec, idx83_eq_none_iff_code]
  decide +kernel

/-! ### Digits and values -/

/-- Digit `k` of a field weighs `83^(len-1-k)`; together the digits are the number without its high digits. -/
theorem sum_digit83 (v len : Nat) :
    ∑ k ∈ Finset.range len, digit83 v len k * 83 ^ (len - 1 - k) = v % 83 ^ len := by
  simp only [digit83]
  rw [Finset.sum_range_reflect (fun j => v / 83 ^ j % 83 * 83 ^ j)]
  induction len with
  | zero => simp [Nat.mod_one]
  | succ n ih => rw [Finset.sum_range_succ, ih, Nat.mod_pow_succ, Nat.mul_comm]

theorem digit83_lt (v len k : Nat) : digit83 v len k < 83 := Nat.mod_lt _ (by decide)

/-- A byte of the alphabet is one more digit. -/
theorem value83_cons {b : Byte} {d : Nat} (h : idx83 b = some d) (bs : List Byte) (k v : Nat) :
    value83 (b :: bs) k v = value83 bs (k + 1) (v * 83 + d) := by
  rw [value83, h]
  exact force_eq _ _

/-- A field of digits has the value they stand for, after the value `v` of the digits before it. -/
theorem value83_of_digits {bs : List Byte} {d : Nat → Nat} (k v : Nat)
    (h : ∀ i, ∀ hi : i < bs.length, idx83 bs[i] = some (d i)) :
    value83 bs k v = .ok (v * 83 ^ bs.length + ∑ i ∈ Finset.range bs.length, d i * 83 ^ (bs.length - 1 - i)) := by
  induction bs generalizing d k v with
  | nil => simp [value83]
  | cons b bs ih =>
    have hb : idx83 b = some (d 0) := h 0 (Nat.succ_pos _)
    have hbs : ∀ i, ∀ hi : i < bs.length, idx83 bs[i] = some (d (i + 1)) := fun i hi => h (i + 1) (Nat.succ_lt_succ hi)
    have hexp (i : Nat) : bs.length + 1 - 1 - (i + 1) = bs.length - 1 - i := by omega
    rw [value83_cons hb, ih (d := fun i => d (i + 1)) _ _ hbs, List.length_cons, Finset.sum_range_succ']
    simp only [hexp]
    rw [Nat.add_sub_cancel, Nat.sub_zero]
    congr 1
    ring

/-- A byte that is no digit, after digits, ends the reading at its position. -/
theorem value83_of_bad {bs : List Byte} {i : Nat} (k v : Nat) (hi : i < bs.length) (hbad : idx83 bs[i] = none)
    (hfirst : ∀ j, ∀ hj : j < i, (idx83 bs[j]).isSome = true) : value83 bs k v = .error (k + i) := by
  induction bs generalizing i k v with
  | nil => simp at hi
  | cons b bs ih =>
    cases i with
    | zero =>
      have hb : idx83 b = none := hbad
      simp only [value83, hb, Nat.add_zero]
    | succ i =>
      obtain ⟨d, hd⟩ := Option.isSome_iff_exists.1 (hfirst 0 (Nat.succ_pos i))
      rw [List.getElem_cons_zero] at hd
      rw [value83_cons hd, ih (k + 1) _ (Nat.lt_of_succ_lt_succ hi) hbad fun j hj => hfirst (j + 1) (Nat.succ_lt_succ hj)]
      congr 1
      omega

/-- A field of `n` digits after the value `v` stays below `(v + 1) * 83^n`: there is no overflow in ten digits. -/
theorem value83_lt {bs : List Byte} {k v n : Nat} (h : value83 bs k v = .ok n) : n < (v + 1) * 83 ^ bs.length := by
  induction bs generalizing k v with
  | nil =>
    cases h
    simp
  | cons b bs ih =>
    cases hb : idx83 b with
    | none => simp [value83, hb] at h
    | some d =>
      rw [value83_cons hb] at h
      have hd := idx83_lt hb
      calc n < (v * 83 + d + 1) * 83 ^ bs.length := ih h
        _ ≤ ((v + 1) * 83) * 83 ^ bs.length := Nat.mul_le_mul_right _ (by omega)
        _ = (v + 1) * 83 ^ (b :: bs).length := by rw [List.length_cons]; ring

/-! ### The two commands -/

/-- The command word of a base-83 command (spec/40_base83.md R133, R136). -/
theorem decode_wordKL {r : (BitVec 4 → Instr) × BitVec 8} (hr : r ∈ rowsKL) {opc : Nat} (hopc : r.2.toNat = opc)
    (len : BitVec 4) : decode (BitVec.ofNat 64 (opc + len.toNat * 256)) = .ok (r.1 len) := by
  have hw : BitVec.ofNat 64 (opc + len.toNat * 256) = encode (r.1 len) := by
    apply BitVec.eq_of_toNat_eq
    have := r.2.isLt
    have := len.isLt
    rw [encode_of_mem_rowsKL len r hr, toNat_wordOf, BitVec.toNat_ofNat, show (0 : BitVec 4).toNat = 0 from rfl]
    omega
  rw [hw, decode_encode]

/-- Filling a field with the digits of `v` is a completion without an error that changes nothing else (R133). -/
theorem State.setField_succeeds (s : State) (len v : Nat) :
    Succeeds s (s.setField len v).succeed ∧ (s.setField len v).succeed.res = s.res ∧
      SameBytes s (s.setField len v).succeed ∧ ∀ k, ∀ _ : k < 16, (s.setField len v).succeed.chr[k] =
        if k < len then alpha (digit83 v len k) else s.chr[k] := by
  refine ⟨?_, ?_, fun a => ?_, fun k hk => ?_⟩
  · rw [State.setField_succeed_eq_withEffect]
    exact s.withEffect_succeeds (Nat.zero_le _)
  · rw [State.succeed_res, State.setField_res]
  · rw [State.succeed_mem, State.setField_mem]
  · rw [State.succeed_chr, State.setField_chr _ _ _ _ hk]

theorem State.idx83_setField_chr (s : State) (len v k : Nat) (hk : k < 16) (h : k < len) :
    idx83 (s.setField len v).succeed.chr[k] = some (digit83 v len k) := by
  rw [State.succeed_chr, State.setField_chr _ _ _ _ hk, if_pos h, idx83_alpha (digit83_lt v len k)]

section Exec
variable {s : State} {len : BitVec 4} (h1 : 1 ≤ len.toNat) (h10 : len.toNat ≤ 10)
include h1 h10

theorem exec_b83enc_of_len :
    exec (.b83enc len) s = .next (s.setField len.toNat (s.op[0].toNat % 83 ^ len.toNat)).succeed := by
  simp only [exec, execB83enc, force_eq]
  exact if_pos (lenLegal_iff.2 ⟨h1, h10⟩)

theorem exec_b83dec_of_value {n : Nat} (h : value83 (s.chrField len.toNat) 0 0 = .ok n) :
    exec (.b83dec len) s = .next (s.setRes 0 (BitVec.ofNat 64 n)).succeed := by
  simp only [exec, execB83dec, h]
  exact if_pos (lenLegal_iff.2 ⟨h1, h10⟩)

theorem exec_b83dec_of_error {k : Nat} (h : value83 (s.chrField len.toNat) 0 0 = .error k) :
    exec (.b83dec len) s = .next (s.raiseErr .invalidCharacter k) := by
  simp only [exec, execB83dec, h]
  exact if_pos (lenLegal_iff.2 ⟨h1, h10⟩)

/-- B83DEC of a field of digits puts the number they stand for, which fits 64 bits, in RES0. -/
theorem exec_b83dec_of_digits {d : Nat → Nat} (h : ∀ k, ∀ _ : k < 16, k < len.toNat → idx83 s.chr[k] = some (d k)) :
    ∃ v : Word, exec (.b83dec len) s = .next (s.setRes 0 v).succeed ∧
      v.toNat = ∑ k ∈ Finset.range len.toNat, d k * 83 ^ (len.toNat - 1 - k) := by
  have hlen : (s.chrField len.toNat).length = len.toNat := s.chrField_length _ (by omega)
  have hval := value83_of_digits (bs := s.chrField len.toNat) (d := d) 0 0 fun i hi => by
    rw [State.chrField_getElem s _ i hi (by omega)]
    exact h i (by omega) (by omega)
  have hlt := value83_lt hval
  have hpow : 83 ^ len.toNat ≤ 83 ^ 10 := Nat.pow_le_pow_right (by decide) h10
  rw [hlen, Nat.zero_mul, Nat.zero_add] at hval hlt
  refine ⟨_, exec_b83dec_of_value h1 h10 hval, ?_⟩
  rw [BitVec.toNat_ofNat, Nat.mod_eq_of_lt (by omega)]

/-- B83DEC of the digits of `v` puts `v` without its high digits in RES0. -/
theorem exec_b83dec_of_field {v : Nat}
    (h : ∀ k, ∀ _ : k < 16, k < len.toNat → idx83 s.chr[k] = some (digit83 v len.toNat k)) :
    ∃ u, exec (.b83dec len) s = .next u ∧ u.res[0].toNat = v % 83 ^ len.toNat := by
  obtain ⟨w, hx, hw⟩ := exec_b83dec_of_digits h1 h10 h
  obtain ⟨-, -, hres0⟩ := s.setRes_succeeds 0 w
  exact ⟨_, hx, (congrArg BitVec.toNat hres0).trans (hw.trans (sum_digit83 v _))⟩

end Exec

/-- Settles O29: the command fills the field and completes. -/
theorem b83encResult : Obligations.B83encResult := fun s len h1 h10 =>
  ⟨decode_wordKL (r := (.b83enc, 0x01)) List.mem_cons_self rfl len, _, exec_b83enc_of_len h1 h10,
    s.setField_succeeds len.toNat (s.op[0].toNat % 83 ^ len.toNat)⟩

/-- Settles O30: the field's bytes are read first to last, up to the first that is no digit. -/
theorem b83decResult : Obligations.B83decResult := by
  intro s len h1 h10
  refine ⟨decode_wordKL (r := (.b83dec, 0x02)) (List.mem_cons_of_mem _ List.mem_cons_self) rfl len, fun d hd => ?_,
    fun k hk hlt hbad hfirst => ?_⟩
  · obtain ⟨v, hx, hv⟩ := exec_b83dec_of_digits h1 h10 hd
    obtain ⟨hsucc, hres, hres0⟩ := s.setRes_succeeds 0 v
    exact ⟨_, hx, hsucc, hres, rfl, fun _ => rfl, (congrArg BitVec.toNat hres0).trans hv⟩
  · have hlen : k < (s.chrField len.toNat).length := by
      rwa [State.chrField_length _ _ (by omega)]
    have herr : value83 (s.chrField len.toNat) 0 0 = .error (0 + k) := by
      refine value83_of_bad 0 0 hlen ?_ fun j hj => ?_
      · rwa [State.chrField_getElem s _ k hlen hk]
      · rw [State.chrField_getElem s _ j _ (hj.trans hk)]
        exact hfirst j _ hj
    rw [Nat.zero_add] at herr
    exact ⟨_, exec_b83dec_of_error h1 h10 herr, s.raiseErr_fails .invalidCharacter k (by omega)⟩

/-- Settles O31: B83DEC reads back the digits B83ENC has written, and they sum up to the number. -/
theorem base83RoundTrip : Obligations.Base83RoundTrip := by
  intro s len h1 h10 hop
  have henc := exec_b83enc_of_len (s := s) h1 h10
  rw [Nat.mod_eq_of_lt hop] at henc
  obtain ⟨u, hdec, hu⟩ := exec_b83dec_of_field h1 h10 (s.idx83_setField_chr len.toNat s.op[0].toNat)
  rw [Nat.mod_eq_of_lt hop] at hu
  exact ⟨_, u, henc, hdec, BitVec.eq_of_toNat_eq hu⟩

end Sys2Proof.Machine

/-!
PROOFS. The colour units (spec/41_color.md). A power is carried by one description of the signed power, the magnitude of
`powcr` under the operand's sign (`signedPow_of_isFinite`); the ranges and the order of S2LF and L2SF come from the
monotone operations, with the two branches of L2SF compared at the branch point.
-/

namespace Sys2Proof.Machine

/-! ### Patterns -/

/-- Two patterns with one sign and one magnitude are one. -/
theorem eq_of_signOf_magOf {u v : F64} (hs : signOf u = signOf v) (hm : magOf u = magOf v) : u = v := by
  rw [← withSign_eta u, ← withSign_eta v, hs, hm]

theorem fabs_of_sign_false {u : F64} (h : signOf u = false) : fabs u = u :=
  eq_of_signOf_magOf (by rw [signOf_fabs, h]) (magOf_fabs u)

theorem fneg_of_sign_true {u : F64} (h : signOf u = true) : fneg u = fabs u :=
  eq_of_signOf_magOf (by rw [signOf_fneg, signOf_fabs, h]; rfl) (by rw [magOf_fneg, magOf_fabs])

theorem fabs_fneg (u : F64) : fabs (fneg u) = fabs u := by rw [fabs, magOf_fneg, fabs]

/-- A pattern that is no NaN is a zero, an infinity, or finite with a magnitude. -/
theorem isNaN_false_cases {v : F64} (h : isNaN v = false) :
    isZero v = true ∨ isInf v = true ∨ IsFinite v ∧ 0 < magOf v := by
  have := isNaN_eq_false.1 h
  simp only [isZero, isInf, decide_eq_true_eq]
  omega

theorem pos_of_orderKey_pos {u : F64} (h : 0 < orderKey u) : signOf u = false ∧ 0 < magOf u := by
  unfold orderKey at h
  split_ifs at h with hs
  · omega
  · exact ⟨by simpa using hs, by omega⟩

/-! ### Whole numbers -/

/-- A whole number below 2^53 is the value of a pattern. -/
theorem exists_magUnits_eq {n : Nat} (h : n < 2 ^ 53) : ∃ m < infMag, magUnits m = n * 2 ^ 1074 := by
  rcases Nat.eq_zero_or_pos n with rfl | h0
  · exact ⟨0, by decide, by rw [magUnits_zero, Nat.zero_mul]⟩
  have hk : Nat.log2 n < 53 := (Nat.log2_lt h0.ne').2 h
  obtain ⟨j, hj⟩ : ∃ j, Nat.log2 n + j = 52 := ⟨52 - Nat.log2 n, by omega⟩
  have hlo : 2 ^ 52 ≤ n * 2 ^ j := by
    rw [← hj, Nat.pow_add]
    exact Nat.mul_le_mul_right _ (Nat.log2_self_le h0.ne')
  have hhi : n * 2 ^ j < 2 ^ 53 := by
    rw [show 53 = Nat.log2 n + 1 + j by omega, Nat.pow_add]
    exact Nat.mul_lt_mul_of_pos_right Nat.lt_log2_self (Nat.two_pow_pos j)
  refine ⟨n * 2 ^ j + (1074 - j) * 2 ^ 52, by simp only [infMag]; omega, ?_⟩
  rw [magUnits_pattern hhi.le (.inr hlo), Nat.mul_assoc, ← Nat.pow_add, Nat.add_sub_cancel' (show j ≤ 1074 by omega)]

theorem signOf_fofNat (n : Nat) : signOf (fofNat n) = false :=
  signOf_withSign _ ((roundMag_le_infMag _ Nat.one_pos).trans_lt infMag_lt)

/-- A whole number below 2^53 is converted without rounding (spec/41_color.md R161). -/
theorem fofNat_exact {n : Nat} (h : n < 2 ^ 53) : IsFinite (fofNat n) ∧ units (fofNat n) = n * 2 ^ 1074 := by
  obtain ⟨m, hm, hn⟩ := exists_magUnits_eq h
  have hmag : magOf (fofNat n) = m := by
    rw [fofNat, ← hn, ← Nat.mul_one (magUnits m), roundMag_magUnits Nat.one_pos hm.le,
      magOf_withSign _ (hm.trans infMag_lt)]
  rw [units_eq, IsFinite, hmag]
  exact ⟨hm, hn⟩

theorem signedUnits_fofNat {n : Nat} (h : n < 2 ^ 53) : signedUnits (fofNat n) = (n : Int) * 2 ^ 1074 := by
  rw [signedUnits, signOf_fofNat, (fofNat_exact h).2, if_neg Bool.false_ne_true, Nat.cast_mul, Nat.cast_pow,
    Nat.cast_ofNat]

theorem valueOf_fofNat {n : Nat} (h : n < 2 ^ 53) : valueOf (fofNat n) = n := by
  rw [valueOf, signedUnits_fofNat h, Int.cast_mul, Int.cast_pow]
  exact mul_div_cancel_right₀ _ (pow_ne_zero 1074 two_ne_zero)

/-- A larger whole number has a larger pattern. -/
theorem orderKey_fofNat_mono {m n : Nat} (h : m ≤ n) (hn : n < 2 ^ 53) :
    orderKey (fofNat m) ≤ orderKey (fofNat n) := by
  rw [orderKey_le_iff, signedUnits_fofNat (h.trans_lt hn), signedUnits_fofNat hn]
  exact Int.mul_le_mul_of_nonneg_right (Int.ofNat_le.2 h) (pow_nonneg zero_le_two 1074)

/-! ### Division by a positive value -/

theorem orderKey_fdiv_mono {a b c : F64} (ha : IsFinite a) (hb : IsFinite b) (h : orderKey a ≤ orderKey b)
    (hc : IsFinite c) (h0 : magOf c ≠ 0) (hs : signOf c = false) : orderKey (fdiv a c) ≤ orderKey (fdiv b c) := by
  refine (fdiv_roundsTo ha hc h0).mono (fdiv_roundsTo hb hc h0) ?_
  have hab : (signedUnits a : ℝ) ≤ signedUnits b := Int.cast_le.2 ((orderKey_le_iff a b).1 h)
  have hc0 : (0 : ℝ) ≤ signedUnits c := by
    rw [signedUnits_eq, hs]
    simp
  exact mul_le_mul_of_nonneg_right (div_le_div_of_nonneg_right hab hc0) (pow_nonneg zero_le_two 1074)

theorem Within.fdiv {lo x hi c : F64} (hlo : IsFinite lo) (hhi : IsFinite hi) (h : Within lo x hi) (hc : IsFinite c)
    (h0 : magOf c ≠ 0) (hs : signOf c = false) : Within (fdiv lo c) (fdiv x c) (fdiv hi c) :=
  have hx := h.isFinite hlo hhi
  ⟨orderKey_fdiv_mono hlo hx h.1 hc h0 hs, orderKey_fdiv_mono hx hhi h.2 hc h0 hs⟩

/-! ### S2LF -/

theorem s2lf_eq (b : Nat) : s2lf b = if fle (fdiv (fofNat b) k255) kSrgbT then fdiv (fdiv (fofNat b) k255) k12_92
    else powcr (fdiv (fadd (fdiv (fofNat b) k255) k0_055) k1_055) k2_4 := by
  rw [s2lf, forceWord_eq]

/-- Settles O33: a byte has fewer than 53 bits, and the formula is the definition's. -/
theorem s2lfFormula : Obligations.S2lfFormula :=
  fun b hb => ⟨valueOf_fofNat (hb.trans (by decide)), s2lf_eq b⟩

/-- The scaled byte is between 0 and 1 (spec/41_color.md R161). -/
theorem fdiv_byte_within {b : Nat} (hb : b < 256) : Within k0 (fdiv (fofNat b) k255) k1 := by
  have h255 : fofNat 255 = k255 := by decide +kernel
  have hw : Within (fofNat 0) (fofNat b) (fofNat 255) :=
    ⟨orderKey_fofNat_mono (Nat.zero_le b) (by omega), orderKey_fofNat_mono (by omega) (by decide)⟩
  have hw := hw.fdiv (c := k255) (by decide +kernel) (by decide +kernel) (by decide) (by decide) (by decide)
  exact ⟨le_trans (by decide +kernel) hw.1, hw.2.trans (by decide +kernel)⟩

/-- On each branch the value is between 0 and 1 and has sign bit 0 (spec/41_color.md R162). -/
theorem s2lf_within {b : Nat} (hb : b < 256) : Within k0 (s2lf b) k1 ∧ signOf (s2lf b) = false := by
  have hc := fdiv_byte_within hb
  have hfin := hc.isFinite (by decide) (by decide)
  have hbf := (fofNat_exact (hb.trans (by decide : 256 < 2 ^ 53))).1
  have hsc : signOf (fdiv (fofNat b) k255) = false := by
    rw [signOf_fdiv hbf (by decide) (by decide), signOf_fofNat]
    decide
  rw [s2lf_eq]
  split_ifs with hle
  · have hw := hc.fdiv (c := k12_92) (by decide) (by decide) (by decide) (by decide) (by decide)
    refine ⟨⟨le_trans (by decide +kernel) hw.1, hw.2.trans (by decide +kernel)⟩, ?_⟩
    rw [signOf_fdiv hfin (by decide) (by decide), hsc]
    decide
  · have hw := hc.fadd (c := k0_055) (by decide) (by decide) (by decide)
    have hw := hw.fdiv (c := k1_055) (by decide +kernel) (by decide +kernel) (by decide) (by decide) (by decide)
    have hpos : 0 < orderKey (fdiv (fadd k0 k0_055) k1_055) := by decide +kernel
    have hp := hw.powcr (by decide +kernel) (by decide +kernel) hpos k2_4
    have hbase := hw.isFinite (by decide +kernel) (by decide +kernel)
    exact ⟨⟨le_trans (by decide +kernel) hp.1, hp.2.trans (by decide +kernel)⟩,
      (powcr_roundsTo (pos_of_orderKey_pos (hpos.trans_le hw.1)).2 hbase).2⟩

theorem valueOf_k0 : valueOf k0 = 0 := by decide +kernel

theorem valueOf_k1 : valueOf k1 = 1 := by decide +kernel

/-- Settles O34: the ends of each branch are computed, and the operations between them are monotone. -/
theorem s2lfRange : Obligations.S2lfRange := by
  intro b hb
  obtain ⟨hw, hs⟩ := s2lf_within hb
  refine ⟨hw.isFinite (by decide) (by decide), hs, ?_⟩
  rw [← valueOf_k1, valueOf_le_iff, ← orderKey_le_iff]
  exact hw.2

/-! ### L2SF -/

/-- The branch of L2SF up to the branch point (spec/41_color.md R165). -/
def srgbLinear (u : F64) : F64 := fmul (fmul u k12_92) k255

/-- The branch of L2SF above the branch point (spec/41_color.md R165). -/
def srgbPower (u : F64) : F64 := fmul (fsub (fmul k1_055 (powcr u kInv2_4)) k0_055) k255

theorem srgbScaled_eq (u : F64) : srgbScaled u = if fle u kLinT then srgbLinear u else srgbPower u := rfl

/-- The floor in L2SF is not negative, so it is the number itself (spec/41_color.md R165). -/
theorem l2sf_cast {v : F64} (hv : isNaN v = false) :
    (l2sf v : Int) = ffloor (fadd (srgbScaled (clampUnit v)) kHalf) := by
  rw [l2sf, forceWord_eq]
  exact Int.toNat_of_nonneg (ffloor_srgbScaled hv).1

/-- Settles O36: `clampUnit` and `srgbScaled` are the formula's two parts. -/
theorem l2sfFormula : Obligations.L2sfFormula :=
  fun v hv => ⟨l2sf_le hv, clampUnit v, rfl, l2sf_cast hv⟩

theorem orderKey_clampUnit {v : F64} (hv : isNaN v = false) :
    orderKey (clampUnit v) = max (orderKey k0) (min (orderKey v) (orderKey k1)) := by
  have hk0 : isNaN k0 = false := by decide
  have hk1 : isNaN k1 = false := by decide
  have h01 : orderKey k0 ≤ orderKey k1 := by decide
  have hbelow : flt v k0 = true ↔ orderKey v < orderKey k0 := by simp [flt_iff, hv, hk0]
  have habove : flt k1 v = true ↔ orderKey k1 < orderKey v := by simp [flt_iff, hv, hk1]
  simp only [clampUnit, hbelow, habove]
  split_ifs <;> omega

theorem orderKey_clampUnit_mono {v w : F64} (hv : isNaN v = false) (hw : isNaN w = false) (h : orderKey v ≤ orderKey w) :
    orderKey (clampUnit v) ≤ orderKey (clampUnit w) := by
  rw [orderKey_clampUnit hv, orderKey_clampUnit hw]
  exact max_le_max_left _ (min_le_min_right _ h)

/-- `f` keeps the order of values on the interval from `lo` to `hi`. -/
def KeepsOrder (lo hi : F64) (f : F64 → F64) : Prop :=
  ∀ u w, Within lo u hi → Within lo w hi → orderKey u ≤ orderKey w → orderKey (f u) ≤ orderKey (f w)

section KeepsOrder
variable {lo hi c : F64} {f : F64 → F64} (hf : KeepsOrder lo hi f) (hlo : IsFinite (f lo)) (hhi : IsFinite (f hi))
include hf

/-- The values on the interval lie between the values at its ends. -/
theorem KeepsOrder.within {u : F64} (hu : Within lo u hi) : Within (f lo) (f u) (f hi) := by
  have h := hu.1.trans hu.2
  exact ⟨hf _ _ ⟨le_rfl, h⟩ hu hu.1, hf _ _ hu ⟨h, le_rfl⟩ hu.2⟩

include hlo hhi

theorem KeepsOrder.isFinite {u : F64} (hu : Within lo u hi) : IsFinite (f u) := (hf.within hu).isFinite hlo hhi

theorem KeepsOrder.fmul (hc : IsFinite c) (hs : signOf c = false) : KeepsOrder lo hi fun u => fmul (f u) c :=
  fun u w hu hw h => orderKey_fmul_mono (hf.isFinite hlo hhi hu) (hf.isFinite hlo hhi hw) (hf u w hu hw h) hc hs

theorem KeepsOrder.fadd (hc : IsFinite c) : KeepsOrder lo hi fun u => fadd (f u) c :=
  fun u w hu hw h => orderKey_fadd_mono (hf.isFinite hlo hhi hu) (hf.isFinite hlo hhi hw) (hf u w hu hw h) hc

theorem KeepsOrder.fsub (hc : IsFinite c) : KeepsOrder lo hi fun u => fsub (f u) c :=
  fun u w hu hw h => orderKey_fsub_mono (hf.isFinite hlo hhi hu) (hf.isFinite hlo hhi hw) (hf u w hu hw h) hc

theorem KeepsOrder.powcr (h0 : 0 < orderKey (f lo)) (e : F64) : KeepsOrder lo hi fun u => powcr (f u) e :=
  fun u w hu hw h => orderKey_powcr_mono (hf.isFinite hlo hhi hu) (hf.isFinite hlo hhi hw) (hf u w hu hw h)
    (h0.trans_le (hf.within hu).1) e

end KeepsOrder

theorem keepsOrder_id (lo hi : F64) : KeepsOrder lo hi fun u => u := fun _ _ _ _ h => h

/-- The number L2SF floors on the branch up to the branch point. -/
theorem srgbLinear_keepsOrder : KeepsOrder k0 kLinT fun u => fadd (srgbLinear u) kHalf := by
  have h := (keepsOrder_id k0 kLinT).fmul (c := k12_92) (by decide) (by decide) (by decide) (by decide)
  have h := h.fmul (c := k255) (by decide +kernel) (by decide +kernel) (by decide) (by decide)
  exact h.fadd (by decide +kernel) (by decide +kernel) (by decide)

/-- The number L2SF floors on the branch above the branch point. -/
theorem srgbPower_keepsOrder : KeepsOrder kLinT k1 fun u => fadd (srgbPower u) kHalf := by
  have h := (keepsOrder_id kLinT k1).powcr (by decide) (by decide) (by decide) kInv2_4
  have h := h.fmul (c := k1_055) (by decide +kernel) (by decide +kernel) (by decide) (by decide)
  have h := h.fsub (c := k0_055) (by decide +kernel) (by decide +kernel) (by decide)
  have h := h.fmul (c := k255) (by decide +kernel) (by decide +kernel) (by decide) (by decide)
  have h := h.fadd (c := kHalf) (by decide +kernel) (by decide +kernel) (by decide)
  simpa only [srgbPower, fmul_comm k1_055] using h

/-- At the branch point the two branches are out of order (the first is above the second), but they give one integer. -/
theorem ffloor_branchPoint :
    ffloor (fadd (srgbLinear kLinT) kHalf) = ffloor (fadd (srgbPower kLinT) kHalf) := by decide +kernel

theorem ffloor_srgbScaled_mono {u w : F64} (hu : Within k0 u k1) (hw : Within k0 w k1) (h : orderKey u ≤ orderKey w) :
    ffloor (fadd (srgbScaled u) kHalf) ≤ ffloor (fadd (srgbScaled w) kHalf) := by
  have hle {x : F64} (hx : Within k0 x k1) : fle x kLinT = true ↔ orderKey x ≤ orderKey kLinT := by
    simp [fle_iff, (hx.isFinite (by decide) (by decide)).isNaN, (by decide : isNaN kLinT = false)]
  simp only [srgbScaled_eq, hle hu, hle hw]
  split_ifs with hul hwl hwl
  · exact ffloor_mono (srgbLinear_keepsOrder _ _ ⟨hu.1, hul⟩ ⟨hw.1, hwl⟩ h)
  · have hlin := ffloor_mono (srgbLinear_keepsOrder.within ⟨hu.1, hul⟩).2
    have hpow := ffloor_mono (srgbPower_keepsOrder.within ⟨(not_le.1 hwl).le, hw.2⟩).1
    exact hlin.trans (ffloor_branchPoint.trans_le hpow)
  · exact absurd (h.trans hwl) hul
  · exact ffloor_mono (srgbPower_keepsOrder _ _ ⟨(not_le.1 hul).le, hu.2⟩ ⟨(not_le.1 hwl).le, hw.2⟩ h)

/-- Settles O37: each branch keeps the order, and across the branch point the two values have one floor between them. -/
theorem l2sfMonotone : Obligations.L2sfMonotone := by
  intro v w hvw
  obtain ⟨hv, hw, h⟩ := fle_iff.1 hvw
  have := ffloor_srgbScaled_mono (clampUnit_within hv) (clampUnit_within hw) (orderKey_clampUnit_mono hv hw h)
  rw [← l2sf_cast hv, ← l2sf_cast hw] at this
  exact Int.ofNat_le.1 this

/-! ### The signed power -/

theorem magOf_ite_fneg (s : Bool) (u : F64) : magOf (if s then fneg u else u) = magOf u := by
  split_ifs <;> simp

theorem signOf_ite_fneg (s : Bool) {u : F64} (h : signOf u = false) : signOf (if s then fneg u else u) = s := by
  cases s <;> simp [h]

theorem ite_fneg_fabs (v : F64) : (if signOf v then fneg (fabs v) else fabs v) = v :=
  eq_of_signOf_magOf (signOf_ite_fneg _ (signOf_fabs v)) (by rw [magOf_ite_fneg, magOf_fabs])

theorem neg_of_orderKey_neg {u : F64} (h : orderKey u < 0) : signOf u = true ∧ 0 < magOf u := by
  unfold orderKey at h
  split_ifs at h with hs
  · exact ⟨hs, by omega⟩
  · omega

section SignedPow
variable {v : F64}

/-- Zeros and infinities stay as they are (spec/41_color.md R169). -/
theorem signedPow_of_fixed (h : isZero v = true ∨ isInf v = true) (e : F64) : signedPow v e = v := by
  rw [signedPow, forceWord_eq, if_pos (by simpa using h)]

/-- Elsewhere the magnitude's power gets the sign of `v` (spec/41_color.md R169). -/
theorem signedPow_of_isFinite (hv : IsFinite v) (h0 : 0 < magOf v) (e : F64) :
    signedPow v e = if signOf v then fneg (powcr (fabs v) e) else powcr (fabs v) e := by
  rw [signedPow, forceWord_eq, isZero_eq_false.2 h0.ne', hv.isInf, Bool.or_self, if_neg Bool.false_ne_true]
  split_ifs with hs
  · rw [fneg_of_sign_true hs]
  · rw [fabs_of_sign_false (by simpa using hs)]

theorem signOf_powcr_fabs (hv : IsFinite v) (h0 : 0 < magOf v) (e : F64) : signOf (powcr (fabs v) e) = false :=
  (powcr_roundsTo (by rwa [magOf_fabs]) (by rwa [IsFinite, magOf_fabs])).2

theorem signOf_signedPow (hv : isNaN v = false) (e : F64) : signOf (signedPow v e) = signOf v := by
  rcases isNaN_false_cases hv with h | h | ⟨h, h0⟩
  · rw [signedPow_of_fixed (.inl h)]
  · rw [signedPow_of_fixed (.inr h)]
  · rw [signedPow_of_isFinite h h0, signOf_ite_fneg _ (signOf_powcr_fabs h h0 e)]

theorem magOf_signedPow_fneg (hv : isNaN v = false) (e : F64) :
    magOf (signedPow (fneg v) e) = magOf (signedPow v e) := by
  rcases isNaN_false_cases hv with h | h | ⟨h, h0⟩
  · rw [signedPow_of_fixed (.inl h), signedPow_of_fixed (.inl (by rwa [isZero_fneg])), magOf_fneg]
  · rw [signedPow_of_fixed (.inr h), signedPow_of_fixed (.inr (by rwa [isInf_fneg])), magOf_fneg]
  · rw [signedPow_of_isFinite h h0, signedPow_of_isFinite (by rwa [IsFinite, magOf_fneg]) (by rwa [magOf_fneg]),
      magOf_ite_fneg, magOf_ite_fneg, fabs_fneg]

theorem signedPow_fneg (hv : isNaN v = false) (e : F64) : signedPow (fneg v) e = fneg (signedPow v e) := by
  refine eq_of_signOf_magOf ?_ ?_
  · rw [signOf_signedPow (by rwa [isNaN_fneg]), signOf_fneg, signOf_fneg, signOf_signedPow hv]
  · rw [magOf_signedPow_fneg hv, magOf_fneg]

theorem abs_valueOf (u : F64) : |(valueOf u : ℝ)| = (units u : ℝ) / 2 ^ 1074 := by
  have hD : (0 : ℝ) < 2 ^ 1074 := pow_pos two_pos 1074
  rw [valueOf_cast, abs_div, abs_of_pos hD, ← Int.cast_abs, Int.abs_eq_natAbs, signedUnits_natAbs, units_eq, Int.cast_natCast]

theorem abs_valueOf_pos {u : F64} (h : magOf u ≠ 0) : 0 < |(valueOf u : ℝ)| := by
  have := magUnits_strictMono (Nat.pos_of_ne_zero h)
  rw [abs_valueOf, units_eq]
  exact div_pos (Nat.cast_pos.2 (by omega)) (pow_pos two_pos 1074)

theorem valueOf_fabs (u : F64) : (valueOf (fabs u) : ℝ) = |(valueOf u : ℝ)| := by
  rw [valueOf_of_sign_false (signOf_fabs u), abs_valueOf, units_eq, magOf_fabs, units_eq]

/-- The magnitude of the signed power is that of the real power, rounded (spec/41_color.md R169). -/
theorem signedPow_rounds (hv : IsFinite v) {e : F64} (hs : signOf e = false) (he : valueOf e ≠ 0) :
    Rounds (|(valueOf v : ℝ)| ^ (valueOf e : ℝ) * 2 ^ 1074) (magOf (signedPow v e)) := by
  have habs := abs_valueOf v
  rcases Nat.eq_zero_or_pos (magOf v) with h0 | h0
  · rw [units_eq, h0, magUnits_zero, Nat.cast_zero, zero_div] at habs
    rw [signedPow_of_fixed (.inl (by simp [isZero, h0])), habs, h0, Real.zero_rpow (Rat.cast_ne_zero.2 he), zero_mul]
    exact rounds_zero
  · have hp := (powcr_roundsTo (a := fabs v) (e := e) (by rwa [magOf_fabs]) (by rwa [IsFinite, magOf_fabs])).1.mag
    rw [← valueOf_of_sign_false (signOf_fabs v), ← valueOf_of_sign_false hs, valueOf_fabs, abs_of_nonneg] at hp
    · rwa [signedPow_of_isFinite hv h0, magOf_ite_fneg]
    · exact mul_nonneg (Real.rpow_nonneg (abs_nonneg _) _) (pow_nonneg zero_le_two 1074)

end SignedPow

/-- Settles O39: the definition's branches, by the sign of the operand. -/
theorem signedPowFormula : Obligations.SignedPowFormula := by
  intro v e _ _
  refine ⟨fun h => signedPow_of_fixed (.inl h) e, fun h => signedPow_of_fixed (.inr h) e, fun hfin h => ?_,
    fun hfin h => ?_⟩
  · obtain ⟨hs, h0⟩ := pos_of_flt_k0 h
    rw [signedPow_of_isFinite hfin h0, hs, if_neg Bool.false_ne_true, fabs_of_sign_false hs]
  · obtain ⟨hs, h0⟩ := neg_of_orderKey_neg (show orderKey v < 0 from (flt_iff.1 h).2.2)
    rw [signedPow_of_isFinite hfin h0, hs, if_pos rfl, fneg_of_sign_true hs]

/-! ### Exponents up to 1 -/

/-- A power with an exponent in [0, 1] lies between its base and 1. -/
theorem rpow_between {a x : ℝ} (ha : 0 < a) (h0 : 0 ≤ x) (h1 : x ≤ 1) : min a 1 ≤ a ^ x ∧ a ^ x ≤ max a 1 := by
  rcases le_total a 1 with h | h
  · rw [min_eq_left h, max_eq_right h]
    exact ⟨Real.self_le_rpow_of_le_one ha.le h h1, Real.rpow_le_one ha.le h h0⟩
  · rw [min_eq_right h, max_eq_left h]
    exact ⟨Real.one_le_rpow h h0, Real.rpow_le_self_of_one_le h h1⟩

theorem valueOf_pos {u : F64} (h : 0 < orderKey u) : 0 < valueOf u := by
  rw [← valueOf_k0, ← not_le, valueOf_le_iff, ← orderKey_le_iff]
  exact not_le.2 h

/-- Rounding keeps a power between the patterns of its base and of 1 (spec/41_color.md R170). -/
theorem magOf_signedPow_between {v e : F64} (hv : IsFinite v) (h0 : magOf v ≠ 0) (he0 : 0 < orderKey e)
    (he1 : orderKey e ≤ orderKey k1) :
    min (magOf v) (magOf k1) ≤ magOf (signedPow v e) ∧ magOf (signedPow v e) ≤ max (magOf v) (magOf k1) := by
  have hval0 : 0 < valueOf e := valueOf_pos he0
  have hval1 : valueOf e ≤ 1 := by
    rw [← valueOf_k1]
    exact valueOf_le_iff.2 ((orderKey_le_iff e k1).1 he1)
  have hr := signedPow_rounds hv (pos_of_orderKey_pos he0).1 hval0.ne'
  have hD : (0 : ℝ) < 2 ^ 1074 := pow_pos two_pos 1074
  have h1 : (magUnits (magOf k1) : ℝ) = 1 * 2 ^ 1074 := by
    rw [show magUnits (magOf k1) = 2 ^ 1074 by decide +kernel, one_mul, Nat.cast_pow, Nat.cast_ofNat]
  have hu : (magUnits (magOf v) : ℝ) = |(valueOf v : ℝ)| * 2 ^ 1074 := by
    rw [abs_valueOf, div_mul_cancel₀ _ hD.ne', units_eq]
  have hk1 : magOf k1 ≤ infMag := by decide
  obtain ⟨hlo, hhi⟩ := rpow_between (abs_valueOf_pos h0) (Rat.cast_nonneg.2 hval0.le) (by exact_mod_cast hval1)
  refine ⟨hr.le_of_ge (min_le_of_right_le hk1) ?_, hr.le_of_le (max_le hv.le hk1) ?_⟩
  · rw [magUnits_strictMono.monotone.map_min, Nat.cast_min, hu, h1, ← min_mul_of_nonneg _ _ hD.le]
    exact mul_le_mul_of_nonneg_right hlo hD.le
  · rw [magUnits_strictMono.monotone.map_max, Nat.cast_max, hu, h1, ← max_mul_of_nonneg _ _ hD.le]
    exact mul_le_mul_of_nonneg_right hhi hD.le

/-- Settles O40: the sign is put on the power of the magnitude, which lies between the magnitude and 1. -/
theorem signedPowOdd : Obligations.SignedPowOdd := by
  refine ⟨fun v e hv => ⟨signedPow_fneg hv e, signOf_signedPow hv e⟩, fun v e he hv h0 => ?_⟩
  simp only [List.mem_cons, List.not_mem_nil, or_false] at he
  rcases he with rfl | rfl
  · exact magOf_signedPow_between hv h0 (by decide) (by decide)
  · exact magOf_signedPow_between hv h0 (by decide) (by decide)

/-! ### The exponents 2.0 and 0.5 -/

theorem fmul_fabs_self_rounds {v : F64} (hv : IsFinite v) :
    Rounds (|(valueOf v : ℝ)| ^ (2 : ℝ) * 2 ^ 1074) (magOf (fmul (fabs v) (fabs v))) := by
  have ha : IsFinite (fabs v) := by rwa [IsFinite, magOf_fabs]
  have hr := (fmul_roundsTo ha ha).mag
  have hD : (2 : ℝ) ^ 1074 ≠ 0 := pow_ne_zero 1074 two_ne_zero
  rw [← valueOf_mul_scale, valueOf_fabs, mul_mul_mul_comm, mul_div_assoc, mul_div_cancel_right₀ _ hD, abs_of_nonneg] at hr
  · rwa [Real.rpow_two, pow_two |(valueOf v : ℝ)|]
  · exact mul_nonneg (mul_self_nonneg _) (pow_nonneg zero_le_two 1074)

/-- The square as a product (spec/41_color.md R172). -/
theorem signedPow_k2 {v : F64} (hv : isNaN v = false) :
    signedPow v k2 = if signOf v then fneg (fmul (fabs v) (fabs v)) else fmul (fabs v) (fabs v) := by
  rcases (isNaN_eq_false.1 hv).lt_or_eq with h | h
  · have ha : IsFinite (fabs v) := by rwa [IsFinite, magOf_fabs]
    have hsq := signedPow_rounds (v := v) (e := k2) h (by decide) (by decide +kernel)
    rw [show valueOf k2 = 2 by decide +kernel, Rat.cast_ofNat] at hsq
    have hsign : signOf (fmul (fabs v) (fabs v)) = false := by rw [signOf_fmul ha ha, bne_self_eq_false]
    refine eq_of_signOf_magOf ?_ ?_
    · rw [signOf_signedPow hv, signOf_ite_fneg _ hsign]
    · rw [magOf_ite_fneg, hsq.unique (fmul_fabs_self_rounds h)]
  · have hinf : fabs v = 0x7FF0000000000000 := by rw [fabs, h]; rfl
    have hmul : fmul (fabs v) (fabs v) = fabs v := by rw [hinf]; decide
    rw [hmul, ite_fneg_fabs]
    exact signedPow_of_fixed (.inr (by simp [isInf, h])) k2

theorem Rounds.roundsTo_fabs {x : ℝ} {u : F64} (h : Rounds x (magOf u)) (hx : 0 ≤ x) : RoundsTo x (fabs u) :=
  ⟨by rwa [abs_of_nonneg hx, magOf_fabs], fun hneg => absurd hx (not_le.2 hneg), fun _ => signOf_fabs u⟩

/-- The power 0.5 as the square root (spec/41_color.md R172). -/
theorem signedPow_kHalf_nearest {v : F64} (hv : IsFinite v) :
    NearestTo (Real.sqrt |(valueOf v : ℝ)|) (fabs (signedPow v kHalf)) := by
  have hr := signedPow_rounds (v := v) (e := kHalf) hv (by decide) (by decide +kernel)
  rw [show valueOf kHalf = 1 / 2 by decide +kernel, Rat.cast_div, Rat.cast_one, Rat.cast_ofNat, ← Real.sqrt_eq_rpow] at hr
  exact (hr.roundsTo_fabs (mul_nonneg (Real.sqrt_nonneg _) (pow_nonneg zero_le_two 1074))).nearest

/-- Settles O41: a real value rounds to one pattern, so the power is the rounded square and the rounded root. -/
theorem signedPowAsRootAndSquare : Obligations.SignedPowAsRootAndSquare :=
  ⟨fun _ hv => signedPow_k2 hv, fun _ hv => ⟨signedPow_kHalf_nearest hv, signOf_signedPow hv.isNaN kHalf⟩,
    fun _ hv => signedPow_of_fixed (.inr hv) kHalf⟩

/-! ### The commands -/

/-- A word without fields is its opcode's command (spec/30_encoding.md R104). -/
theorem decode_of_mem_rowsK0_setWidth {r : Instr × BitVec 8} (hr : r ∈ rowsK0) : decode (r.2.setWidth 64) = .ok r.1 := by
  rw [← wordOf_zero_zero, ← encode_of_mem_rowsK0 r hr, decode_encode]

theorem exec_s2l_eq (s : State) : exec .s2l s = .next (s.setRes 0 (s2lf (s.op[0].toNat % 256))).succeed := by
  rw [← State.opByte_eq]
  rfl

/-- One result register is written, and nothing else but the status changes (spec/44_control.md R262). -/
theorem State.setRes_result (s : State) (v : Word) :
    Succeeds s (s.setRes 0 v).succeed ∧ (s.setRes 0 v).succeed.res[0] = v ∧ KeepsRes s (s.setRes 0 v).succeed [0] ∧
      (s.setRes 0 v).succeed.chr = s.chr ∧ SameBytes s (s.setRes 0 v).succeed := by
  obtain ⟨hsucc, hkeep, hres⟩ := s.setRes_succeeds 0 v
  exact ⟨hsucc, hres, hkeep, rfl, fun _ => rfl⟩

/-- Settles O35: S2L commits one result register. -/
theorem s2lResult : Obligations.S2lResult :=
  ⟨decode_of_mem_rowsK0_setWidth (r := (.s2l, 0x10)) (by simp [rowsK0]),
    fun s => ⟨_, exec_s2l_eq s, s.setRes_result (s2lf (s.op[0].toNat % 256))⟩⟩

/-- What a command with one binary64 operand and one result register answers: the result, or Err(6, 0) for a NaN
(spec/41_color.md R168, R171). -/
theorem State.unlessNaN_setRes (s : State) (v : Word) :
    (isNaN s.op[0] = false → ∃ t, s.unlessNaN [s.opFloat 0] (.next (s.setRes 0 v).succeed) = .next t ∧ Succeeds s t ∧
      t.res[0] = v ∧ KeepsRes s t [0] ∧ t.chr = s.chr ∧ SameBytes s t) ∧
    (isNaN s.op[0] = true → ∃ t, s.unlessNaN [s.opFloat 0] (.next (s.setRes 0 v).succeed) = .next t ∧ Fails s t 6 0) := by
  refine ⟨fun h => ?_, fun h => ?_⟩
  · exact ⟨_, State.unlessNaN_of_forall (by simpa [State.opFloat] using h), s.setRes_result v⟩
  · have hfirst : firstNaN [s.opFloat 0] 0 = some 0 := by simp [firstNaN, State.opFloat, h]
    exact ⟨_, State.unlessNaN_of_first hfirst, s.raiseErr_fails .nanOperand 0 (by decide)⟩

/-- The patterns of a NaN (spec/41_color.md R168). -/
theorem isNaN_iff_fields (u : F64) : isNaN u = true ↔ u.toNat / 2 ^ 52 % 2 ^ 11 = 2047 ∧ u.toNat % 2 ^ 52 ≠ 0 := by
  have := u.isLt
  rw [isNaN_eq, decide_eq_true_eq, magOf, infMag]
  generalize u.toNat = n at *
  omega

/-- Settles O38: L2S is a command of one operand, with L2SF. -/
theorem l2sResult : Obligations.L2sResult :=
  ⟨decode_of_mem_rowsK0_setWidth (r := (.l2s, 0x11)) (by simp [rowsK0]), isNaN_iff_fields,
    fun s => s.unlessNaN_setRes (BitVec.ofNat 64 (l2sf (s.opFloat 0)))⟩

/-- Each signed power has a row of format K0, and its exponent (spec/41_color.md R173, R174, R175). -/
theorem signedPow_row {i : Instr} {w : Word} {e : F64}
    (h : (i, w, e) ∈ [(Instr.spowh, (0x20 : Word), kHalf), (.spowg, 0x21, kInv2_2), (.spows, 0x22, k2)]) :
    ∃ opc, (i, opc) ∈ rowsK0 ∧ w = opc.setWidth 64 ∧ ∀ s, exec i s = s.commitPow e := by
  simp only [List.mem_cons, Prod.mk.injEq, List.not_mem_nil, or_false] at h
  rcases h with ⟨rfl, rfl, rfl⟩ | ⟨rfl, rfl, rfl⟩ | ⟨rfl, rfl, rfl⟩
  · exact ⟨0x20, by simp [rowsK0], rfl, fun _ => rfl⟩
  · exact ⟨0x21, by simp [rowsK0], rfl, fun _ => rfl⟩
  · exact ⟨0x22, by simp [rowsK0], rfl, fun _ => rfl⟩

/-- Settles O42: the signed powers are commands of one operand, with the exponent of their row. -/
theorem signedPowersResult : Obligations.SignedPowersResult := by
  intro i w e h
  obtain ⟨opc, hr, rfl, hx⟩ := signedPow_row h
  refine ⟨decode_of_mem_rowsK0_setWidth hr, fun s => ?_⟩
  rw [hx]
  exact s.unlessNaN_setRes (signedPow (s.opFloat 0) e)

end Sys2Proof.Machine

/-!
PROOFS. The quantizers (spec/42_quantizers.md). Each is a chain of operations that send numbers (values that are no NaN,
the infinities among them) to numbers in their order (`NumberMono`). So a range or an end of a bin is found by computing
the chain at one value: 0, 1 or -1.
-/

namespace Sys2Proof.Machine

/-! ### Operations in the order of all numbers -/

/-- `f` sends numbers to numbers and keeps their order. -/
structure NumberMono (f : F64 → F64) : Prop where
  number : ∀ u, isNaN u = false → isNaN (f u) = false
  order : ∀ u w, isNaN u = false → isNaN w = false → orderKey u ≤ orderKey w → orderKey (f u) ≤ orderKey (f w)

theorem isFinite_or_isInf {u : F64} (h : isNaN u = false) : IsFinite u ∨ isInf u = true := by
  have := isNaN_eq_false.1 h
  simp only [isInf, decide_eq_true_eq, IsFinite]
  omega

/-- Two numbers in order are finite, or the lower one is -inf, or the upper one is +inf. -/
theorem isFinite_or_isInf_of_le {u w : F64} (hu : isNaN u = false) (hw : isNaN w = false) (h : orderKey u ≤ orderKey w) :
    IsFinite u ∧ IsFinite w ∨ isInf u = true ∧ signOf u = true ∨ isInf w = true ∧ signOf w = false := by
  rw [← orderKey_le_neg_infMag hu, ← infMag_le_orderKey hw]
  rcases isFinite_or_isInf hu with hfu | hiu
  · rcases isFinite_or_isInf hw with hfw | hiw
    · exact .inl ⟨hfu, hfw⟩
    · rw [orderKey_of_isInf hiw] at h ⊢
      split_ifs at h ⊢
      · exact .inr (.inl h)
      · exact .inr (.inr le_rfl)
  · rw [orderKey_of_isInf hiu] at h ⊢
    split_ifs at h ⊢
    · exact .inr (.inl le_rfl)
    · exact .inr (.inr h)

/-- Where the infinities stay as they are, the finite values decide. -/
theorem NumberMono.of_finite {f : F64 → F64} (hinf : ∀ u, isInf u = true → f u = u)
    (hnum : ∀ u, IsFinite u → isNaN (f u) = false)
    (hord : ∀ u w, IsFinite u → IsFinite w → orderKey u ≤ orderKey w → orderKey (f u) ≤ orderKey (f w)) :
    NumberMono f := by
  have number (u : F64) (hu : isNaN u = false) : isNaN (f u) = false := by
    rcases isFinite_or_isInf hu with h | h
    · exact hnum u h
    · rwa [hinf u h]
  refine ⟨number, fun u w hu hw h => ?_⟩
  rcases isFinite_or_isInf_of_le hu hw h with ⟨hfu, hfw⟩ | hlow | hhigh
  · exact hord u w hfu hfw h
  · rw [hinf u hlow.1]
    exact ((orderKey_le_neg_infMag hu).2 hlow).trans (orderKey_bounds (number w hw)).1
  · rw [hinf w hhigh.1]
    exact (orderKey_bounds (number u hu)).2.trans ((infMag_le_orderKey hw).2 hhigh)

theorem NumberMono.comp {f g : F64 → F64} (hf : NumberMono f) (hg : NumberMono g) : NumberMono fun u => f (g u) :=
  ⟨fun u hu => hf.number _ (hg.number u hu), fun u w hu hw h => hf.order _ _ (hg.number u hu) (hg.number w hw)
    (hg.order u w hu hw h)⟩

/-- The pattern of an infinity is its sign. -/
theorem withSign_infMag_of_isInf {u : F64} (h : isInf u = true) : withSign (signOf u) infMag = u := by
  rw [← magOf_of_isInf h, withSign_eta]

section Operand
variable {c : F64} (hc : IsFinite c)
include hc

theorem numberMono_fadd : NumberMono fun u => fadd u c :=
  .of_finite (fun _ h => fadd_of_isInf_of_isFinite h hc) (fun _ h => (fadd_roundsTo h hc).isNaN)
    fun _ _ hu hw h => orderKey_fadd_mono hu hw h hc

theorem numberMono_fsub : NumberMono fun u => fsub u c :=
  numberMono_fadd (c := fneg c) (by rwa [IsFinite, magOf_fneg])

variable (hs : signOf c = false) (h0 : magOf c ≠ 0)
include hs h0

theorem numberMono_fmul : NumberMono fun u => fmul u c :=
  .of_finite
    (fun u h => by
      rw [infinity_mul_finite h hc, isZero_eq_false.2 h0, hs, if_neg Bool.false_ne_true, Bool.bne_false,
        withSign_infMag_of_isInf h])
    (fun _ h => (fmul_roundsTo h hc).isNaN) fun _ _ hu hw h => orderKey_fmul_mono hu hw h hc hs

theorem numberMono_fdiv : NumberMono fun u => fdiv u c :=
  .of_finite
    (fun u h => by
      rw [fdiv_of_isInf_left h hc.isNaN, hc.isInf, hs, if_neg Bool.false_ne_true, Bool.bne_false,
        withSign_infMag_of_isInf h])
    (fun _ h => (fdiv_roundsTo h hc h0).isNaN) fun _ _ hu hw h => orderKey_fdiv_mono hu hw h hc h0 hs

end Operand

section Exponent
variable {e : F64} (he : 0 < orderKey e)
include he

/-- A larger magnitude has a larger power (spec/41_color.md R169). -/
theorem magOf_signedPow_mono {u w : F64} (hu : IsFinite u) (hw : IsFinite w) (h : magOf u ≤ magOf w) :
    magOf (signedPow u e) ≤ magOf (signedPow w e) := by
  have hs := (pos_of_orderKey_pos he).1
  have hval := valueOf_pos he
  refine (signedPow_rounds hu hs hval.ne').mono (signedPow_rounds hw hs hval.ne') ?_
  have hunits : (units u : ℝ) ≤ units w := Nat.cast_le.2 (magUnits_strictMono.monotone h)
  have h0 : (0 : ℝ) ≤ 2 ^ 1074 := pow_nonneg zero_le_two 1074
  rw [abs_valueOf, abs_valueOf]
  exact mul_le_mul_of_nonneg_right (Real.rpow_le_rpow (div_nonneg (Nat.cast_nonneg _) h0)
    (div_le_div_of_nonneg_right hunits h0) (Rat.cast_nonneg.2 hval.le)) h0

theorem orderKey_signedPow_mono {u w : F64} (hu : IsFinite u) (hw : IsFinite w) (h : orderKey u ≤ orderKey w) :
    orderKey (signedPow u e) ≤ orderKey (signedPow w e) := by
  have hle := magOf_signedPow_mono he hu hw
  have hge := magOf_signedPow_mono he hw hu
  have hzero {v : F64} (hv : magOf v = 0) : magOf (signedPow v e) = 0 := by
    rw [signedPow_of_fixed (.inl (by simp [isZero, hv])), hv]
  have hzu := hzero (v := u)
  have hzw := hzero (v := w)
  simp only [orderKey, signOf_signedPow hu.isNaN, signOf_signedPow hw.isNaN] at h ⊢
  split_ifs at h ⊢ <;> omega

theorem numberMono_signedPow : NumberMono fun u => signedPow u e :=
  .of_finite (fun _ h => signedPow_of_fixed (.inr h) e)
    (fun _ h => isNaN_eq_false.2
      (signedPow_rounds h (pos_of_orderKey_pos he).1 (valueOf_pos he).ne').1)
    fun _ _ hu hw h => orderKey_signedPow_mono he hu hw h

end Exponent

theorem clampi_mono {a b : F64} (ha : isNaN a = false) (hb : isNaN b = false) (h : orderKey a ≤ orderKey b) {lo hi : Int}
    (hlh : lo ≤ hi) : clampi a lo hi ≤ clampi b lo hi := by
  rcases isFinite_or_isInf_of_le ha hb h with ⟨hfa, hfb⟩ | ⟨hinf, hs⟩ | ⟨hinf, hs⟩
  · rw [clampi_of_isFinite hfa, clampi_of_isFinite hfb, ← ffloor_eq_floor, ← ffloor_eq_floor]
    exact max_le_max_left _ (min_le_min_left _ (ffloor_mono h))
  · rw [clampi_of_isInf hinf, if_pos hs]
    exact (clampi_bounds b hlh).1
  · rw [clampi_of_isInf hinf, hs, if_neg Bool.false_ne_true]
    exact (clampi_bounds a hlh).2

/-- The number that a clamp from 0 up gives, after `f`, grows with the operand. -/
theorem NumberMono.toNat_clampi {f : F64 → F64} (hf : NumberMono f) {hi : Int} (h0 : 0 ≤ hi) {u w : F64}
    (hu : isNaN u = false) (hw : isNaN w = false) (h : orderKey u ≤ orderKey w) :
    (clampi (f u) 0 hi).toNat ≤ (clampi (f w) 0 hi).toNat :=
  Int.toNat_le_toNat (clampi_mono (hf.number u hu) (hf.number w hw) (hf.order u w hu hw h) h0)

theorem orderKey_of_isZero {u : F64} (h : isZero u = true) : orderKey u = orderKey k0 := by
  have hm : magOf u = 0 := by simpa [isZero] using h
  rw [orderKey, hm]
  exact ite_self _

/-! ### Exact quotients -/

/-- A quotient that is a value is that value. -/
theorem fdiv_eq_of_mul {a b u : F64} (ha : IsFinite a) (hb : IsFinite b) (h0 : magOf b ≠ 0) (hu : IsFinite u)
    (hs : signOf u = (signOf a != signOf b)) (h : valueOf a = valueOf u * valueOf b) : fdiv a b = u := by
  refine eq_of_signOf_magOf ((signOf_fdiv ha hb h0).trans hs.symm) ((fdiv_roundsTo ha hb h0).mag.unique ?_)
  have hb0 : (valueOf b : ℝ) ≠ 0 := abs_pos.1 (abs_valueOf_pos h0)
  have hx : (signedUnits a : ℝ) / signedUnits b * 2 ^ 1074 = signedUnits u := by
    rw [← valueOf_mul_scale a, ← valueOf_mul_scale b, mul_div_mul_right _ _ (pow_ne_zero 1074 two_ne_zero), h,
      Rat.cast_mul, mul_div_cancel_right₀ _ hb0, valueOf_mul_scale]
  rw [hx]
  exact (roundsTo_self hu.le).mag

/-- The division by 1.0 is exact (spec/42_quantizers.md R203). -/
theorem fdiv_k1 {m : F64} (hm : isNaN m = false) : fdiv m k1 = m := by
  have hs : (signOf m != signOf k1) = signOf m := Bool.bne_false _
  rcases isFinite_or_isInf hm with h | h
  · exact fdiv_eq_of_mul h (by decide) (by decide) h hs.symm (by rw [valueOf_k1, mul_one])
  · rw [fdiv_of_isInf_left h (by decide), if_neg (by decide), hs, withSign_infMag_of_isInf h]

/-! ### AMAXQ -/

/-- The number that AMAXF clamps (spec/42_quantizers.md R203). -/
def amaxScaled (m : F64) : F64 := fsub (fmul (signedPow m kHalf) k166) kHalf

theorem numberMono_amaxScaled : NumberMono amaxScaled :=
  (numberMono_fsub (c := kHalf) (by decide)).comp
    ((numberMono_fmul (c := k166) (by decide) (by decide) (by decide)).comp (numberMono_signedPow (e := kHalf) (by decide)))

theorem amaxQuant_eq_ite {m : F64} (hm : isNaN m = false) :
    amaxQuant m = if isZero m then 0 else (clampi (amaxScaled m) 0 82).toNat := by
  rw [amaxQuant, forceWord_eq, fdiv_k1 hm, amaxScaled]

/-- A zero needs no case of its own: -0.5 has the floor -1, which is clamped to 0. -/
theorem amaxQuant_eq {m : F64} (hm : isNaN m = false) : amaxQuant m = (clampi (amaxScaled m) 0 82).toNat := by
  rw [amaxQuant_eq_ite hm, ite_eq_right_iff]
  intro hz
  have hle := numberMono_amaxScaled.toNat_clampi (hi := 82) (by decide) hm (by decide) (orderKey_of_isZero hz).le
  have h0 : (clampi (amaxScaled k0) 0 82).toNat = 0 := by decide +kernel
  omega

theorem amaxQuant_le {m : F64} (hm : isNaN m = false) : amaxQuant m ≤ 82 := by
  rw [amaxQuant_eq hm, Int.toNat_le]
  exact (clampi_bounds _ (by decide)).2

/-- R203's formula: the clamp leaves a number that is not negative. -/
theorem amaxQuant_cast {m : F64} (hm : isNaN m = false) :
    (amaxQuant m : Int) = if isZero m then 0 else clampi (amaxScaled m) 0 82 := by
  rw [amaxQuant_eq_ite hm, apply_ite Nat.cast, Int.toNat_of_nonneg (clampi_bounds _ (by decide)).1, Nat.cast_zero]

theorem orderKey_maxValueOf_mono {q q' : Nat} (h : q ≤ q') (hq : q' ≤ 82) :
    orderKey (maxValueOf q) ≤ orderKey (maxValueOf q') :=
  orderKey_fdiv_mono (fofNat_exact (by omega)).1 (fofNat_exact (by omega)).1 (orderKey_fofNat_mono (by omega) (by omega))
    (by decide) (by decide) (by decide)

theorem maxValueOf_nearest {q : Nat} (hq : q ≤ 82) : NearestTo (((q : ℝ) + 1) / 166) (maxValueOf q) := by
  have h := fdiv_nearest (fofNat_exact (n := q + 1) (by omega)).1 (b := k166) (by decide) (by decide)
  rw [valueOf_fofNat (by omega), show valueOf k166 = 166 by decide +kernel] at h
  simpa [maxValueOf] using h

theorem maxValueOf_82 : maxValueOf 82 = kHalf := by decide +kernel

theorem isNaN_maxValueOf {q : Nat} (hq : q ≤ 82) : isNaN (maxValueOf q) = false :=
  (fdiv_roundsTo (fofNat_exact (by omega)).1 (by decide) (by decide)).isNaN

theorem fle_maxValueOf {q q' : Nat} (h : q ≤ q') (hq : q' ≤ 82) : fle (maxValueOf q) (maxValueOf q') = true :=
  fle_iff.2 ⟨isNaN_maxValueOf (h.trans hq), isNaN_maxValueOf hq, orderKey_maxValueOf_mono h hq⟩

/-- Settles O45: every operation of AMAXF keeps the order, and the last of the 83 quotients is exact. -/
theorem amaxQuantRange : Obligations.AmaxQuantRange := by
  refine ⟨fun m hm => amaxQuant_le hm, fun m m' h => ?_, fun q hq => ⟨maxValueOf_nearest hq, ?_, ?_⟩, maxValueOf_82⟩
  · obtain ⟨hm, hm', hle⟩ := fle_iff.1 h
    rw [amaxQuant_eq hm, amaxQuant_eq hm']
    exact numberMono_amaxScaled.toNat_clampi (by decide) hm hm' hle
  · exact fle_maxValueOf (Nat.zero_le q) hq
  · rw [← maxValueOf_82]
    exact fle_maxValueOf hq le_rfl

/-! ### The bins of ACQ -/

/-- Where a quotient is a NaN (spec/00_scope.md R8). -/
theorem isNaN_fdiv_iff (a b : F64) : isNaN (fdiv a b) = true ↔ isNaN a = true ∨ isNaN b = true ∨
    (isZero a = true ∧ isZero b = true) ∨ (isInf a = true ∧ isInf b = true) := by
  have hinf (neg : Bool) : isNaN (withSign neg infMag) = false := by cases neg <;> decide
  have hzero (neg : Bool) : isNaN (withSign neg 0) = false := by cases neg <;> decide
  by_cases hnan : isNaN a = true ∨ isNaN b = true
  · simp [fdiv_of_isNaN hnan, isNaN_nanPattern, ← or_assoc, hnan]
  simp only [not_or, Bool.not_eq_true] at hnan
  obtain ⟨ha, hb⟩ := hnan
  rcases isFinite_or_isInf ha with hfa | hia
  · rcases isFinite_or_isInf hb with hfb | hib
    · by_cases hz : isZero b = true
      · rw [fdiv_of_isZero_right hfa hz]
        split_ifs with hza <;> simp [ha, hb, hz, hza, hfa.isInf, hinf, isNaN_nanPattern]
      · simp [(fdiv_roundsTo hfa hfb (isZero_eq_false.1 (by simpa using hz))).isNaN, ha, hb, hz, hfa.isInf]
    · simp [fdiv_of_isInf_right hfa hib, hzero, ha, hb, hfa.isInf, isZero_of_isInf hib]
  · rw [fdiv_of_isInf_left hia hb]
    split_ifs with hib <;> simp [ha, hb, hia, hib, isZero_of_isInf hia, hinf, isNaN_nanPattern]

theorem acf1_eq_none_iff {c mv : F64} : acf1 c mv = none ↔ isNaN (fdiv c mv) = true := by
  rw [acf1, forceWord_eq]
  split_ifs with h <;> simp [h]

theorem acf1_of_number {c mv : F64} (h : isNaN (fdiv c mv) = false) : acf1 c mv = some (acBin (fdiv c mv)) := by
  rw [acf1, forceWord_eq, h, if_neg Bool.false_ne_true]

/-- A bin that ACF1 answers is the quotient's (spec/42_quantizers.md R206). -/
theorem eq_acBin_of_acf1 {c mv : F64} {q : Nat} (h : acf1 c mv = some q) : q = acBin (fdiv c mv) := by
  have hn : isNaN (fdiv c mv) = false := by
    rw [← Bool.not_eq_true, ← acf1_eq_none_iff, h]
    exact Option.some_ne_none q
  exact Option.some.inj (h.symm.trans (acf1_of_number hn))

theorem acf1_le {c mv : F64} {q : Nat} (h : acf1 c mv = some q) : q ≤ 18 := eq_acBin_of_acf1 h ▸ acBin_le _

/-- Settles O46: the NaN quotients of R8, and the bin's formula, whose clamp leaves a number that is not negative. -/
theorem acQuotientNaN : Obligations.AcQuotientNaN := by
  refine fun c mv => ⟨acf1_eq_none_iff.trans (isNaN_fdiv_iff c mv), fun q hq => ⟨acf1_le hq, ?_⟩⟩
  rw [eq_acBin_of_acf1 hq]
  exact Int.toNat_of_nonneg (clampi_bounds _ (by decide)).1

/-- The number that the bin clamps (spec/42_quantizers.md R206). -/
def acScaled (t : F64) : F64 := fadd (fmul (signedPow t kInv2_2) k9) k9_5

theorem acBin_eq (t : F64) : acBin t = (clampi (acScaled t) 0 18).toNat := rfl

theorem numberMono_acScaled : NumberMono acScaled :=
  (numberMono_fadd (c := k9_5) (by decide)).comp
    ((numberMono_fmul (c := k9) (by decide) (by decide) (by decide)).comp (numberMono_signedPow (e := kInv2_2) (by decide)))

theorem acBin_mono {t t' : F64} (ht : isNaN t = false) (ht' : isNaN t' = false) (h : orderKey t ≤ orderKey t') :
    acBin t ≤ acBin t' := by
  rw [acBin_eq, acBin_eq]
  exact numberMono_acScaled.toNat_clampi (by decide) ht ht' h

theorem acBin_of_isZero {t : F64} (h : isZero t = true) : acBin t = 9 := by
  have ht := (isFinite_of_isZero h).isNaN
  have hk := orderKey_of_isZero h
  have h9 : acBin k0 = 9 := by decide +kernel
  exact h9 ▸ le_antisymm (acBin_mono ht (by decide) hk.le) (acBin_mono (by decide) ht hk.ge)

theorem acBin_k1 : acBin k1 = 18 := by decide +kernel

theorem acBin_fneg_k1 : acBin (fneg k1) = 0 := by decide +kernel

section Divisor
variable {mv : F64} (hmv : IsFinite mv) (h0 : magOf mv ≠ 0)
include hmv h0

theorem fdiv_self : fdiv mv mv = k1 :=
  fdiv_eq_of_mul hmv hmv h0 (by decide) (by rw [bne_self_eq_false]; rfl) (by rw [valueOf_k1, one_mul])

theorem fdiv_fneg_self : fdiv (fneg mv) mv = fneg k1 :=
  fdiv_eq_of_mul (by rwa [IsFinite, magOf_fneg]) hmv h0 (by decide) (by rw [signOf_fneg mv]; cases signOf mv <;> rfl)
    (by rw [valueOf_fneg, valueOf_fneg, valueOf_k1, neg_one_mul])

variable (hs : signOf mv = false)
include hs

theorem acf1_of_number_of_pos {c : F64} (hc : isNaN c = false) : acf1 c mv = some (acBin (fdiv c mv)) :=
  acf1_of_number ((numberMono_fdiv hmv hs h0).number c hc)

theorem acBin_fdiv_mono {c c' : F64} (hc : isNaN c = false) (hc' : isNaN c' = false) (h : orderKey c ≤ orderKey c') :
    acBin (fdiv c mv) ≤ acBin (fdiv c' mv) :=
  have hdiv := numberMono_fdiv hmv hs h0
  acBin_mono (hdiv.number c hc) (hdiv.number c' hc') (hdiv.order c c' hc hc' h)

theorem fdiv_of_isZero_left {c : F64} (h : isZero c = true) : fdiv c mv = c := by
  have hm : magOf c = 0 := by simpa [isZero] using h
  have hc := isFinite_of_isZero h
  have hv : valueOf c = 0 := by simp [valueOf, signedUnits, units_eq, hm, magUnits_zero]
  exact fdiv_eq_of_mul hc hmv h0 hc (by rw [hs, Bool.bne_false]) (by rw [hv, zero_mul])

end Divisor

/-- Settles O47: the division and every operation of the bin keep the order, and the quotients at `mv`, at `-mv` and at a
zero are 1, -1 and the zero. -/
theorem acBinMonotone : Obligations.AcBinMonotone := by
  intro mv hmv hpos
  obtain ⟨hs, hm⟩ := pos_of_flt_k0 hpos
  have h0 := hm.ne'
  have hbin {c : F64} (hc : isNaN c = false) := acf1_of_number_of_pos hmv h0 hs hc
  refine ⟨fun c c' h => ?_, fun c hc => ?_, fun c h => ?_, fun c h => ?_⟩
  · obtain ⟨hc, hc', hle⟩ := fle_iff.1 h
    exact ⟨_, _, hbin hc, hbin hc', acBin_fdiv_mono hmv h0 hs hc hc' hle⟩
  · rw [hbin (isFinite_of_isZero hc).isNaN, fdiv_of_isZero_left hmv h0 hs hc, acBin_of_isZero hc]
  · obtain ⟨hv, hc, hle⟩ := fle_iff.1 h
    have hge := acBin_fdiv_mono hmv h0 hs hv hc hle
    rw [fdiv_self hmv h0, acBin_k1] at hge
    rw [hbin hc, le_antisymm (acBin_le _) hge]
  · obtain ⟨hc, hv, hle⟩ := fle_iff.1 h
    have hzero := acBin_fdiv_mono hmv h0 hs hc hv hle
    rw [fdiv_fneg_self hmv h0, acBin_fneg_k1, Nat.le_zero] at hzero
    rw [hbin hc, hzero]

/-! ### The commands -/

/-- The first NaN among the first `n` operand registers (spec/60_exceptions.md R273). -/
theorem State.firstNaN_operands {s : State} {n : Nat} {k : Fin 4} (hn : k.val < n) (hk : isNaN s.op[k] = true)
    (h : ∀ j : Fin 4, j < k → isNaN s.op[j] = false) :
    firstNaN (((List.finRange 4).take n).map s.opFloat) 0 = some k.val := by
  refine firstNaN_eq_some.2 ⟨k.val, by simp [hn], (Nat.zero_add _).symm, ?_, fun j hj => ?_⟩
  · simpa [State.opFloat] using hk
  · simpa [State.opFloat] using h ⟨j, by omega⟩ hj

/-- The report of the first NaN among the first `n` operand registers (spec/60_exceptions.md R273, R274). -/
theorem State.unlessNaN_operands_fails {s : State} {n : Nat} {k : Fin 4} (hn : k.val < n) (hk : isNaN s.op[k] = true)
    (h : ∀ j : Fin 4, j < k → isNaN s.op[j] = false) (go : Result) :
    ∃ t, s.unlessNaN (((List.finRange 4).take n).map s.opFloat) go = .next t ∧ Fails s t 6 k.val :=
  ⟨_, State.unlessNaN_of_first (State.firstNaN_operands hn hk h), s.raiseErr_fails .nanOperand k.val (by omega)⟩

/-- One result register is written with a number below 2^64, and nothing else but the status changes. -/
theorem State.setRes_ofNat_result {s t : State} {n : Nat} (ht : t = (s.setRes 0 (BitVec.ofNat 64 n)).succeed)
    (h : n < 2 ^ 64) :
    Succeeds s t ∧ t.res[0].toNat = n ∧ KeepsRes s t [0] ∧ t.chr = s.chr ∧ SameBytes s t := by
  obtain ⟨hsucc, hres, hrest⟩ := s.setRes_result (BitVec.ofNat 64 n)
  subst ht
  exact ⟨hsucc, by rw [hres, BitVec.toNat_ofNat, Nat.mod_eq_of_lt h], hrest⟩

/-- Settles O43: DCQ packs three L2SF bytes, or reports the first NaN of three operands. -/
theorem dcqResult : Obligations.DcqResult := by
  refine ⟨decode_of_mem_rowsK0_setWidth (r := (.dcq, 0x30)) (by simp [rowsK0]), fun s => ⟨fun h0 h1 h2 => ?_,
    fun k hk hnan hbefore => State.unlessNaN_operands_fails hk hnan hbefore _⟩⟩
  have hlt := dcf_lt h0 h1 h2
  obtain ⟨hsucc, hres, hrest⟩ := State.setRes_ofNat_result (s := s) rfl (hlt.trans (by decide : 2 ^ 24 < 2 ^ 64))
  exact ⟨_, State.unlessNaN_of_forall (by simp [State.opFloat, h0, h1, h2]), hsucc, hres,
    hres.trans_le (Nat.le_of_lt_succ hlt), hrest⟩

/-- Two result registers are written, and nothing else but the status changes (spec/44_control.md R262). -/
theorem State.setRes_setRes_result {s t : State} {v v' : Word} (ht : t = ((s.setRes 0 v).setRes 1 v').succeed) :
    Succeeds s t ∧ t.res[0] = v ∧ t.res[1] = v' ∧ KeepsRes s t [0, 1] ∧ t.chr = s.chr ∧ SameBytes s t := by
  have heff := ht.trans (State.setRes_setRes_succeed_eq_withEffect s 0 1 v v')
  refine ⟨heff ▸ s.withEffect_succeeds (Nat.zero_le _), ?_, ?_, heff ▸ s.withEffect_keepsRes, ?_, ?_⟩
  · simp [ht]
  · simp [ht]
  · rw [ht]
    rfl
  · rw [ht]
    exact fun _ => rfl

/-- Settles O44: the division by 1.0 is exact, and AMAXQ commits `q` and `mv`. -/
theorem amaxqResult : Obligations.AmaxqResult := by
  refine ⟨decode_of_mem_rowsK0_setWidth (r := (.amaxq, 0x31)) (by simp [rowsK0]),
    fun m hm => ⟨fdiv_k1 hm, amaxQuant_cast hm⟩, fun s => ⟨fun h => ?_,
    fun h => State.unlessNaN_operands_fails (n := 1) (k := 0) (by decide) h (by simp) _⟩⟩
  exact ⟨_, (State.unlessNaN_of_forall (by simpa [State.opFloat] using h)).trans (force_eq _ _),
    State.setRes_setRes_result rfl⟩

section Acq
variable {s : State} (h : ∀ k : Fin 4, isNaN s.op[k] = false)
include h

theorem State.isNaN_opFloat_of_numbers :
    ∀ u ∈ [s.opFloat 0, s.opFloat 1, s.opFloat 2, s.opFloat 3], isNaN u = false := by
  simp only [List.forall_mem_cons]
  exact ⟨h 0, h 1, h 2, h 3, nofun⟩

theorem exec_acq_of_bins {qr qg qb : Nat} (hr : acf1 s.op[0] s.op[3] = some qr) (hg : acf1 s.op[1] s.op[3] = some qg)
    (hb : acf1 s.op[2] s.op[3] = some qb) :
    exec .acq s = .next (s.setRes 0 (BitVec.ofNat 64 (packAc qr qg qb))).succeed := by
  refine (State.unlessNaN_of_forall (State.isNaN_opFloat_of_numbers h)).trans ?_
  simp [State.opFloat, hr, hg, hb]

/-- The first NaN quotient is reported, R before G before B (spec/42_quantizers.md R208). -/
theorem exec_acq_of_quotient {ch : Fin 4} (hch : ch.val < 3) (hnone : acf1 s.op[ch] s.op[3] = none)
    (hbefore : ∀ j : Fin 4, j < ch → (acf1 s.op[j] s.op[3]).isSome = true) :
    exec .acq s = .next (s.raiseErr .nanOperand (4 + ch.val)) := by
  refine (State.unlessNaN_of_forall (State.isNaN_opFloat_of_numbers h)).trans ?_
  have bin {j : Fin 4} (hj : j < ch) := Option.isSome_iff_exists.1 (hbefore j hj)
  match ch with
  | 0 =>
    have hr : acf1 s.op[0] s.op[3] = none := hnone
    simp [State.opFloat, hr]
  | 1 =>
    obtain ⟨qr, hr⟩ : ∃ q, acf1 s.op[0] s.op[3] = some q := bin (j := 0) (by decide)
    have hg : acf1 s.op[1] s.op[3] = none := hnone
    simp [State.opFloat, hr, hg]
  | 2 =>
    obtain ⟨qr, hr⟩ : ∃ q, acf1 s.op[0] s.op[3] = some q := bin (j := 0) (by decide)
    obtain ⟨qg, hg⟩ : ∃ q, acf1 s.op[1] s.op[3] = some q := bin (j := 1) (by decide)
    have hb : acf1 s.op[2] s.op[3] = none := hnone
    simp [State.opFloat, hr, hg, hb]

end Acq

/-- Settles O48: three bins are packed, or the first NaN of four operands is reported, or of three quotients. -/
theorem acqResult : Obligations.AcqResult := by
  refine ⟨decode_of_mem_rowsK0_setWidth (r := (.acq, 0x32)) (by simp [rowsK0]), fun s => ⟨fun qr qg qb h hr hg hb => ?_,
    fun k hk hbefore => State.unlessNaN_operands_fails (n := 4) k.isLt hk hbefore _, fun h ch hch hnone hbefore => ?_⟩⟩
  · have hle := packAc_le (acf1_le hr) (acf1_le hg) (acf1_le hb)
    obtain ⟨hsucc, hres, hrest⟩ := State.setRes_ofNat_result (s := s) rfl (hle.trans_lt (by decide))
    exact ⟨_, exec_acq_of_bins h hr hg hb, hsucc, hres, hres.trans_le hle, hrest⟩
  · exact ⟨_, exec_acq_of_quotient h hch hnone hbefore, s.raiseErr_fails .nanOperand (4 + ch.val) (by omega)⟩

end Sys2Proof.Machine

/-!
PROOFS. The whole-grid quantizer (spec/43_grid.md R230 to R238). GRIDQ has one equation per outcome (`exec_gridq_of_*`); on
written words without a NaN it is an effect (`exec_gridq_of_numbers`), whose registers, QG words and maximum are read off
one by one. R238 then compares that result with the results of DCQ, AMAXQ and ACQ.
-/

namespace Sys2Proof.Machine

/-! ### The size flag -/

/-- Settles O53: the flag is a number of two digits, the lower one to the base 9. -/
theorem sizeFlagBijection : Obligations.SizeFlagBijection := by
  refine ⟨fun cx cy hx hx9 hy hy9 => ⟨rfl, ?_, ?_, ?_⟩, fun f hf => ?_⟩ <;> unfold sizeFlag <;> omega

/-! ### The outcomes of GRIDQ -/

theorem exec_gridq_of_bad_cx {cx : BitVec 4} (cy : BitVec 4) (s : State) (h : countLegal cx.toNat = false) :
    exec (.gridq cx cy) s = .next (s.raiseErr .invalidComponents 0) := by
  simp [exec, execGridq, h]

theorem exec_gridq_of_bad_cy {cx cy : BitVec 4} (s : State) (hx : countLegal cx.toNat = true)
    (hy : countLegal cy.toNat = false) : exec (.gridq cx cy) s = .next (s.raiseErr .invalidComponents 1) := by
  simp [exec, execGridq, hx, hy]

/-- Settles O50: each count has its own report, and CX is checked first. -/
theorem gridqInvalidComponents : Obligations.GridqInvalidComponents := by
  refine fun s cx cy => ⟨fun hx => ?_, fun hx hx9 hy => ?_⟩
  · rw [← countLegal_iff, Bool.not_eq_true] at hx
    exact ⟨_, exec_gridq_of_bad_cx cy s hx, s.raiseErr_fails .invalidComponents 0 (by decide)⟩
  · rw [← countLegal_iff, Bool.not_eq_true] at hy
    exact ⟨_, exec_gridq_of_bad_cy s (countLegal_iff.2 ⟨hx, hx9⟩) hy, s.raiseErr_fails .invalidComponents 1 (by decide)⟩

/-- The channel words `c 0`, `c 1`, ... of `N` coefficients (spec/43_grid.md R231). -/
def gridWords (c : Nat → Word) (N : Nat) : List Word := (List.range (3 * N)).map c

section GridWords
variable {c : Nat → Word} {N : Nat}

@[simp] theorem length_gridWords : (gridWords c N).length = 3 * N := by simp [gridWords]

@[simp] theorem getElem_gridWords {k : Nat} (h : k < (gridWords c N).length) : (gridWords c N)[k] = c k := by
  simp [gridWords]

theorem mem_gridWords {u : Word} : u ∈ gridWords c N ↔ ∃ k < 3 * N, c k = u := by simp [gridWords]

/-- The AC channel words are those from COEF[3] on (spec/43_grid.md R237). -/
theorem mem_drop_gridWords {u : Word} : u ∈ (gridWords c N).drop 3 ↔ ∃ k, 3 ≤ k ∧ k < 3 * N ∧ c k = u := by
  rw [gridWords, ← List.map_drop, List.range_eq_range', List.drop_range', List.mem_map]
  refine exists_congr fun k => ?_
  rw [List.mem_range'_1, ← and_assoc]
  refine and_congr_left fun _ => ?_
  omega

/-- Written words are read as they are. -/
theorem coefWords_of_written {s : State} (h : ∀ k < 3 * N, s.coef k = some (c k)) :
    coefWords s.mem 0 (3 * N) = some (gridWords c N) := by
  refine coefWords_eq_some.2 ⟨length_gridWords, fun k hk => ?_⟩
  rw [Nat.zero_add, ← State.coef_eq, getElem_gridWords]
  exact h k (by simpa using hk)

end GridWords

section Counts
variable {s : State} {cx cy : BitVec 4} (hx : countLegal cx.toNat = true) (hy : countLegal cy.toNat = true)
include hx hy

theorem exec_gridq_of_unwritten (h : coefWords s.mem 0 (3 * (cx.toNat * cy.toNat)) = none) :
    exec (.gridq cx cy) s = .fault .unwrittenOperand := by
  simp [exec, execGridq, hx, hy, h]

variable {c : Nat → Word} (hw : ∀ k < 3 * (cx.toNat * cy.toNat), s.coef k = some (c k))
include hw

theorem exec_gridq_of_written :
    exec (.gridq cx cy) s = s.unlessNaN (gridWords c (cx.toNat * cy.toNat))
      (.next (s.commitGrid cx.toNat cy.toNat (gridWords c (cx.toNat * cy.toNat))).succeed) := by
  simp [exec, execGridq, hx, hy, coefWords_of_written hw]

theorem exec_gridq_of_numbers (hn : ∀ k < 3 * (cx.toNat * cy.toNat), isNaN (c k) = false) :
    exec (.gridq cx cy) s = .next (s.withEffect (gridRegs cx.toNat cy.toNat (gridWords c (cx.toNat * cy.toNat)))
      0 0 (gridValues (gridWords c (cx.toNat * cy.toNat)))) := by
  rw [exec_gridq_of_written hx hy hw, State.commitGrid_succeed_eq_withEffect]
  exact State.unlessNaN_of_forall (by simpa [mem_gridWords] using hn)

end Counts

/-- Settles O51: the words are read before any of them is looked at. -/
theorem gridqUnwrittenOperand : Obligations.GridqUnwrittenOperand := by
  intro s cx cy k hx hx9 hy hy9 hk hnone
  have hread : readWord s.mem (coefOffset (0 + k)) = none := by rw [Nat.zero_add, ← State.coef_eq, hnone]
  exact exec_gridq_of_unwritten (countLegal_iff.2 ⟨hx, hx9⟩) (countLegal_iff.2 ⟨hy, hy9⟩)
    (coefWords_eq_none.2 ⟨k, hk, hread⟩)

/-- Settles O52: the words are examined in increasing index, and there are at most 243. -/
theorem gridqNaN : Obligations.GridqNaN := by
  intro s cx cy c k hx hx9 hy hy9 hw hk hnan hbefore
  have hlx := countLegal_iff.2 ⟨hx, hx9⟩
  have hly := countLegal_iff.2 ⟨hy, hy9⟩
  have h81 : cx.toNat * cy.toNat ≤ 81 := (countLegal_mul hlx hly).2
  have hfirst : firstNaN (gridWords c (cx.toNat * cy.toNat)) 0 = some k :=
    firstNaN_eq_some.2 ⟨k, by simpa using hk, (Nat.zero_add k).symm, by simpa using hnan, by simpa using hbefore⟩
  exact ⟨by omega, _, (exec_gridq_of_written hlx hly hw).trans (State.unlessNaN_of_first hfirst),
    s.raiseErr_fails .nanOperand k (by omega)⟩

/-! ### The maximum magnitude -/

@[simp] theorem isNaN_fabs (u : F64) : isNaN (fabs u) = isNaN u := by simp [isNaN_eq]

/-- The scan answers its start or one of the magnitudes (spec/43_grid.md R237). -/
theorem maxMagnitude_eq (us : List F64) (m : F64) : maxMagnitude us m = m ∨ ∃ u ∈ us, maxMagnitude us m = fabs u := by
  induction us generalizing m with
  | nil => exact .inl rfl
  | cons u us ih =>
    simp only [maxMagnitude, forceWord_eq, List.exists_mem_cons_iff]
    rcases ih (if flt m (fabs u) then fabs u else m) with h | h
    · rw [h]
      split_ifs
      · exact .inr (.inl rfl)
      · exact .inl rfl
    · exact .inr (.inr h)

theorem isNaN_maxMagnitude {us : List F64} {m : F64} (hus : ∀ u ∈ us, isNaN u = false) (hm : isNaN m = false) :
    isNaN (maxMagnitude us m) = false := by
  rcases maxMagnitude_eq us m with h | ⟨u, hu, h⟩
  · rwa [h]
  · rw [h, isNaN_fabs, hus u hu]

/-- One step of the scan: the larger of the two numbers (spec/43_grid.md R236). -/
theorem orderKey_ite_flt {a b : F64} (ha : isNaN a = false) (hb : isNaN b = false) :
    orderKey (if flt a b then b else a) = max (orderKey a) (orderKey b) := by
  split_ifs with h
  · exact (max_eq_right (flt_iff.1 h).2.2.le).symm
  · exact (max_eq_left (not_lt.1 fun hlt => h (flt_iff.2 ⟨ha, hb, hlt⟩))).symm

/-- The scan answers at least its start and every magnitude (spec/43_grid.md R237). -/
theorem orderKey_le_maxMagnitude {us : List F64} {m : F64} (hus : ∀ u ∈ us, isNaN u = false) (hm : isNaN m = false) :
    orderKey m ≤ orderKey (maxMagnitude us m) ∧ ∀ u ∈ us, orderKey (fabs u) ≤ orderKey (maxMagnitude us m) := by
  induction us generalizing m with
  | nil => exact ⟨le_rfl, nofun⟩
  | cons u us ih =>
    rw [List.forall_mem_cons] at hus ⊢
    obtain ⟨hu, hus⟩ := hus
    have hstep := orderKey_ite_flt hm ((isNaN_fabs u).trans hu)
    obtain ⟨hfirst, hrest⟩ := ih (m := if flt m (fabs u) then fabs u else m) hus (by split_ifs <;> simp [hu, hm])
    rw [hstep, max_le_iff] at hfirst
    rw [maxMagnitude, forceWord_eq]
    exact ⟨hfirst.1, hfirst.2, hrest⟩

/-! ### The QG words and the registers -/

/-- `mv` is a positive number (spec/42_quantizers.md R204). -/
theorem maxValueOf_pos {q : Nat} (hq : q ≤ 82) :
    IsFinite (maxValueOf q) ∧ signOf (maxValueOf q) = false ∧ magOf (maxValueOf q) ≠ 0 := by
  have hw : Within (maxValueOf 0) (maxValueOf q) (maxValueOf 82) :=
    ⟨orderKey_maxValueOf_mono (Nat.zero_le q) hq, orderKey_maxValueOf_mono hq le_rfl⟩
  have h0 : orderKey k0 < orderKey (maxValueOf 0) := by decide +kernel
  have hpos : flt k0 (maxValueOf q) = true := flt_iff.2 ⟨by decide, isNaN_maxValueOf hq, h0.trans_le hw.1⟩
  obtain ⟨hs, hm⟩ := pos_of_flt_k0 hpos
  exact ⟨hw.isFinite (by decide +kernel) (by decide +kernel), hs, hm.ne'⟩

/-- Against an `mv`, the bin of every number is ACF1's (spec/43_grid.md R236). -/
theorem acf1_maxValueOf {q : Nat} (hq : q ≤ 82) {u : F64} (hu : isNaN u = false) :
    acf1 u (maxValueOf q) = some (acBin (fdiv u (maxValueOf q))) :=
  have ⟨hfin, hs, h0⟩ := maxValueOf_pos hq
  acf1_of_number_of_pos hfin h0 hs hu

theorem dcValue_eq {ws : List F64} (h : 3 ≤ ws.length) : dcValue ws = dcf ws[0] ws[1] ws[2] := by
  match ws, h with
  | _ :: _ :: _ :: _, _ => rfl

/-- Entry `n` of the QG words holds the bins of coefficient `n` (spec/43_grid.md R231, R236). -/
theorem getElem_gridValues {ws : List F64} {N n : Nat} (hlen : ws.length = 3 * N) (h1 : 1 ≤ n) (hn : n < N)
    (h : n < (gridValues ws).length) {mv : F64} (hmv : mv = maxValueOf (amaxQuant (maxMagnitude (ws.drop 3) k0))) :
    (gridValues ws)[n] =
      packAc (acBin (fdiv ws[3 * n] mv)) (acBin (fdiv ws[3 * n + 1] mv)) (acBin (fdiv ws[3 * n + 2] mv)) := by
  obtain ⟨j, rfl⟩ := Nat.exists_eq_add_of_le' h1
  simp only [gridValues, ← hmv, List.getElem_cons_succ]
  rw [getElem_acValues _ (n := N - 1) (by rw [List.length_drop]; omega) j (by omega)]
  simp only [List.getElem_drop, show 3 + 3 * j = 3 * (j + 1) by omega, ← Nat.add_assoc]

theorem State.withEffect_gridRegs (s : State) (cx cy : Nat) (ws : List F64) (len v : Nat) (qg : List Nat) {t : State}
    (ht : t = s.withEffect (gridRegs cx cy ws) len v qg) {m : F64} (hm : m = maxMagnitude (ws.drop 3) k0) :
    t.res[0] = BitVec.ofNat 64 (sizeFlag cx cy) ∧ t.res[1] = BitVec.ofNat 64 (amaxQuant m) ∧
      t.res[2] = maxValueOf (amaxQuant m) ∧ t.res[3] = m := by
  subst ht hm
  simp [State.withEffect, State.withResults, gridRegs, writeRes]

/-! ### The result -/

section Result
variable {c : Nat → F64} {N : Nat} (hc : ∀ k < 3 * N, isNaN (c k) = false)
include hc

theorem isNaN_of_mem_drop : ∀ u ∈ (gridWords c N).drop 3, isNaN u = false := by
  intro u hu
  obtain ⟨k, -, hk, rfl⟩ := mem_drop_gridWords.1 hu
  exact hc k hk

/-- The maximum is +0.0 or a magnitude, and none is larger (spec/43_grid.md R237). -/
theorem maxMagnitude_words {m : F64} (hm : m = maxMagnitude ((gridWords c N).drop 3) k0) :
    isNaN m = false ∧ (m = k0 ∨ ∃ k, 3 ≤ k ∧ k < 3 * N ∧ m = fabs (c k)) ∧
      ∀ k, 3 ≤ k → k < 3 * N → fle (fabs (c k)) m = true := by
  have hnum := isNaN_of_mem_drop hc
  have hmax := isNaN_maxMagnitude hnum (m := k0) (by decide)
  rw [← hm] at hmax
  refine ⟨hmax, ?_, fun k h3 hk => fle_iff.2 ⟨(isNaN_fabs _).trans (hc k hk), hmax, ?_⟩⟩
  · rcases maxMagnitude_eq ((gridWords c N).drop 3) k0 with h | ⟨u, hu, h⟩
    · exact .inl (hm.trans h)
    · obtain ⟨k, h3, hk, rfl⟩ := mem_drop_gridWords.1 hu
      exact .inr ⟨k, h3, hk, hm.trans h⟩
  · rw [hm]
    exact (orderKey_le_maxMagnitude hnum (by decide)).2 _ (mem_drop_gridWords.2 ⟨k, h3, hk, rfl⟩)

/-- QG[n], n >= 1, holds the three bins ACF1 answers for coefficient `n` (spec/43_grid.md R231, R236). -/
theorem gridValues_bins {m : F64} (hm : m = maxMagnitude ((gridWords c N).drop 3) k0) {n : Nat} (h1 : 1 ≤ n)
    (hn : n < N) (h : n < (gridValues (gridWords c N)).length) :
    ∃ qr qg qb, acf1 (c (3 * n)) (maxValueOf (amaxQuant m)) = some qr ∧
      acf1 (c (3 * n + 1)) (maxValueOf (amaxQuant m)) = some qg ∧
      acf1 (c (3 * n + 2)) (maxValueOf (amaxQuant m)) = some qb ∧
      (gridValues (gridWords c N))[n] = packAc qr qg qb := by
  have hq := amaxQuant_le (maxMagnitude_words hc hm).1
  refine ⟨_, _, _, acf1_maxValueOf hq (hc _ (by omega)), acf1_maxValueOf hq (hc _ (by omega)),
    acf1_maxValueOf hq (hc _ (by omega)), ?_⟩
  rw [getElem_gridValues length_gridWords h1 hn h (by rw [← hm])]
  simp only [getElem_gridWords]

end Result

/-- Settles O49: GRIDQ is an effect, whose registers, maximum, QG words and frame are read off. -/
theorem gridqResult : Obligations.GridqResult := by
  intro s cx cy c hx hx9 hy hy9 hc
  have hlx := countLegal_iff.2 ⟨hx, hx9⟩
  have hly := countLegal_iff.2 ⟨hy, hy9⟩
  obtain ⟨hN, h81⟩ := countLegal_mul hlx hly
  have hnum : ∀ k < 3 * (cx.toNat * cy.toNat), isNaN (c k) = false := fun k hk => (hc k hk).2
  have hexec := exec_gridq_of_numbers hlx hly (fun k hk => (hc k hk).1) hnum
  have hqg := length_gridValues (length_gridWords (c := c)) hN
  obtain ⟨hsf, hq, hmv, hm⟩ := s.withEffect_gridRegs cx.toNat cy.toNat (gridWords c (cx.toNat * cy.toNat)) 0 0
    (gridValues (gridWords c (cx.toNat * cy.toNat))) rfl rfl
  obtain ⟨-, hmag, hmax⟩ := maxMagnitude_words hnum rfl
  refine ⟨_, _, hexec, s.withEffect_succeeds (hqg.trans_le h81), s.setField_zero_chr 0, hmag, hmax, hsf, hq, hmv, hm, ?_,
    fun n h1 hn => ?_, fun a ha => s.withEffect_bytes (by rwa [hqg])⟩
  · rw [State.qg_withEffect s (n := 0) (by rwa [hqg])]
    simp only [gridValues, List.getElem_cons_zero]
    rw [dcValue_eq (by simp; omega), dcf]
    simp only [getElem_gridWords]
  · obtain ⟨qr, qg, qb, hr, hg, hb, hpack⟩ := gridValues_bins hnum rfl h1 hn (by rwa [hqg])
    rw [hmv, State.qg_withEffect s (by rwa [hqg]), hpack]
    exact ⟨qr, qg, qb, hr, hg, hb, rfl⟩

/-- Settles O54: the operands are numbers, so each single command answers its result, which is the one of GRIDQ. -/
theorem gridqEqualsSingleSteps : Obligations.GridqEqualsSingleSteps := by
  intro s t cx cy c hx hx9 hy hy9 hc hexec
  obtain ⟨t', m, hexec', -, -, hmag, -, -, hq, hmv, hm, hdc, hac, -⟩ := gridqResult s cx cy c hx hx9 hy hy9 hc
  obtain rfl : t' = t := Host.Outcome.next.inj (hexec'.symm.trans hexec)
  have hN : 0 < cx.toNat * cy.toNat := Nat.mul_pos hx hy
  have hnum {k : Nat} (hk : k < 3 * (cx.toNat * cy.toNat)) : isNaN (c k) = false := (hc k hk).2
  have hmnum : isNaN m = false := by
    rcases hmag with rfl | ⟨k, -, hk, rfl⟩
    · decide
    · rw [isNaN_fabs, hnum hk]
  refine ⟨fun a h0 h1 h2 => ?_, fun a h0 => ?_, fun a n h1 hn h0 h1' h2 h3 => ?_⟩
  · obtain ⟨b, hb, -, hres, -⟩ := (dcqResult.2 a).1 (h0 ▸ hnum (by omega)) (h1 ▸ hnum (by omega)) (h2 ▸ hnum (by omega))
    rw [h0, h1, h2] at hres
    exact ⟨b, hb, by rw [hdc, ← hres, BitVec.ofNat_toNat, BitVec.setWidth_eq]⟩
  · rw [hm] at h0
    obtain ⟨b, hb, -, hres0, hres1, -⟩ := (amaxqResult.2.2 a).1 (h0 ▸ hmnum)
    rw [h0] at hres0 hres1
    exact ⟨b, hb, hres0.trans hq.symm, hres1.trans hmv.symm⟩
  · obtain ⟨qr, qg, qb, hr, hg, hb, hqg⟩ := hac n h1 hn
    have hops : ∀ k : Fin 4, isNaN a.op[k] = false := by
      have hmvnum : isNaN t'.res[2] = false := hmv ▸ isNaN_maxValueOf (amaxQuant_le hmnum)
      intro k
      match k with
      | 0 => exact h0 ▸ hnum (by omega)
      | 1 => exact h1' ▸ hnum (by omega)
      | 2 => exact h2 ▸ hnum (by omega)
      | 3 => exact h3 ▸ hmvnum
    rw [← h0, ← h3] at hr
    rw [← h1', ← h3] at hg
    rw [← h2, ← h3] at hb
    exact ⟨_, exec_acq_of_bins hops hr hg hb, by rw [hqg]; simp [packAc]⟩

end Sys2Proof.Machine

/-!
PROOFS. Acceptance and completion (spec/44_control.md R260 to R268). A step, the block's move and a completion have one
equation per case. A write of CMD or of an operand is `guarded`, and one lemma per value of BUSY says what it answers. A
completion answers a next state, which is settled, unless GRIDQ finds an unwritten word.
-/

namespace Sys2Proof.Machine

/-! ### The block's move and the step -/

section Moves
variable {s : State} {w : Word} {i : Instr} {ts : List Turn}

theorem State.complete_of_decode (h : decode w = .ok i) : s.complete w = exec i s := by
  rw [State.complete, h]

/-- A word that does not decode is reported (spec/30_encoding.md R105). -/
theorem State.complete_of_not_decode {r : Reject} (h : decode w = .error r) :
    s.complete w = .next (s.raiseErr .illegalCommand 0) := by
  rw [State.complete, h]

theorem State.blockMove_of_idle (h : s.pend = none) : s.blockMove = .next s := by
  rw [State.blockMove, h]

theorem State.blockMove_of_pend (h : s.pend = some w) : s.blockMove = s.complete w := by
  rw [State.blockMove, h]

theorem State.blockMove_of_decode (h : s.pend = some w) (hd : decode w = .ok i) : s.blockMove = exec i s := by
  rw [State.blockMove_of_pend h, State.complete_of_decode hd]

theorem step_of_no_turns (h : s.turns = []) : step s = s.blockMove := by
  rw [step, h]

theorem step_of_block (h : s.turns = .block :: ts) : step s = State.blockMove { s with turns := ts } := by
  rw [step, h]

theorem step_of_host {a : HostOp} (h : s.turns = .host a :: ts) : step s = State.hostMove { s with turns := ts } a := by
  rw [step, h]

end Moves

/-- Settles O3: the step's move is the next of the list, and `blockMove` does not read the list. -/
theorem stepRunsDecodedCommand : Obligations.StepRunsDecodedCommand := by
  refine ⟨fun s w i ts hp hd ht => ?_, fun s w i hp hd ht => ?_, fun s a ts ht => step_of_host ht, fun s ts hp ht => ?_⟩
  · rw [step_of_block ht]
    exact State.blockMove_of_decode hp hd
  · rw [step_of_no_turns ht]
    exact State.blockMove_of_decode hp hd
  · rw [step_of_block ht]
    exact State.blockMove_of_idle hp

/-! ### Writes while BUSY -/

section Busy
variable {s t : State} {off : Offset} {v : Word} {r : Reg} (hbusy : s.status.busy = true)
include hbusy

theorem State.guarded_of_busy : s.guarded t = s.refuse := by
  rw [State.guarded, hbusy]
  rfl

/-- A busy block refuses the write of an operand or of CMD (spec/44_control.md R264, R265). -/
theorem State.hostMove_write_of_busy (h : regAt off = some r) (hr : s.writeReg v r = s.guarded t) :
    s.hostMove (.write off 8 v) = .next s.refuse := by
  rw [State.hostMove_write_of_regAt h, hr, State.guarded_of_busy hbusy]

end Busy

/-- Settles O19: each of these offsets names a register whose write is guarded. -/
theorem operandWriteWhileBusy : Obligations.OperandWriteWhileBusy := by
  intro s v off hbusy hoff
  have hwrite (r : Reg) {t : State} (hr : s.writeReg v r = s.guarded t) :=
    State.hostMove_write_of_busy hbusy (regAt_offset r) hr
  rcases hoff with ⟨k, rfl⟩ | rfl | rfl | ⟨n, rfl⟩
  · exact hwrite (.op k) rfl
  · exact hwrite (.chr 0) rfl
  · exact hwrite (.chr 1) rfl
  · exact hwrite (.coef n) rfl

/-- Settles O22: a write of CMD is the acceptance of the word, guarded like the write of an operand. -/
theorem commandWrite : Obligations.CommandWrite := by
  intro s w
  have hcmd : s.writeReg w .cmd = s.guarded (s.accept w) := rfl
  exact ⟨fun hidle => State.hostMove_write_of_idle hidle (regAt_offset .cmd) hcmd,
    fun hbusy => State.hostMove_write_of_busy hbusy (regAt_offset .cmd) hcmd⟩

/-! ### Completion -/

/-- A GRIDQ over words that are all written answers a next state, so one that faults has met an unwritten word
(spec/43_grid.md R233). -/
theorem exists_unwritten_of_exec_gridq_fault {cx cy : BitVec 4} {s : State} {f : Fault}
    (h : exec (.gridq cx cy) s = .fault f) : ∃ k < 3 * (cx.toNat * cy.toNat), s.coef k = none := by
  cases hx : countLegal cx.toNat with
  | false =>
    rw [exec_gridq_of_bad_cx cy s hx] at h
    cases h
  | true =>
    cases hy : countLegal cy.toNat with
    | false =>
      rw [exec_gridq_of_bad_cy s hx hy] at h
      cases h
    | true =>
      by_contra! hw
      have hwritten : ∀ k < 3 * (cx.toNat * cy.toNat), s.coef k = some ((s.coef k).getD 0) := fun k hk => by
        obtain ⟨c, hc⟩ := Option.ne_none_iff_exists'.1 (hw k hk)
        rw [hc, Option.getD_some]
      rw [exec_gridq_of_written hx hy hwritten] at h
      rcases s.unlessNaN_cases _ _ with ⟨k, -, -, hnext⟩ | ⟨-, hnext⟩ <;> rw [hnext] at h <;> cases h

/-- How a command ends (spec/44_control.md R268). -/
theorem exec_settled_or_unwritten (i : Instr) (s : State) :
    (∃ t, exec i s = .next t ∧ Settled s t) ∨
      ((∃ cx cy k, i = .gridq cx cy ∧ k < 3 * (cx.toNat * cy.toNat) ∧ s.coef k = none) ∧
        exec i s = .fault .unwrittenOperand) := by
  have hsettled {t : State} (h : exec i s = .next t) : ∃ t, exec i s = .next t ∧ Settled s t :=
    ⟨t, h, (commandsWriteOnly i s t h).1⟩
  rcases exec_cases i s with ⟨_, _, -, -, h⟩ | ⟨_, _, _, -, h⟩ | ⟨⟨cx, cy, rfl⟩, h⟩
  · exact .inl (hsettled h)
  · exact .inl (hsettled h)
  · obtain ⟨k, hk, hnone⟩ := exists_unwritten_of_exec_gridq_fault h
    exact .inr ⟨⟨cx, cy, k, rfl, hk, hnone⟩, h⟩

/-- Settles O23: a pending word that decodes ends as its command does, any other with the error report. -/
theorem pendingCommandCompletes : Obligations.PendingCommandCompletes := by
  refine ⟨fun s w hp => ?_, fun s hp => State.blockMove_of_idle hp⟩
  cases hd : decode w with
  | error r =>
    rw [State.blockMove_of_pend hp, State.complete_of_not_decode hd]
    exact .inl ⟨_, rfl, (s.raiseErr_fails .illegalCommand 0 (by decide)).settled⟩
  | ok i =>
    rw [State.blockMove_of_decode hp hd]
    simpa only [Except.ok.injEq] using exec_settled_or_unwritten i s

/-- Settles O28: the command commits nothing and completes. -/
theorem nopResult : Obligations.NopResult := by
  refine ⟨decode_of_mem_rowsK0_setWidth (r := (.nop, 0x00)) (by simp [rowsK0]),
    fun s => ⟨s.succeed, rfl, ?_, rfl, rfl, fun _ => rfl⟩⟩
  rw [State.succeed_eq_withEffect]
  exact s.withEffect_succeeds (Nat.zero_le _)

end Sys2Proof.Machine

/-!
PROOFS. The error report (spec/60_exceptions.md R271 to R273). A completion that sets ERR is a `raiseErr`, for a success
leaves ERR as it is.
-/

namespace Sys2Proof.Machine

/-- The errors a command raises have codes 1, 2, 5 and 6; the reserved codes 3 and 4 do not occur
(spec/60_exceptions.md R271). -/
theorem CmdError.code_mem {e : CmdError}
    (h : e ∈ [CmdError.invalidCharacter, .invalidComponents, .illegalCommand, .nanOperand]) :
    e.code.toNat ∈ [1, 2, 5, 6] := by
  cases e with
  | invalidLength => simp at h
  | invalidImage => simp at h
  | invalidCharacter | invalidComponents | illegalCommand | nanOperand => decide

/-- Settles O25: of the ways a command ends, only the error report sets an ERR that was clear. -/
theorem errorsWriteNothing : Obligations.ErrorsWriteNothing := by
  intro i s t hclear hexec herr
  rcases exec_cases i s with ⟨e, k, hk, he, h⟩ | ⟨res, chr, vs, -, h⟩ | ⟨-, h⟩
  · obtain rfl : s.raiseErr e k = t := Host.Outcome.next.inj (h.symm.trans hexec)
    exact ⟨_, k, CmdError.code_mem he, hk, s.raiseErr_fails e k (by omega)⟩
  · obtain rfl : (s.withResults res chr vs).succeed = t := Host.Outcome.next.inj (h.symm.trans hexec)
    have hkept : (s.withResults res chr vs).succeed.status.err = s.status.err := rfl
    rw [hkept, hclear] at herr
    cases herr
  · rw [h] at hexec
    cases hexec

end Sys2Proof.Machine

/-!
PROOFS. Reset (spec/70_reset_and_hazards.md R300) and the race of a read with a completion (R310). Neither a command nor
an access looks at the moves still to come, so a command ends the same way wherever `turns` puts it.
-/

namespace Sys2Proof.Machine

/-! ### The reset event -/

/-- Settles O2: the reset move is `resetEvent`, whose fields are those of the reset state. -/
theorem resetEvent : Obligations.ResetEvent := by
  intro s
  have hzero (k : Fin 4) : s.resetEvent.op[k] = 0 ∧ s.resetEvent.res[k] = 0 :=
    ⟨Vector.getElem_replicate _, Vector.getElem_replicate _⟩
  exact ⟨s.resetEvent, rfl, s.resetEvent_pend, s.resetEvent_status, hzero, fun _ => Vector.getElem_replicate _,
    fun _ => rfl, s.resetEvent_faults, s.resetEvent_turns, s.resetEvent_replies⟩

/-! ### The moves still to come -/

section Turns
variable {s t : State} {i : Instr} {off : Offset} {v : Word}

/-- An effect writes no moves. -/
theorem Effect.run_withTurns {x : Effect} (h : x.run s = .next t) (ts : List Turn) :
    x.run { s with turns := ts } = .next { t with turns := ts } := by
  cases x with
  | unwritten => cases h
  | error e k =>
    cases h
    rfl
  | results regs len v qg =>
    cases h
    rfl

/-- The moves still to come are no operand. -/
theorem sameOperands_withTurns (s : State) (i : Instr) (ts : List Turn) : sameOperands s { s with turns := ts } i :=
  sameOperands_refl s i

/-- A command neither reads nor writes the moves still to come. -/
theorem exec_withTurns (h : exec i s = .next t) (ts : List Turn) :
    exec i { s with turns := ts } = .next { t with turns := ts } := by
  obtain ⟨x, -, hs, hts⟩ := exec_effect (sameOperands_withTurns s i ts)
  rw [hts]
  exact Effect.run_withTurns (hs.symm.trans h) ts

/-- No access reads `turns`. -/
theorem State.memRead_withTurns (s : State) (ts : List Turn) (off : Offset) (size : Nat) :
    { s with turns := ts }.memRead off size = s.memRead off size := rfl

/-- With a read next, the step adds its value to the replies. -/
theorem step_read (h : s.memRead off 8 = .ok v) (ts : List Turn) :
    step { s with turns := .host (.read off 8) :: ts } = .next { s with turns := ts, replies := (off, v) :: s.replies } := by
  rw [step_of_host rfl]
  exact State.hostMove_read_ok ((s.memRead_withTurns ts off 8).trans h)

/-- With the block next, the step completes the pending command. -/
theorem step_command {w : Word} (hp : s.pend = some w) (hd : decode w = .ok i) (h : exec i s = .next t)
    (ts : List Turn) : step { s with turns := .block :: ts } = .next { t with turns := ts } := by
  rw [step_of_block rfl]
  exact (State.blockMove_of_decode (s := { s with turns := ts }) hp hd).trans (exec_withTurns h ts)

end Turns

/-- Settles O27: the read answers from the state its move finds, and the command ends the same way in both orders. -/
theorem raceAdmitsBothValues : Obligations.RaceAdmitsBothValues := by
  intro s t w i off before after hp hd hexec hbefore hafter
  obtain ⟨hsettled, -, -, -, -, hreplies⟩ := commandsWriteOnly i s t hexec
  refine ⟨⟨_, step_read hbefore _, rfl, hp⟩, _, _, step_command hp hd hexec _, hsettled.pend, step_read hafter [], ?_⟩
  rw [hreplies]

end Sys2Proof.Machine
